-- ==== Sys2Proof/Word.lean ====
section
/-! DEFINITION. The word types of the block (rule R10): bytes on the wire, 32-bit host registers,
8-byte ROM addresses and 9-byte scratchpads. -/

namespace Sys2Proof

/-- A 1-Wire data byte (R10). -/
abbrev Byte := BitVec 8

/-- A host register (R10, R39). -/
abbrev Word := BitVec 32

/-- A ROM address: 8 bytes in wire order, byte 0 the family code (R10, R100). -/
abbrev Rom := Vector Byte 8

/-- A scratchpad: 9 bytes in wire order, byte 8 the CRC (R10, R102). -/
abbrev Scratchpad := Vector Byte 9

end Sys2Proof
end

