-- ==== Sys2Proof/Syntax.lean ====
section
/-! DEFINITION. The vocabulary of the block: the 23 rows of the opcode table as ONE inductive, the fetch
unit that carries a row's bits, the pin actions and events of R13 and R63, the host registers of R39,
and the inputs the outside world can give. -/

namespace Sys2Proof

/-- One constructor per row of `spec/opcode_table.json`. A host command carries the field the row lists,
`ignored` = bits 31:8 of the `CMD` word (R90): any value is legal and none changes the command (R94).
A wire command row has no field. -/
inductive Instr where
  | init (ignored : BitVec 24)
  | destroy (ignored : BitVec 24)
  | resetBus (ignored : BitVec 24)
  | readRom (ignored : BitVec 24)
  | searchRom (ignored : BitVec 24)
  | readPowerSupply (ignored : BitVec 24)
  | readScratchpad (ignored : BitVec 24)
  | writeScratchpad (ignored : BitVec 24)
  | convertDuration (ignored : BitVec 24)
  | convertTemperature (ignored : BitVec 24)
  | getTemperature (ignored : BitVec 24)
  | getResolution (ignored : BitVec 24)
  | setResolution (ignored : BitVec 24)
  | crc8 (ignored : BitVec 24)
  | wSearchRom
  | wReadRom
  | wMatchRom
  | wSkipRom
  | wAlarmSearch
  | wConvertT
  | wWriteScratchpad
  | wReadScratchpad
  | wReadPowerSupply
  deriving DecidableEq, Repr

/-- The 14 host commands of R91, without the ignored bits: what the sequencer selects by `CMD.OP`. -/
inductive HostOp where
  | init | destroy | resetBus | readRom | searchRom | readPowerSupply | readScratchpad
  | writeScratchpad | convertDuration | convertTemperature | getTemperature | getResolution
  | setResolution | crc8
  deriving DecidableEq, Repr

/-- The 9 wire command bytes of R98, by name. -/
inductive WireCmd where
  | searchRom | readRom | matchRom | skipRom | alarmSearch | convertT | writeScratchpad
  | readScratchpad | readPowerSupply
  deriving DecidableEq, Repr

/-- What a decoder is given: a `CMD` word (format HOSTCMD, R90) or a byte for the wire (WIRECMD, R98). -/
inductive Code where
  | host (w : Word)
  | wire (b : Byte)
  deriving DecidableEq, Repr

/-- The bus-action primitives of R13 that return nothing. -/
inductive Act where
  | driveLow
  | release
  | waitUs (d : Nat)
  | waitMs (d : Nat)
  | spuOn
  | spuOff
  deriving DecidableEq, Repr

/-- One event of the run's single history (R63): a primitive, or a line sample with the value returned. -/
inductive Event where
  | act (a : Act)
  | sample (b : Bool)
  deriving DecidableEq, Repr

/-- The levels of the 1-Wire line (R65): low, high by the pull-up resistor alone, or actively held high by the strong
pull-up. -/
inductive LineLevel where
  | low | pulledHigh | heldHigh
  deriving DecidableEq, Repr

/-- The six status codes of R105, by name. -/
inductive Status where
  | ok | invalidArg | noDevice | crcError | tooMany | unsupported
  deriving DecidableEq, Repr

/-- The host registers of R39. `reserved` is every offset the table gives no register. -/
inductive Reg where
  | cmd | stat | cfg | result | temp | addr0 | addr1 | romid0 | romid1 | spbuf0 | spbuf1 | spbuf2 | id
  | addrlistLo (j : Nat)
  | addrlistHi (j : Nat)
  | reserved
  deriving DecidableEq, Repr

/-- What can reach the block from outside, one per step (R8, R61, R73, R107, R108, R300). Offsets are
byte offsets from `OW_BASE`, widths are in bits.
`write`/`read` are HOST register accesses; a `CMD` write starts the sequencer, which then moves one line a step.
`poll` is R108's POLL: the HOST reads `STAT` until `BUSY` is 0, and CORE moves meanwhile.
`cmd` is R108's EXEC taken as one step: a `CMD` write whose command runs to its end before anything else happens.
`tick` lets CORE move one line; `tickByte` does so too, but where CORE's next line sends a wire command byte it sends
the whole byte, all 8 slots, in that step (log entry 3). `reset` is the `RESET` input, asserted and released. -/
inductive Input where
  | write (offset width : Nat) (value : Word)
  | read (offset width : Nat)
  | poll
  | cmd (w : Word)
  | tick
  | tickByte
  | reset
  deriving DecidableEq, Repr

end Sys2Proof
end

