-- ==== Sys2Proof/Config.lean ====
section
/-! DEFINITION. What an implementation fixes (R9, 92 section 2): the OPEN parameters as constants with no
body, gathered in the plain record `Params`; the defaults of FAMILY_CLASS; the timing figures; and the free
values, which nothing constrains. -/

namespace Sys2Proof

/-- How the legacy formula's `raw/2` is computed (R9 `LEGACY_HALF_MODE`, R243, 92 D18). -/
inductive HalfMode where
  | exact | trunc | floor
  deriving DecidableEq, Repr, Inhabited

/-- The class of a family code (R17, R104). -/
inductive FamilyClass where
  | modern | legacy | unknown
  deriving DecidableEq, Repr

/-- The parameters of one implementation (R9): fixed for the machine, written by no rule.
`families` lists the family codes that are not UNKNOWN. -/
structure Params where
  fClk : Nat
  owBase : Nat
  addrlistDepth : Nat
  pwrDefault : Bool
  halfMode : HalfMode
  families : List (Byte × FamilyClass)
  deriving DecidableEq, Repr

namespace Config

/-- `F_CLK` in Hz, OPEN (92 D8). -/
opaque fClk : Nat
/-- `OW_BASE`, OPEN (92 D2). -/
opaque owBase : Nat
/-- `ADDRLIST_DEPTH` less one: the depth is OPEN, at least 1 (92 D14). -/
opaque addrlistDepthLessOne : Nat
/-- `PWR_DEFAULT`, OPEN (92 D23). -/
opaque pwrDefault : Bool
/-- `LEGACY_HALF_MODE`, OPEN (92 D18). -/
opaque halfMode : HalfMode

/-- The default `FAMILY_CLASS` table (R104, K4): every other code is UNKNOWN. -/
def defaultFamilies : List (Byte × FamilyClass) :=
  [(0x10#8, .legacy), (0x22#8, .modern), (0x28#8, .modern), (0x3B#8, .modern), (0x42#8, .modern)]

/-- The parameters of this machine: the OPEN ones without a value (log entry 1), FAMILY_CLASS at its default (log
entry 4). -/
def params : Params where
  fClk := fClk
  owBase := owBase
  addrlistDepth := addrlistDepthLessOne + 1
  pwrDefault := pwrDefault
  halfMode := halfMode
  families := defaultFamilies

/-- FREE VALUE. The bus oracle (R66): the level a `SAMPLE()` returns when the state holds no answer the
environment has chosen already, as a function of the whole event history (newest event first). No law (log entry 2). -/
opaque busDraw : List Event → Bool

/-- FREE VALUE. The `TEMP` of the legacy formula with `COUNT_PER_C = 0` (R243, U8), for the n-th draw. No law
(log entry 10). -/
opaque anyTemp : Nat → Word

/-- FREE VALUE. What a HOST read of a register that the running command may be changing returns (R72, U15),
for the n-th draw. No law (log entry 7). -/
opaque busyRead : Nat → Word

/-! The timing figures of R9, in microseconds but for `tConv`. -/

def tRstl : Nat := 480
def tPdwait : Nat := 15
def tPdpoll : Nat := 10
def nPdpoll : Nat := 24
def tRsth : Nat := 480
def tLow : Nat := 3
def tSlot : Nat := 60
def tRdv : Nat := 7
def tRec : Nat := 1
/-- Milliseconds. -/
def tConv : Nat := 750

end Config
end Sys2Proof
end

