-- ==== Sys2Proof/WellFormed.lean ====
section
/-! DEFINITION. What is well formed: an instruction, a HOST access (R61), an input, a record of parameters (R9). -/

namespace Sys2Proof

/-- Every instruction is well formed: a host command's only field is ignored at any value (R90, R94), and a
wire command has no field. The command operands stand in `CFG`, `ADDR` and `SPBUF`; their illegal values are the
commands' own business (R272). -/
def Instr.wf : Instr → Bool
  | .init _ | .destroy _ | .resetBus _ | .readRom _ | .searchRom _ | .readPowerSupply _
  | .readScratchpad _ | .writeScratchpad _ | .convertDuration _ | .convertTemperature _
  | .getTemperature _ | .getResolution _ | .setResolution _ | .crc8 _ => true
  | .wSearchRom | .wReadRom | .wMatchRom | .wSkipRom | .wAlarmSearch | .wConvertT
  | .wWriteScratchpad | .wReadScratchpad | .wReadPowerSupply => true

/-- A HOST access is 32 bits wide and its offset is a multiple of 4 (R61). -/
def accessWf (offset width : Nat) : Bool := width == 32 && offset % 4 == 0

/-- An input is well formed when its access is; the inputs that are no access always are. -/
def Input.wf : Input → Bool
  | .write offset width _ => accessWf offset width
  | .read offset width => accessWf offset width
  | .poll | .cmd _ | .tick | .tickByte | .reset => true

/-- `ADDRLIST_DEPTH` is at least 1 (R9). -/
def Params.wf (p : Params) : Bool := 1 ≤ p.addrlistDepth

end Sys2Proof
end

