-- ==== Sys2Proof/Decode.lean ====
section
/-! DEFINITION. The decoder of `CMD` words (R90, R91, R93) and wire bytes (R98), total, rejecting by name,
and the encoder written from the same tables. -/

namespace Sys2Proof

/-- Why a code is no instruction. -/
inductive Reject where
  /-- `OP` is 0x00 or 0x0F to 0xFF (R93). -/
  | reservedOpcode (op : Byte)
  /-- The byte is none of the nine of R98. -/
  | notAWireCommand (b : Byte)
  deriving DecidableEq, Repr

/-- The opcode map of R91. -/
def HostOp.opcode : HostOp → Byte
  | .init => 0x01#8
  | .destroy => 0x02#8
  | .resetBus => 0x03#8
  | .readRom => 0x04#8
  | .searchRom => 0x05#8
  | .readPowerSupply => 0x06#8
  | .readScratchpad => 0x07#8
  | .writeScratchpad => 0x08#8
  | .convertDuration => 0x09#8
  | .convertTemperature => 0x0A#8
  | .getTemperature => 0x0B#8
  | .getResolution => 0x0C#8
  | .setResolution => 0x0D#8
  | .crc8 => 0x0E#8

/-- The command `OP` selects; none for a reserved opcode (R91, R93). -/
def decodeOp (op : Byte) : Option HostOp :=
  match op.toNat with
  | 0x01 => some .init
  | 0x02 => some .destroy
  | 0x03 => some .resetBus
  | 0x04 => some .readRom
  | 0x05 => some .searchRom
  | 0x06 => some .readPowerSupply
  | 0x07 => some .readScratchpad
  | 0x08 => some .writeScratchpad
  | 0x09 => some .convertDuration
  | 0x0A => some .convertTemperature
  | 0x0B => some .getTemperature
  | 0x0C => some .getResolution
  | 0x0D => some .setResolution
  | 0x0E => some .crc8
  | _ => none

/-- The wire command bytes of R98. -/
def WireCmd.byte : WireCmd → Byte
  | .searchRom => 0xF0#8
  | .readRom => 0x33#8
  | .matchRom => 0x55#8
  | .skipRom => 0xCC#8
  | .alarmSearch => 0xEC#8
  | .convertT => 0x44#8
  | .writeScratchpad => 0x4E#8
  | .readScratchpad => 0xBE#8
  | .readPowerSupply => 0xB4#8

/-- The wire command a byte is; none for a byte that is none of R98's. -/
def decodeWire (b : Byte) : Option WireCmd :=
  match b.toNat with
  | 0xF0 => some .searchRom
  | 0x33 => some .readRom
  | 0x55 => some .matchRom
  | 0xCC => some .skipRom
  | 0xEC => some .alarmSearch
  | 0x44 => some .convertT
  | 0x4E => some .writeScratchpad
  | 0xBE => some .readScratchpad
  | 0xB4 => some .readPowerSupply
  | _ => none

/-- The instruction of a host command with the ignored bits of its word. -/
def HostOp.instr : HostOp → BitVec 24 → Instr
  | .init, x => .init x
  | .destroy, x => .destroy x
  | .resetBus, x => .resetBus x
  | .readRom, x => .readRom x
  | .searchRom, x => .searchRom x
  | .readPowerSupply, x => .readPowerSupply x
  | .readScratchpad, x => .readScratchpad x
  | .writeScratchpad, x => .writeScratchpad x
  | .convertDuration, x => .convertDuration x
  | .convertTemperature, x => .convertTemperature x
  | .getTemperature, x => .getTemperature x
  | .getResolution, x => .getResolution x
  | .setResolution, x => .setResolution x
  | .crc8, x => .crc8 x

/-- The instruction of a wire command. -/
def WireCmd.instr : WireCmd → Instr
  | .searchRom => .wSearchRom
  | .readRom => .wReadRom
  | .matchRom => .wMatchRom
  | .skipRom => .wSkipRom
  | .alarmSearch => .wAlarmSearch
  | .convertT => .wConvertT
  | .writeScratchpad => .wWriteScratchpad
  | .readScratchpad => .wReadScratchpad
  | .readPowerSupply => .wReadPowerSupply

/-- `CMD[7:0]` (R40, R90). -/
def cmdOp (w : Word) : Byte := w.extractLsb' 0 8

/-- `CMD[31:8]`, ignored (R90). -/
def cmdIgnored (w : Word) : BitVec 24 := w.extractLsb' 8 24

/-- The decoder: total, and a code that is no instruction is rejected by name. -/
def decode : Code → Except Reject Instr
  | .host w =>
    match decodeOp (cmdOp w) with
    | some op => .ok (op.instr (cmdIgnored w))
    | none => .error (.reservedOpcode (cmdOp w))
  | .wire b =>
    match decodeWire b with
    | some c => .ok c.instr
    | none => .error (.notAWireCommand b)

/-- A `CMD` word from its two fields: `ignored` above `OP` (R90). -/
def hostWord (op : HostOp) (ignored : BitVec 24) : Code := .host (ignored ++ op.opcode)

/-- The encoder, from the tables of R91 and R98. -/
def encode : Instr → Code
  | .init x => hostWord .init x
  | .destroy x => hostWord .destroy x
  | .resetBus x => hostWord .resetBus x
  | .readRom x => hostWord .readRom x
  | .searchRom x => hostWord .searchRom x
  | .readPowerSupply x => hostWord .readPowerSupply x
  | .readScratchpad x => hostWord .readScratchpad x
  | .writeScratchpad x => hostWord .writeScratchpad x
  | .convertDuration x => hostWord .convertDuration x
  | .convertTemperature x => hostWord .convertTemperature x
  | .getTemperature x => hostWord .getTemperature x
  | .getResolution x => hostWord .getResolution x
  | .setResolution x => hostWord .setResolution x
  | .crc8 x => hostWord .crc8 x
  | .wSearchRom => .wire (WireCmd.byte .searchRom)
  | .wReadRom => .wire (WireCmd.byte .readRom)
  | .wMatchRom => .wire (WireCmd.byte .matchRom)
  | .wSkipRom => .wire (WireCmd.byte .skipRom)
  | .wAlarmSearch => .wire (WireCmd.byte .alarmSearch)
  | .wConvertT => .wire (WireCmd.byte .convertT)
  | .wWriteScratchpad => .wire (WireCmd.byte .writeScratchpad)
  | .wReadScratchpad => .wire (WireCmd.byte .readScratchpad)
  | .wReadPowerSupply => .wire (WireCmd.byte .readPowerSupply)

/-- The code of a table row's bits: the table gives a HOSTCMD row 32 bits and a WIRECMD row 8. At most 8 bits
that are no wire command byte are a `CMD` word whose upper bits are 0. -/
def codeOfBits (nbits w : Nat) : Code :=
  if nbits ≤ 8 && (decodeWire (BitVec.ofNat 8 w)).isSome then .wire (BitVec.ofNat 8 w)
  else .host (BitVec.ofNat 32 w)

/-- The host's question: what the decoder reads from an instruction whose bits are `w`. -/
def decodeTableWord (nbits w : Nat) : Option Instr :=
  match decode (codeOfBits nbits w) with
  | .ok i => some i
  | .error _ => none

end Sys2Proof
end

