-- ==== Sys2Proof/Machine/State.lean ====
section
/-! DEFINITION. The state of the block (10_state.md), as plain data: the parameters, the session, the pins and
the datapath, the search state, the sequencer, the buffers and the host registers, beside the model's own fields
for the event history, the oracle's answers and the inputs; why a step can stop; and hardware reset (R48, R300). -/

namespace Sys2Proof.Machine

/-- Why the machine stops with a fault. -/
inductive Fault where
  /-- Raised by the sequencer when `SEQ` is RUN at a line whose procedure result is missing, or with no line left:
  a state that no run from reset reaches. Safe: the block has no such state (R34). -/
  | brokenSequence
  deriving DecidableEq, Repr

/-- Why the model gives a step no meaning. -/
inductive Refusal where
  /-- Raised by `exec`'s arm of an instruction not modelled yet; no arm raises it. Safe. -/
  | notModelled (mnemonic : String)
  /-- Raised by a HOST access that is misaligned or not 32 bits wide (R61, U14: "refuse"). Safe: no claim covers it. -/
  | badAccess
  /-- Raised by W_ALARM_SEARCH, which no rule of the block ever sends (R201, U21: "refuse"). Safe. -/
  | alarmSearchNeverSent
  deriving DecidableEq, Repr

/-- The bus side of the block: the pins (R22, R23, R25 to R27), the datapath of the CRC-8 generator and the byte
framer (R31, R33), and the model's own record of the bus: the event history, newest first (R63), and the answers
the oracle has chosen for the next samples, the next one first (R66). -/
structure Phy where
  spuAvail : Bool
  spuPol : Bool
  spuOe : Bool
  spuAct : Bool
  dqDrv : Bool
  crc : Byte
  shift : Byte
  bitcnt : BitVec 4
  trace : List Event
  draws : List Bool
  deriving DecidableEq, Repr

/-- The search state (R28 to R30). `SR[n]`, position n = 1 to 64, is bit n-1 of `sr`. -/
structure Search where
  ld : BitVec 7
  ldf : Bool
  sr : BitVec 64
  deriving DecidableEq, Repr

/-- The result of the procedure the sequencer ran last, until the next line takes it. -/
inductive Val where
  | none
  | bit (b : Bool)
  | byte (v : Byte)
  | frame (d : List Byte) (ok : Bool)
  | found (r : Option Rom)
  | power (r : Option Bool)
  | status (st : Status)
  deriving DecidableEq, Repr

/-- The lines of the pseudocode of files 40 to 44: the `point` of `SEQ` (R34). A line writes one register, makes one
bus event, tests, or calls. A line that calls a procedure carries its arguments; a line in a loop carries the loop's
local values; `...Got`, `...Reset`, `...Selected` and the like take the result of the procedure called before them (log
entry 18). -/
inductive Point where
  -- the primitives (R13)
  | act (a : Act)
  | sample
  -- ResetPresence (R130): k samples left, t the waits since the release
  | resetPresence
  | presence (k t : Nat)
  | presenceGot (k t : Nat)
  | presencePad (t : Nat) (present : Bool)
  -- slots and bytes (R131, R133, R135, R136): k bits left; `command` is the WriteByte of a wire command byte (R98)
  | writeBit (b : Bool)
  | readBit
  | command (c : WireCmd)
  | writeByte (v : Byte)
  | writeLoop (k : Nat)
  | writeShift (k : Nat)
  | readByte
  | readLoop (k : Nat)
  | readShift (k : Nat)
  -- ReadFramed (R153): m data bytes left, acc the bytes received
  | readFramed (m : Nat)
  | framedLoop (m : Nat) (acc : List Byte)
  | framedData (m : Nat) (acc : List Byte)
  | framedCheck (acc : List Byte)
  -- FindNext (R172): k positions left after n = 64 - k; lz is last_zero
  | findNext
  | clearSearch
  | findNextReset
  | position (k lz : Nat)
  | positionA (k lz : Nat)
  | positionC (k lz : Nat) (a : Bool)
  | direction (k lz : Nat) (a c : Bool)
  | setSr (n : Nat) (dir : Bool)
  | setLd (lz : Nat)
  | setLdf
  -- ROM addressing and the shared bodies (R200, R211, R230)
  | selectTarget (A : Rom)
  | selectReset (A : Rom)
  | selectRom (A : Rom)
  | selectDone
  | powerQuery (A : Rom)
  | powerSelected
  | powerBit
  | readSp
  | readSpSelected
  | readSpFrame
  | readSpCheck (ok : Bool)
  -- the common prologue, the commands' own lines (R121, files 41 to 44) and finish (R122)
  | prologue
  | prologueSession (cmd : HostOp)
  | body (cmd : HostOp)
  | initAvail
  | initPol
  | initOe
  | initSession
  | initPwr
  | destroySession
  | setResult (w : Word)
  | resultBit
  | readRomReset
  | readRomStore
  | readRomCheck (ok : Bool)
  | searchLoop (count : Nat)
  | searchGot (count : Nat)
  | searchCrc (count : Nat) (rom : Rom)
  | searchRoom (count : Nat) (rom : Rom)
  | searchStore (count : Nat) (rom : Rom)
  | searchEnd (count : Nat)
  | powerResult
  | finishRet
  | writeSpSelected
  | writeSpConfig
  | durationGot
  | durationRead
  | convertSelected
  | convertPower
  | convertBlocking
  | temperatureGot
  | setTemp
  | temperatureFamily
  | resolutionFamily
  | resolutionGot
  | resolutionRead
  | setResolutionRange
  | setResolutionGot
  | setResolutionModify
  | setResolutionSelected
  | crcStart
  | crcLoop (k : Nat)
  | crcDone
  | finish (st : Status)
  deriving DecidableEq, Repr

/-- `SEQ` (R34): IDLE, or RUN with the opcode latched at the `CMD` write (R78), the lines still to run (the
first one next) and the last procedure's result. -/
inductive Seq where
  | idle
  | run (op : Byte) (points : List Point) (ret : Val)
  deriving DecidableEq, Repr

/-- The whole state. -/
structure State where
  /-- The parameters (R9); no step writes them. -/
  params : Params
  /-- `SESSION` (R20). -/
  session : Bool
  /-- `PWR` (R24). -/
  pwr : Bool
  /-- Pins, datapath, history and oracle (R22, R23, R25 to R27, R31, R33, R63, R66). -/
  phy : Phy
  /-- `LD`, `LDF`, `SR` (R28 to R30). -/
  search : Search
  /-- `SEQ` (R34). -/
  seq : Seq
  /-- `ADDR[0..7]` (R35). -/
  addr : Rom
  /-- `ROMID[0..7]` (R36). -/
  romid : Rom
  /-- `SPBUF[0..8]` (R37). -/
  spbuf : Scratchpad
  /-- `ADDRLIST[0..ADDRLIST_DEPTH-1]` (R38). -/
  addrlist : List Rom
  /-- `CFG` (R42). -/
  cfg : Word
  /-- `STATUS` (R41, R105). -/
  status : Byte
  /-- `RESULT` (R43). -/
  result : Word
  /-- `TEMP` (R44). -/
  temp : Word
  /-- The model's own: the outside inputs still to come, the next one first. -/
  inputs : List Input
  /-- The model's own: the value the HOST's last register read returned. -/
  rdata : Word
  /-- The model's own: how many free values have been drawn. -/
  free : Nat
  deriving DecidableEq, Repr

/-- `BUSY` is 1 while `SEQ` is not IDLE (R41). -/
def State.busy (s : State) : Bool := s.seq != .idle

/-- The state after hardware reset (R48, R300, R301) of the machine with these parameters, with the model's own
fields as given. Reset makes no bus event, so the history stays. -/
def State.afterReset (params : Params) (trace : List Event) (draws : List Bool) (inputs : List Input)
    (rdata : Word) (free : Nat) : State where
  params := params
  session := false
  pwr := params.pwrDefault
  phy := { spuAvail := false, spuPol := false, spuOe := false, spuAct := false, dqDrv := false,
           crc := 0#8, shift := 0#8, bitcnt := 0#4, trace := trace, draws := draws }
  search := { ld := 0#7, ldf := false, sr := 0#64 }
  seq := .idle
  addr := Vector.replicate 8 0#8
  romid := Vector.replicate 8 0#8
  spbuf := Vector.replicate 9 0#8
  addrlist := List.replicate params.addrlistDepth (Vector.replicate 8 0#8)
  cfg := 0#32
  status := 0#8
  result := 0#32
  temp := 0#32
  inputs := inputs
  rdata := rdata
  free := free

/-- The machine right after reset (R48): no event yet, no answer chosen, no input pending (log entry 20). -/
def State.reset : State := State.afterReset Config.params [] [] [] 0#32 0

end Sys2Proof.Machine
end

