-- ==== Sys2Proof/Machine/Operands.lean ====
section
/-! DEFINITION. Operand assembly (R95): the fields of `CFG`, the byte groups of the host registers (R45, R46,
R62), the search positions (R101, R179), the family class (R104) and the zero-extensions into `RESULT`. -/

namespace Sys2Proof.Machine

/-- Byte k of a register: bits 8k+7 to 8k (R62). -/
def byteOf (w : Word) (k : Nat) : Byte := w.extractLsb' (8 * k) 8

/-- A register from its bytes, `b0` in bits 7:0 (R62). -/
def wordOf (b0 b1 b2 b3 : Byte) : Word := b3 ++ b2 ++ b1 ++ b0

/-- `zext_32` of one bit. -/
def zextBit (b : Bool) : Word := if b then 1#32 else 0#32

/-- `zext_32` of a byte. -/
def zextByte (b : Byte) : Word := b.setWidth 32

/-- `INIT_SPU = CFG[0]` (R42, R95). -/
def State.initSpu (s : State) : Bool := s.cfg.getLsbD 0
/-- `INIT_POL = CFG[1]`. -/
def State.initPol (s : State) : Bool := s.cfg.getLsbD 1
/-- `BLOCKING = CFG[2]`. -/
def State.blocking (s : State) : Bool := s.cfg.getLsbD 2
/-- `RES = CFG[15:8]`. -/
def State.res (s : State) : Nat := (s.cfg.extractLsb' 8 8).toNat
/-- `CAP = CFG[23:16]`. -/
def State.cap (s : State) : Nat := (s.cfg.extractLsb' 16 8).toNat
/-- `LEN = CFG[27:24]`. -/
def State.len (s : State) : Nat := (s.cfg.extractLsb' 24 4).toNat

/-- The bits of `CFG` that a write stores: all but the reserved 7:3 and 31:28 (R42, R94). -/
def cfgMask : Word := 0x0FFFFF07#32

/-- `FAMILY_CLASS(b)` (R9, R104): the first entry of the table for that code, else UNKNOWN. -/
def familyClass (p : Params) (b : Byte) : FamilyClass := (p.families.lookup b).getD .unknown

/-- The class of a command's target: `FAMILY_CLASS(ADDR[0])` (R104). -/
def State.family (s : State) : FamilyClass := familyClass s.params s.addr[0]

/-- The sentinel address, all zero (R17, R100). -/
def sentinel : Rom := Vector.replicate 8 0#8

/-- Eight received bytes as an address, the first one byte 0 (R69). -/
def romOfBytes (d : List Byte) : Rom := Vector.ofFn fun i : Fin 8 => d.getD i.val 0#8

/-- Nine received bytes as a scratchpad, the first one byte 0 (R70). -/
def spOfBytes (d : List Byte) : Scratchpad := Vector.ofFn fun i : Fin 9 => d.getD i.val 0#8

/-- `SR[n]`, n = 1 to 64 (R30): bit n-1 of the register. -/
def srBit (sr : BitVec 64) (n : Nat) : Bool := sr.getLsbD (n - 1)

/-- `SR[n] <- dir`. -/
def srSet (sr : BitVec 64) (n : Nat) (dir : Bool) : BitVec 64 :=
  if dir then sr ||| BitVec.twoPow 64 (n - 1) else sr &&& ~~~ BitVec.twoPow 64 (n - 1)

/-- `RomOf(SR)`: `ROM[k][i] = SR[8k + i + 1]` (R101, R179). -/
def romOf (sr : BitVec 64) : Rom := Vector.ofFn fun k : Fin 8 => sr.extractLsb' (8 * k.val) 8

/-- `SPBUF[4][6:5] + 9` (R103, R245). -/
def State.resolution (s : State) : Nat := (s.spbuf[4].extractLsb' 5 2).toNat + 9

/-- The configuration byte with bits 6:5 replaced by `RES - 9` (R246). -/
def withResolution (b : Byte) (res : Nat) : Byte :=
  (b &&& 0x9F#8) ||| (BitVec.ofNat 8 (res - 9) <<< 5)

/-- The register at a byte offset, with `ADDRLIST_DEPTH` entries from 0x100 (R39; log entry 19). -/
def regAt (depth offset : Nat) : Reg :=
  match offset with
  | 0x000 => .cmd
  | 0x004 => .stat
  | 0x008 => .cfg
  | 0x00C => .result
  | 0x010 => .temp
  | 0x014 => .addr0
  | 0x018 => .addr1
  | 0x01C => .romid0
  | 0x020 => .romid1
  | 0x024 => .spbuf0
  | 0x028 => .spbuf1
  | 0x02C => .spbuf2
  | 0x030 => .id
  | o =>
    if o < 0x100 then .reserved
    else if depth ≤ (o - 0x100) / 8 then .reserved
    else if (o - 0x100) % 8 = 0 then .addrlistLo ((o - 0x100) / 8)
    else if (o - 0x100) % 8 = 4 then .addrlistHi ((o - 0x100) / 8)
    else .reserved

/-- The offset of a HOST address, when the block's registers lie at `OW_BASE` (R61). -/
def offsetOf (p : Params) (address : Nat) : Option Nat :=
  if p.owBase ≤ address then some (address - p.owBase) else none

/-- Bits 31:0 of an entry's low or high half (R45). -/
def romLo (r : Rom) : Word := wordOf r[0] r[1] r[2] r[3]
def romHi (r : Rom) : Word := wordOf r[4] r[5] r[6] r[7]

/-- `ADDR0 <- w` and `ADDR1 <- w` (R45, R95). -/
def romSetLo (r : Rom) (w : Word) : Rom :=
  #v[byteOf w 0, byteOf w 1, byteOf w 2, byteOf w 3, r[4], r[5], r[6], r[7]]
def romSetHi (r : Rom) (w : Word) : Rom :=
  #v[r[0], r[1], r[2], r[3], byteOf w 0, byteOf w 1, byteOf w 2, byteOf w 3]

/-- `SPBUF0`, `SPBUF1`, `SPBUF2` as read, and as written (R46, R95). -/
def sp0 (b : Scratchpad) : Word := wordOf b[0] b[1] b[2] b[3]
def sp1 (b : Scratchpad) : Word := wordOf b[4] b[5] b[6] b[7]
def sp2 (b : Scratchpad) : Word := zextByte b[8]
def spSet0 (b : Scratchpad) (w : Word) : Scratchpad :=
  #v[byteOf w 0, byteOf w 1, byteOf w 2, byteOf w 3, b[4], b[5], b[6], b[7], b[8]]
def spSet1 (b : Scratchpad) (w : Word) : Scratchpad :=
  #v[b[0], b[1], b[2], b[3], byteOf w 0, byteOf w 1, byteOf w 2, byteOf w 3, b[8]]
def spSet2 (b : Scratchpad) (w : Word) : Scratchpad :=
  #v[b[0], b[1], b[2], b[3], b[4], b[5], b[6], b[7], byteOf w 0]

end Sys2Proof.Machine
end

