-- ==== Sys2Proof/Machine/Flags.lean ====
section
/-! DEFINITION. The block's only flags: the status codes (R105) and the fields of `STAT` (R41), with the levels
that follow from the pin state (R25, R27, R65). -/

namespace Sys2Proof.Machine

/-- The number of a status code (R105). -/
def statusCode : Status → Byte
  | .ok => 0x00#8
  | .invalidArg => 0x01#8
  | .noDevice => 0x02#8
  | .crcError => 0x03#8
  | .tooMany => 0x04#8
  | .unsupported => 0x05#8

/-- The low byte of `STAT`: BUSY, SESSION, SPU_AVAIL, SPU_POL, SPU_ACT and PWR in bits 0 to 5 (R41). -/
def statLow (busy session spuAvail spuPol spuAct pwr : Bool) : Byte :=
  0#2 ++ BitVec.ofBool pwr ++ BitVec.ofBool spuAct ++ BitVec.ofBool spuPol ++ BitVec.ofBool spuAvail
    ++ BitVec.ofBool session ++ BitVec.ofBool busy

/-- `STAT` with a given value in its PWR bit. -/
def State.statWith (s : State) (pwr : Bool) : Word :=
  0#16 ++ s.status ++ statLow s.busy s.session s.phy.spuAvail s.phy.spuPol s.phy.spuAct pwr

/-- `STAT` (R41). -/
def State.stat (s : State) : Word := s.statWith s.pwr

/-- The level of the `SPU` pin; none when the pin is undriven (R27). -/
def Phy.spuPin (p : Phy) : Option Bool :=
  if p.spuOe then some (if p.spuAct then p.spuPol else !p.spuPol) else none

/-- Whether the strong pull-up is asserted (R65). -/
def Phy.strongHigh (p : Phy) : Bool := p.spuAct && p.spuAvail

/-- The line is open-drain and wired-AND: low when the block drives it low or any device does (R65). -/
def lineLow (driven deviceLow : Bool) : Bool := driven || deviceLow

/-- The line's level, when some device drives it low or none does (R65). A low comes before the strong pull-up (log entry
26). -/
def Phy.lineLevel (p : Phy) (deviceLow : Bool) : LineLevel :=
  if lineLow p.dqDrv deviceLow then .low else if p.strongHigh then .heldHigh else .pulledHigh

end Sys2Proof.Machine
end

