-- ==== Sys2Proof/Machine/Ops.lean ====
section
/-! DEFINITION. The named operations of the block: the bus-action primitives (R13), the bit timing controller and
the byte framer (40_bus_physical.md), the CRC-8 generator and the framed read (41_crc8.md), ROM addressing and the
shared bodies (R200, R211, R230), and `finish`, the block's counterpart of taking an exception (R122, R270). -/

namespace Sys2Proof.Machine

/-- One bus action (R13): its effect on the pins, and its event (R63). `SPU_ON` and `SPU_OFF` have no effect while
`SPU_AVAIL = 0` (R22, R27), and are events all the same (log entry 11). -/
def Phy.act (p : Phy) (a : Act) : Phy :=
  match a with
  | .driveLow => { p with dqDrv := true, trace := .act a :: p.trace }
  | .release => { p with dqDrv := false, trace := .act a :: p.trace }
  | .waitUs _ => { p with trace := .act a :: p.trace }
  | .waitMs _ => { p with trace := .act a :: p.trace }
  | .spuOn => { p with spuAct := p.spuAct || p.spuAvail, trace := .act a :: p.trace }
  | .spuOff => { p with spuAct := p.spuAct && !p.spuAvail, trace := .act a :: p.trace }

/-- Actions in order (R63, R76). -/
def Phy.acts (p : Phy) (as : List Act) : Phy := as.foldl Phy.act p

/-- The oracle's answer to the next sample (R66): the one already chosen, else a draw on the whole history. -/
def Phy.answer (p : Phy) : Bool :=
  match p.draws with
  | b :: _ => b
  | [] => Config.busDraw p.trace

/-- The line after a sample that returned b. -/
def Phy.sampled (p : Phy) (b : Bool) : Phy :=
  { p with draws := p.draws.tail, trace := .sample b :: p.trace }

/-- `SAMPLE()` (R13, R66, R99). -/
def Phy.sample (p : Phy) : Bool × Phy := (p.answer, p.sampled p.answer)

/-- The sampling loop of ResetPresence with k samples left, t the waits since the release, and its pad (R130). -/
def Phy.presence : Nat → Nat → Phy → Bool × Phy
  | 0, t, p => (false, p.act (.waitUs (Config.tRsth - t)))
  | k + 1, t, p =>
    match p.sample with
    | (false, q) => (true, q.act (.waitUs (Config.tRsth - t)))
    | (true, q) => Phy.presence k (t + Config.tPdpoll) (q.act (.waitUs Config.tPdpoll))

/-- `ResetPresence()` (R130). -/
def Phy.resetPresence (p : Phy) : Bool × Phy :=
  Phy.presence Config.nPdpoll Config.tPdwait (p.acts resetOpen)

/-- `WriteBit(b)` (R131). -/
def Phy.writeBit (p : Phy) (b : Bool) : Phy := p.acts (writeSlot b)

/-- `ReadBit()` (R133). -/
def Phy.readBit (p : Phy) : Bool × Phy :=
  match (p.acts readSlotOpen).sample with
  | (b, q) => (b, q.acts readSlotClose)

/-- The loop of `WriteByte` with k bits left. `BITCNT` counts the bits done (R33, R135, log entry 5). -/
def Phy.writeLoop : Nat → Phy → Phy
  | 0, p => { p with bitcnt := 8#4 }
  | k + 1, p =>
    match Phy.writeBit { p with bitcnt := BitVec.ofNat 4 (8 - (k + 1)) } (p.shift.getLsbD 0) with
    | q => Phy.writeLoop k { q with shift := q.shift >>> 1 }

/-- `WriteByte(v)` (R135). -/
def Phy.writeByte (p : Phy) (v : Byte) : Phy := Phy.writeLoop 8 { p with shift := v }

/-- `SHIFT <- (SHIFT >> 1) | (b << 7)` (R136). -/
def Phy.shiftIn (p : Phy) (b : Bool) : Phy :=
  { p with shift := (p.shift >>> 1) ||| (if b then 0x80#8 else 0#8) }

/-- The loop of `ReadByte` with k bits left (R136). -/
def Phy.readLoop : Nat → Phy → Phy
  | 0, p => { p with bitcnt := 8#4 }
  | k + 1, p =>
    match Phy.readBit { p with bitcnt := BitVec.ofNat 4 (8 - (k + 1)) } with
    | (b, q) => Phy.readLoop k (q.shiftIn b)

/-- `ReadByte()` (R136). -/
def Phy.readByte (p : Phy) : Byte × Phy :=
  match Phy.readLoop 8 { p with shift := 0#8 } with
  | q => (q.shift, q)

/-- `WriteBytes(b_0, ...)` (R137). -/
def Phy.writeBytes (p : Phy) (bs : List Byte) : Phy := bs.foldl Phy.writeByte p

/-- `ReadBytes(m)`: the bytes of m calls of `ReadByte()`, the first one first (R137). No procedure calls it: a framed read
also writes `CRC` between its bytes (R153). -/
def Phy.readBytes (p : Phy) : Nat → List Byte × Phy
  | 0 => ([], p)
  | m + 1 =>
    match p.readByte with
    | (b, q) =>
      match q.readBytes m with
      | (bs, r) => (b :: bs, r)

/-- A wire command byte, sent by the framer like any byte (R96, R98). -/
def Phy.sendWire (p : Phy) (c : WireCmd) : Phy := p.writeByte c.byte

/-- A wire command row as CORE performs it: at the line that sends this byte the byte goes out and the line is done. In
every other state the block sends no such byte (R64, R98, R202, R282), and nothing happens (log entry 3). -/
def State.sendCommand (s : State) (c : WireCmd) : State :=
  match s.seq with
  | .run op (.command c' :: rest) _ =>
    if c' = c then { s with phy := s.phy.sendWire c, seq := .run op rest .none } else s
  | .run _ _ _ | .idle => s

/-- `CRC <- TABLE[CRC ^ b]` (R152). -/
def Phy.crcByte (p : Phy) (b : Byte) : Phy := { p with crc := crcTable (p.crc ^^^ b) }

/-- `Crc8(b_0, ...)` (R151). -/
def crc8 (bs : List Byte) : Byte := bs.foldl (fun c b => crcTable (c ^^^ b)) 0x00#8

/-- The data loop of `ReadFramed` with m bytes left (R153). -/
def Phy.readData : Nat → Phy → List Byte × Phy
  | 0, p => ([], p)
  | m + 1, p =>
    match p.readByte with
    | (d, q) =>
      match Phy.readData m (q.crcByte d) with
      | (ds, r) => (d :: ds, r)

/-- `ReadFramed(m)`: the m + 1 bytes received, and whether the check byte is the data's CRC (R153). -/
def Phy.readFramed (p : Phy) (m : Nat) : List Byte × Bool × Phy :=
  match Phy.readData m { p with crc := 0x00#8 } with
  | (ds, q) =>
    match q.readByte with
    | (c, r) => (ds ++ [c], r.crc == c, r)

/-- Whether an address's byte 7 is the CRC of its bytes 0 to 6 (R100). -/
def romValid (r : Rom) : Bool := crc8 (r.toList.take 7) == r[7]

/-- What SelectTarget sends after a reset with presence: Skip ROM for the sentinel, else Match ROM and the
address, family code first (R200). -/
def Phy.selectRom (p : Phy) (A : Rom) : Phy :=
  if A = sentinel then p.sendWire .skipRom else (p.sendWire .matchRom).writeBytes A.toList

/-- `SelectTarget(A)` (R200). -/
def Phy.selectTarget (p : Phy) (A : Rom) : Bool × Phy :=
  match p.resetPresence with
  | (false, q) => (false, q)
  | (true, q) => (true, q.selectRom A)

/-- `finish(S)`: `STATUS <- S`, then `SEQ <- IDLE` (R122). Every command ends here, with one of the five error
codes when it fails: the block has no other form of exception (R270; log entry 17). -/
def State.finish (s : State) (st : Status) : State :=
  { s with status := statusCode st, seq := .idle }

/-- The state with another bus side. -/
def State.withPhy (s : State) (p : Phy) : State := { s with phy := p }

/-- `PowerQuery(A)`: the bit read, if a device answered the reset; `PWR` changes only then (R211). -/
def State.powerQuery (s : State) (A : Rom) : Option Bool × State :=
  match s.phy.selectTarget A with
  | (false, q) => (none, s.withPhy q)
  | (true, q) =>
    match (q.sendWire .readPowerSupply).readBit with
    | (b, r) => (some b, { s.withPhy r with pwr := b })

/-- `ReadSp()`: `SPBUF` changes only after presence (R230). -/
def State.readSp (s : State) : Status × State :=
  match s.phy.selectTarget s.addr with
  | (false, q) => (.noDevice, s.withPhy q)
  | (true, q) =>
    match (q.sendWire .readScratchpad).readFramed 8 with
    | (d, ok, r) => (if ok then .ok else .crcError, { s.withPhy r with spbuf := spOfBytes d })

/-- The prologue's second check: a command that needs a session ends with INVALID_ARG when there is none (R121,
R273). Its first check is the decoder's (R93). -/
def State.inSession (s : State) (body : State → State) : State :=
  if s.session then body s else s.finish .invalidArg

/-- A reserved opcode: nothing but `STATUS` changes (R93). -/
def State.reservedOp (s : State) : State := s.finish .invalidArg

/-- `RESET` asserted and released (R300 to R302): a running command is abandoned and the line released. The
parameters, `TABLE` and the model's own fields stay (log entry 16). -/
def State.hardReset (s : State) : State :=
  State.afterReset s.params s.phy.trace s.phy.draws s.inputs s.rdata s.free

/-- The least time an action takes, in microseconds (R320: only waits take time). -/
def Act.micros : Act → Nat
  | .waitUs d => d
  | .waitMs d => 1000 * d
  | .driveLow | .release | .spuOn | .spuOff => 0

/-- The least time an event takes. -/
def Event.micros : Event → Nat
  | .act a => Act.micros a
  | .sample _ => 0

/-- The least time a history takes, in microseconds (R139, R320). -/
def busTime (trace : List Event) : Nat := (trace.map Event.micros).sum

/-- The least number of timebase cycles of a wait (R286), rounded up. -/
def waitCycles (p : Params) : Act → Nat
  | .waitUs d => (d * p.fClk + (10 ^ 6 - 1)) / 10 ^ 6
  | .waitMs d => (d * p.fClk + (10 ^ 3 - 1)) / 10 ^ 3
  | .driveLow | .release | .spuOn | .spuOff => 0

end Sys2Proof.Machine
end

