-- ==== Sys2Proof/Machine/SearchPass.lean ====
section
/-! DEFINITION. The ROM-search state machine: one pass, `FindNext` (42_rom_search.md section 1). -/

namespace Sys2Proof.Machine

/-- `ClearSearch()` (R170): `SR` stays. -/
def Search.clear (f : Search) : Search := { f with ld := 0#7, ldf := false }

/-- The bit sent at position n, where the pair read is (a, c) and not (1, 1) (R171, R175). -/
def Search.direction (f : Search) (n : Nat) (a c : Bool) : Bool :=
  if a != c then a
  else if n = f.ld.toNat then true
  else if f.ld.toNat < n then false
  else srBit f.sr n

/-- `last_zero` after position n (R175, R176): n when the pair is a discrepancy and the 0 branch was taken. -/
def recordZero (n lz : Nat) (a c dir : Bool) : Nat :=
  if a != c then lz else if dir then lz else n

/-- `SR[n] <- dir` (R172). -/
def Search.setBit (f : Search) (n : Nat) (dir : Bool) : Search := { f with sr := srSet f.sr n dir }

/-- Step 5's first line (R178): `LD <- last_zero`. -/
def Search.setLd (f : Search) (lz : Nat) : Search := { f with ld := BitVec.ofNat 7 lz }

/-- Step 5's second line (R178): `if LD = 0: LDF <- 1`. `LDF` is 0 before it: a pass that finds it 1 ends at step 1
(R173; log entry 23). -/
def Search.setLdf (f : Search) : Search := { f with ldf := f.ld == 0#7 }

/-- Step 5 (R178). -/
def Search.close (f : Search) (lz : Nat) : Search := (f.setLd lz).setLdf

/-- What a pass leaves: the address found, if one was, the bus side and the search state. -/
structure Pass where
  found : Option Rom
  phy : Phy
  search : Search
  deriving DecidableEq, Repr

/-- Steps 4 to 6 with k positions left, so at position n = 65 - k (R172, R174, R176, R178). -/
def positions : Nat → Nat → Phy → Search → Pass
  | 0, lz, p, f =>
    { found := some (romOf f.sr), phy := p, search := f.close lz }
  | k + 1, lz, p, f =>
    match p.readBit with
    | (a, p1) =>
      match p1.readBit with
      | (c, p2) =>
        if a && c then { found := none, phy := p2, search := f.clear }
        else
          match f.direction (64 - k) a c with
          | dir => positions k (recordZero (64 - k) lz a c dir) (p2.writeBit dir) (f.setBit (64 - k) dir)

/-- `FindNext()` (R172, R173). -/
def findNext (p : Phy) (f : Search) : Pass :=
  if f.ldf then { found := none, phy := p, search := f.clear }
  else
    match p.resetPresence with
    | (false, q) => { found := none, phy := q, search := f.clear }
    | (true, q) => positions 64 0 (q.sendWire .searchRom) f

end Sys2Proof.Machine
end

