-- ==== Sys2Proof/Machine/RomCommands.lean ====
section
/-! DEFINITION. The session and ROM host commands (43_rom_commands.md) and SEARCH_ROM (42_rom_search.md section 2). -/

namespace Sys2Proof.Machine

/-- INIT's own writes up to its probe (R203). -/
def State.initSetup (s : State) : State :=
  { s with
    phy := (Phy.act { (Phy.act { s.phy with spuAvail := s.initSpu, spuPol := s.initPol } .release)
                      with spuOe := s.initSpu } .spuOff)
    session := true
    pwr := s.params.pwrDefault }

/-- INIT (R203): it needs no session, and fails only when one is active. -/
def execInit (s : State) : Host.Outcome State Fault Refusal :=
  .next <|
    if s.session then s.finish .invalidArg
    else (s.initSetup.powerQuery sentinel).2.finish .ok

/-- DESTROY (R205): one RELEASE, and no `SPU` state changes. -/
def execDestroy (s : State) : Host.Outcome State Fault Refusal :=
  .next <| s.inSession fun s => { s.withPhy (s.phy.act .release) with session := false }.finish .ok

/-- RESET_BUS (R206, R207). -/
def execResetBus (s : State) : Host.Outcome State Fault Refusal :=
  .next <| s.inSession fun s =>
    match s.phy.resetPresence with
    | (present, q) => { s.withPhy q with result := zextBit present }.finish .ok

/-- READ_ROM (R208, R209). -/
def execReadRom (s : State) : Host.Outcome State Fault Refusal :=
  .next <| s.inSession fun s =>
    match s.phy.resetPresence with
    | (false, q) => (s.withPhy q).finish .noDevice
    | (true, q) =>
      match (q.sendWire .readRom).readFramed 7 with
      | (d, ok, r) =>
        { s.withPhy r with romid := romOfBytes d }.finish (if ok then .ok else .crcError)

/-- The state with a pass's bus side and search state. -/
def State.withPass (s : State) (r : Pass) : State := { s with phy := r.phy, search := r.search }

/-- The pass loop of SEARCH_ROM with `count` addresses stored (R180). The rules give it no bound (R183), so a run
that has made as many passes as the first argument says is left RUNNING at the loop's head, for the sequencer to go
on. -/
def searchLoop : Nat → Nat → State → State
  | 0, count, s => { s with seq := .run (HostOp.opcode .searchRom) [.searchLoop count] .none }
  | fuel + 1, count, s =>
    match findNext s.phy s.search with
    | r =>
      match r.found with
      | none =>
        { s.withPass r with result := BitVec.ofNat 32 count }.finish (if count = 0 then .noDevice else .ok)
      | some rom =>
        if romValid rom then
          if count = s.cap then { s.withPass r with result := BitVec.ofNat 32 count }.finish .tooMany
          else searchLoop fuel (count + 1) { s.withPass r with addrlist := s.addrlist.set count rom }
        else searchLoop fuel count (s.withPass r)

/-- More passes than any search of a static bus makes: one for each of 2^64 addresses, and the call after the last
(R181, R183; log entry 6). -/
def passBound : Nat := 2 ^ 64 + 1

/-- SEARCH_ROM (R180). -/
def execSearchRom (s : State) : Host.Outcome State Fault Refusal :=
  .next <| s.inSession fun s =>
    if s.params.addrlistDepth < s.cap then s.finish .invalidArg
    else searchLoop passBound 0 { s with search := s.search.clear }

/-- READ_POWER_SUPPLY (R212). -/
def execReadPowerSupply (s : State) : Host.Outcome State Fault Refusal :=
  .next <| s.inSession fun s =>
    match s.powerQuery s.addr with
    | (none, t) => t.finish .noDevice
    | (some p, t) => { t with result := zextBit p }.finish .ok

end Sys2Proof.Machine
end

