-- ==== Sys2Proof/Machine/Temperature.lean ====
section
/-! DEFINITION. Temperatures: the raw field (R238), the two formulas as exact fractions (R239, R243) and the
rounding to binary32 (R106, R242). -/

namespace Sys2Proof.Machine

/-- An exact rational `num / den`. -/
structure Frac where
  num : Int
  den : Nat
  deriving DecidableEq, Repr

/-- `raw = sext_16({SPBUF[1], SPBUF[0]})` (R238). -/
def rawTemp (sp : Scratchpad) : Int := (sp[1] ++ sp[0] : BitVec 16).toInt

/-- `ModernTemp(raw) = raw / 16` (R239). -/
def modernTemp (raw : Int) : Frac := { num := raw, den := 16 }

/-- Twice the legacy half `h` (R243): `raw`, or twice `raw div 2`, or twice `raw floordiv 2`. -/
def twiceHalf (m : HalfMode) (raw : Int) : Int :=
  match m with
  | .exact => raw
  | .trunc => 2 * raw.tdiv 2
  | .floor => 2 * raw.fdiv 2

/-- `LegacyTemp(raw, cr, cpd) = h - 1/4 + (cpd - cr) / cpd` over the denominator `4 cpd`; none when `cpd = 0`,
where the rule gives no value (R243; log entries 10, 13). -/
def legacyTemp (m : HalfMode) (raw : Int) (cr cpd : Byte) : Option Frac :=
  if cpd = 0#8 then none
  else some
    { num := 2 * twiceHalf m raw * cpd.toNat - cpd.toNat + 4 * ((cpd.toNat : Int) - cr.toNat)
      den := 4 * cpd.toNat }

/-- The exponent e with `2^e ≤ p / q < 2^(e+1)`, for p and q not 0. -/
def floorLog2 (p q : Nat) : Int :=
  let e : Int := (p.log2 : Int) - q.log2
  if q * 2 ^ e.toNat ≤ p * 2 ^ (-e).toNat then e else e - 1

/-- The integer nearest to `p / q`, ties to even. -/
def roundNearestEven (p q : Nat) : Nat :=
  let n := p / q
  let r := p % q
  if 2 * r < q then n else if q < 2 * r then n + 1 else if n % 2 = 0 then n else n + 1

/-- The binary32 bits of the positive value nearest to `p / q`, ties to even: significand and exponent are added,
so that a significand that rounds up to 2^24 carries into the exponent (R106). -/
def binary32Magnitude (p q : Nat) : Nat :=
  let e : Int := max (floorLog2 p q) (-126)
  let k : Int := 23 - e
  let n := roundNearestEven (p * 2 ^ k.toNat) (q * 2 ^ (-k).toNat)
  min ((e + 126).toNat * 2 ^ 23 + n) 0x7F800000

/-- `ToBinary32(v)`: nearest, ties to even, and a v of 0 gives +0.0 (R242; log entry 14). -/
def toBinary32 (v : Frac) : Word :=
  if v.num = 0 then 0#32
  else BitVec.ofNat 32 ((if v.num < 0 then 2 ^ 31 else 0) + binary32Magnitude v.num.natAbs v.den)

/-- `TEMP <- ToBinary32(v)` for the target's class (R240): the legacy formula, else `raw / 16`. Without a value
(`COUNT_PER_C = 0`) `TEMP` takes a free one. -/
def State.writeTemp (s : State) : State :=
  if s.family = .legacy then
    match legacyTemp s.params.halfMode (rawTemp s.spbuf) s.spbuf[6] s.spbuf[7] with
    | some v => { s with temp := toBinary32 v }
    | none => { s with temp := Config.anyTemp s.free, free := s.free + 1 }
  else { s with temp := toBinary32 (modernTemp (rawTemp s.spbuf)) }

end Sys2Proof.Machine
end

