-- ==== Sys2Proof/Machine/FunctionCommands.lean ====
section
/-! DEFINITION. The function commands (44_function_commands.md) and CRC8 (R156). -/

namespace Sys2Proof.Machine

/-- READ_SCRATCHPAD (R231). -/
def execReadScratchpad (s : State) : Host.Outcome State Fault Refusal :=
  .next <| s.inSession fun s =>
    match s.readSp with
    | (st, t) => t.finish st

/-- The bytes WRITE_SCRATCHPAD sends after its command byte: TH, TL and, for MODERN only, the configuration (R232). -/
def State.spOperands (s : State) : List Byte :=
  [s.spbuf[2], s.spbuf[3]] ++ (if s.family = .modern then [s.spbuf[4]] else [])

/-- WRITE_SCRATCHPAD (R232). -/
def execWriteScratchpad (s : State) : Host.Outcome State Fault Refusal :=
  .next <| s.inSession fun s =>
    match s.phy.selectTarget s.addr with
    | (false, q) => (s.withPhy q).finish .noDevice
    | (true, q) => (s.withPhy ((q.sendWire .writeScratchpad).writeBytes s.spOperands)).finish .ok

/-- CONVERT_DURATION (R234): always OK past the prologue. -/
def execConvertDuration (s : State) : Host.Outcome State Fault Refusal :=
  .next <| s.inSession fun s =>
    if s.family = .modern then
      match s.readSp with
      | (st, t) =>
        { t with result := BitVec.ofNat 32 (if st = Status.ok then convEst t.resolution else convEst 12) }.finish .ok
    else { s with result := BitVec.ofNat 32 (convEst 12) }.finish .ok

/-- What CONVERT_TEMPERATURE does after its command byte: the strong pull-up when `PWR = 0`, and the wait and its
end when blocking (R236). -/
def State.convertActs (s : State) : List Act :=
  (if s.pwr then [] else [.spuOn]) ++ (if s.blocking then [.waitMs Config.tConv, .spuOff] else [])

/-- CONVERT_TEMPERATURE (R235, R236, R237). -/
def execConvertTemperature (s : State) : Host.Outcome State Fault Refusal :=
  .next <| s.inSession fun s =>
    match s.phy.selectTarget s.addr with
    | (false, q) => (s.withPhy q).finish .noDevice
    | (true, q) => (s.withPhy ((q.sendWire .convertT).acts s.convertActs)).finish .ok

/-- GET_TEMPERATURE (R240): a read error comes before UNSUPPORTED. -/
def execGetTemperature (s : State) : Host.Outcome State Fault Refusal :=
  .next <| s.inSession fun s =>
    match s.readSp with
    | (st, t) =>
      if st = .ok then t.writeTemp.finish (if s.family = .unknown then .unsupported else .ok)
      else t.finish st

/-- GET_RESOLUTION (R244): only a MODERN target is read. -/
def execGetResolution (s : State) : Host.Outcome State Fault Refusal :=
  .next <| s.inSession fun s =>
    match s.family with
    | .unknown => s.finish .unsupported
    | .legacy => { s with result := 9#32 }.finish .ok
    | .modern =>
      match s.readSp with
      | (st, t) =>
        if st = .ok then { t with result := BitVec.ofNat 32 t.resolution }.finish .ok else t.finish st

/-- SET_RESOLUTION (R246): family, range, read, modify bits 6:5, write. -/
def execSetResolution (s : State) : Host.Outcome State Fault Refusal :=
  .next <| s.inSession fun s =>
    if s.family ≠ .modern then s.finish .unsupported
    else if s.res < 9 ∨ 12 < s.res then s.finish .invalidArg
    else
      match s.readSp with
      | (st, t) =>
        if st ≠ .ok then t.finish st
        else
          match { t with spbuf := t.spbuf.set 4 (withResolution t.spbuf[4] s.res) } with
          | u =>
            match u.phy.selectTarget u.addr with
            | (false, q) => (u.withPhy q).finish .noDevice
            | (true, q) =>
              (u.withPhy ((q.sendWire .writeScratchpad).writeBytes [u.spbuf[2], u.spbuf[3], u.spbuf[4]])).finish .ok

/-- CRC8 (R156): no session and no bus. -/
def execCrc8 (s : State) : Host.Outcome State Fault Refusal :=
  .next <|
    if 9 < s.len then s.finish .invalidArg
    else
      match crc8 (s.spbuf.toList.take s.len) with
      | c => { s.withPhy { s.phy with crc := c } with result := zextByte c }.finish .ok

end Sys2Proof.Machine
end

