-- ==== Sys2Proof/Machine/WireCommands.lean ====
section
/-! DEFINITION. The wire command rows (R98): each is its byte, sent bit 0 first in 8 write slots
(R135), at the line of the running command that sends it (R202; log entry 3). -/

namespace Sys2Proof.Machine

/-- W_SEARCH_ROM, 0xF0. -/
def execWSearchRom (s : State) : Host.Outcome State Fault Refusal := .next (s.sendCommand .searchRom)

/-- W_READ_ROM, 0x33. -/
def execWReadRom (s : State) : Host.Outcome State Fault Refusal := .next (s.sendCommand .readRom)

/-- W_MATCH_ROM, 0x55. -/
def execWMatchRom (s : State) : Host.Outcome State Fault Refusal := .next (s.sendCommand .matchRom)

/-- W_SKIP_ROM, 0xCC. -/
def execWSkipRom (s : State) : Host.Outcome State Fault Refusal := .next (s.sendCommand .skipRom)

/-- W_ALARM_SEARCH, 0xEC: the block never sends it, and the spec asks a model to refuse it (R201, U21). -/
def execWAlarmSearch (_ : State) : Host.Outcome State Fault Refusal := .refused .alarmSearchNeverSent

/-- W_CONVERT_T, 0x44. -/
def execWConvertT (s : State) : Host.Outcome State Fault Refusal := .next (s.sendCommand .convertT)

/-- W_WRITE_SCRATCHPAD, 0x4E. -/
def execWWriteScratchpad (s : State) : Host.Outcome State Fault Refusal := .next (s.sendCommand .writeScratchpad)

/-- W_READ_SCRATCHPAD, 0xBE. -/
def execWReadScratchpad (s : State) : Host.Outcome State Fault Refusal := .next (s.sendCommand .readScratchpad)

/-- W_READ_POWER_SUPPLY, 0xB4. -/
def execWReadPowerSupply (s : State) : Host.Outcome State Fault Refusal := .next (s.sendCommand .readPowerSupply)

end Sys2Proof.Machine
end

