-- ==== Sys2Proof/Machine/Dispatch.lean ====
section
/-! DEFINITION. `exec`: one arm per row of the opcode table. -/

namespace Sys2Proof.Machine

def exec (i : Instr) (s : State) : Host.Outcome State Fault Refusal :=
  match i with
  | .init _ => Sys2Proof.Machine.execInit s
  | .destroy _ => Sys2Proof.Machine.execDestroy s
  | .resetBus _ => Sys2Proof.Machine.execResetBus s
  | .readRom _ => Sys2Proof.Machine.execReadRom s
  | .searchRom _ => Sys2Proof.Machine.execSearchRom s
  | .readPowerSupply _ => Sys2Proof.Machine.execReadPowerSupply s
  | .readScratchpad _ => Sys2Proof.Machine.execReadScratchpad s
  | .writeScratchpad _ => Sys2Proof.Machine.execWriteScratchpad s
  | .convertDuration _ => Sys2Proof.Machine.execConvertDuration s
  | .convertTemperature _ => Sys2Proof.Machine.execConvertTemperature s
  | .getTemperature _ => Sys2Proof.Machine.execGetTemperature s
  | .getResolution _ => Sys2Proof.Machine.execGetResolution s
  | .setResolution _ => Sys2Proof.Machine.execSetResolution s
  | .crc8 _ => Sys2Proof.Machine.execCrc8 s
  | .wSearchRom => Sys2Proof.Machine.execWSearchRom s
  | .wReadRom => Sys2Proof.Machine.execWReadRom s
  | .wMatchRom => Sys2Proof.Machine.execWMatchRom s
  | .wSkipRom => Sys2Proof.Machine.execWSkipRom s
  | .wAlarmSearch => Sys2Proof.Machine.execWAlarmSearch s
  | .wConvertT => Sys2Proof.Machine.execWConvertT s
  | .wWriteScratchpad => Sys2Proof.Machine.execWWriteScratchpad s
  | .wReadScratchpad => Sys2Proof.Machine.execWReadScratchpad s
  | .wReadPowerSupply => Sys2Proof.Machine.execWReadPowerSupply s

end Sys2Proof.Machine
end

