-- ==== Sys2Proof/Machine/Sequencer.lean ====
section
/-! DEFINITION. The sequencer (R34): `SEQ` moves through a command's pseudocode line by line. A step tests, calls, writes
one register of the block or makes one bus event (R63, R64; log entry 17). The lines are those of `Point`; what each
procedure and command does as a whole is the operation of the same name in Ops, SearchPass, RomCommands and
FunctionCommands. -/

namespace Sys2Proof.Machine

/-- Go on: the lines `new` come before those still to run, and `ret` is the result the next line takes. -/
def State.goOn (s : State) (op : Byte) (new rest : List Point) (ret : Val) : Host.Outcome State Fault Refusal :=
  .next { s with seq := .run op (new ++ rest) ret }

/-- `finish(S)` as a line. -/
def State.done (s : State) (st : Status) : Host.Outcome State Fault Refusal := .next (s.finish st)

/-- The line of a slot's or a reset's actions. -/
def actPoints (as : List Act) : List Point := as.map .act

/-- Start a command (R120): `SEQ <- RUN(OP, start)` in the step of the `CMD` write. -/
def State.start (s : State) (op : Byte) : State := { s with seq := .run op [.prologue] .none }

/-- A command's own first line (files 41 to 44), after the prologue. -/
def bodyLine (cmd : HostOp) (op : Byte) (rest : List Point) (s : State) : Host.Outcome State Fault Refusal :=
  match cmd with
  | .init =>
    if s.session then s.done .invalidArg
    else
      s.goOn op
        [.initAvail, .initPol, .act .release, .initOe, .act .spuOff, .initSession, .initPwr, .powerQuery sentinel,
          .finish .ok] rest .none
  | .destroy => s.goOn op [.act .release, .destroySession, .finish .ok] rest .none
  | .resetBus => s.goOn op [.resetPresence, .resultBit, .finish .ok] rest .none
  | .readRom => s.goOn op [.resetPresence, .readRomReset] rest .none
  | .searchRom =>
    if s.params.addrlistDepth < s.cap then s.done .invalidArg
    else s.goOn op [.clearSearch, .searchLoop 0] rest .none
  | .readPowerSupply => s.goOn op [.powerQuery s.addr, .powerResult] rest .none
  | .readScratchpad => s.goOn op [.readSp, .finishRet] rest .none
  | .writeScratchpad => s.goOn op [.selectTarget s.addr, .writeSpSelected] rest .none
  | .convertDuration =>
    s.goOn op
      (if s.family = .modern then [.readSp, .durationGot]
       else [.setResult (BitVec.ofNat 32 (convEst 12)), .finish .ok]) rest .none
  | .convertTemperature => s.goOn op [.selectTarget s.addr, .convertSelected] rest .none
  | .getTemperature => s.goOn op [.readSp, .temperatureGot] rest .none
  | .getResolution =>
    if s.family = .unknown then s.done .unsupported else s.goOn op [.resolutionFamily] rest .none
  | .setResolution =>
    if s.family ≠ .modern then s.done .unsupported else s.goOn op [.setResolutionRange] rest .none
  | .crc8 => if 9 < s.len then s.done .invalidArg else s.goOn op [.crcStart] rest .none

/-- One line. `ret` is the result of the procedure that ran before it; a line that takes a result of another kind
than it finds is the fault `brokenSequence`. -/
def Point.run (point : Point) (op : Byte) (rest : List Point) (ret : Val) (s : State) :
    Host.Outcome State Fault Refusal :=
  match point with
  | .act a => (s.withPhy (s.phy.act a)).goOn op [] rest ret
  | .sample => (s.withPhy s.phy.sample.2).goOn op [] rest (.bit s.phy.sample.1)
  | .resetPresence =>
    s.goOn op (actPoints resetOpen ++ [.presence Config.nPdpoll Config.tPdwait]) rest .none
  | .presence 0 t => s.goOn op [.presencePad t false] rest .none
  | .presence (k + 1) t => s.goOn op [.sample, .presenceGot k t] rest .none
  | .presenceGot k t =>
    match ret with
    | .bit false => s.goOn op [.presencePad t true] rest .none
    | .bit true => s.goOn op [.act (.waitUs Config.tPdpoll), .presence k (t + Config.tPdpoll)] rest .none
    | _ => .fault .brokenSequence
  | .presencePad t present =>
    (s.withPhy (s.phy.act (.waitUs (Config.tRsth - t)))).goOn op [] rest (.bit present)
  | .writeBit b => s.goOn op (actPoints (writeSlot b)) rest .none
  | .readBit => s.goOn op (actPoints readSlotOpen ++ [.sample] ++ actPoints readSlotClose) rest .none
  | .command c => if c = .alarmSearch then .refused .alarmSearchNeverSent else s.goOn op [.writeByte c.byte] rest .none
  | .writeByte v => (s.withPhy { s.phy with shift := v }).goOn op [.writeLoop 8] rest .none
  | .writeLoop 0 => (s.withPhy { s.phy with bitcnt := 8#4 }).goOn op [] rest .none
  | .writeLoop (k + 1) =>
    (s.withPhy { s.phy with bitcnt := BitVec.ofNat 4 (8 - (k + 1)) }).goOn op
      [.writeBit (s.phy.shift.getLsbD 0), .writeShift k] rest .none
  | .writeShift k =>
    (s.withPhy { s.phy with shift := s.phy.shift >>> 1 }).goOn op [.writeLoop k] rest .none
  | .readByte => (s.withPhy { s.phy with shift := 0#8 }).goOn op [.readLoop 8] rest .none
  | .readLoop 0 => (s.withPhy { s.phy with bitcnt := 8#4 }).goOn op [] rest (.byte s.phy.shift)
  | .readLoop (k + 1) =>
    (s.withPhy { s.phy with bitcnt := BitVec.ofNat 4 (8 - (k + 1)) }).goOn op [.readBit, .readShift k] rest .none
  | .readShift k =>
    match ret with
    | .bit b => (s.withPhy (s.phy.shiftIn b)).goOn op [.readLoop k] rest .none
    | _ => .fault .brokenSequence
  | .readFramed m => (s.withPhy { s.phy with crc := 0x00#8 }).goOn op [.framedLoop m []] rest .none
  | .framedLoop 0 acc => s.goOn op [.readByte, .framedCheck acc] rest .none
  | .framedLoop (m + 1) acc => s.goOn op [.readByte, .framedData m acc] rest .none
  | .framedData m acc =>
    match ret with
    | .byte d => (s.withPhy (s.phy.crcByte d)).goOn op [.framedLoop m (acc ++ [d])] rest .none
    | _ => .fault .brokenSequence
  | .framedCheck acc =>
    match ret with
    | .byte c => s.goOn op [] rest (.frame (acc ++ [c]) (s.phy.crc == c))
    | _ => .fault .brokenSequence
  | .findNext => s.goOn op (if s.search.ldf then [.clearSearch] else [.resetPresence, .findNextReset]) rest .none
  | .clearSearch => { s with search := s.search.clear }.goOn op [] rest (.found none)
  | .findNextReset =>
    match ret with
    | .bit false => s.goOn op [.clearSearch] rest .none
    | .bit true => s.goOn op [.command .searchRom, .position 64 0] rest .none
    | _ => .fault .brokenSequence
  | .position 0 lz => s.goOn op [.setLd lz] rest .none
  | .position (k + 1) lz => s.goOn op [.readBit, .positionA k lz] rest .none
  | .positionA k lz =>
    match ret with
    | .bit a => s.goOn op [.readBit, .positionC k lz a] rest .none
    | _ => .fault .brokenSequence
  | .positionC k lz a =>
    match ret with
    | .bit c => s.goOn op (if a && c then [.clearSearch] else [.direction k lz a c]) rest .none
    | _ => .fault .brokenSequence
  | .direction k lz a c =>
    match s.search.direction (64 - k) a c with
    | dir => s.goOn op [.setSr (64 - k) dir, .writeBit dir, .position k (recordZero (64 - k) lz a c dir)] rest .none
  | .setSr n dir => { s with search := s.search.setBit n dir }.goOn op [] rest .none
  | .setLd lz => { s with search := s.search.setLd lz }.goOn op [.setLdf] rest .none
  | .setLdf => { s with search := s.search.setLdf }.goOn op [] rest (.found (some (romOf s.search.sr)))
  | .selectTarget A => s.goOn op [.resetPresence, .selectReset A] rest .none
  | .selectReset A =>
    match ret with
    | .bit false => s.goOn op [] rest (.bit false)
    | .bit true => s.goOn op [.selectRom A] rest .none
    | _ => .fault .brokenSequence
  | .selectRom A =>
    s.goOn op
      (if A = sentinel then [.command .skipRom, .selectDone]
       else .command .matchRom :: (A.toList.map .writeByte ++ [.selectDone])) rest .none
  | .selectDone => s.goOn op [] rest (.bit true)
  | .powerQuery A => s.goOn op [.selectTarget A, .powerSelected] rest .none
  | .powerSelected =>
    match ret with
    | .bit false => s.goOn op [] rest (.power none)
    | .bit true => s.goOn op [.command .readPowerSupply, .readBit, .powerBit] rest .none
    | _ => .fault .brokenSequence
  | .powerBit =>
    match ret with
    | .bit b => { s with pwr := b }.goOn op [] rest (.power (some b))
    | _ => .fault .brokenSequence
  | .readSp => s.goOn op [.selectTarget s.addr, .readSpSelected] rest .none
  | .readSpSelected =>
    match ret with
    | .bit false => s.goOn op [] rest (.status .noDevice)
    | .bit true => s.goOn op [.command .readScratchpad, .readFramed 8, .readSpFrame] rest .none
    | _ => .fault .brokenSequence
  | .readSpFrame =>
    match ret with
    | .frame d ok => { s with spbuf := spOfBytes d }.goOn op [.readSpCheck ok] rest .none
    | _ => .fault .brokenSequence
  | .readSpCheck ok => s.goOn op [] rest (.status (if ok then .ok else .crcError))
  | .prologue =>
    match decodeOp op with
    | none => s.done .invalidArg
    | some cmd => s.goOn op [.prologueSession cmd] rest .none
  | .prologueSession cmd =>
    if cmd ≠ .init ∧ cmd ≠ .crc8 ∧ s.session = false then s.done .invalidArg else s.goOn op [.body cmd] rest .none
  | .body cmd => bodyLine cmd op rest s
  | .initAvail => (s.withPhy { s.phy with spuAvail := s.initSpu }).goOn op [] rest .none
  | .initPol => (s.withPhy { s.phy with spuPol := s.initPol }).goOn op [] rest .none
  | .initOe => (s.withPhy { s.phy with spuOe := s.initSpu }).goOn op [] rest .none
  | .initSession => { s with session := true }.goOn op [] rest .none
  | .initPwr => { s with pwr := s.params.pwrDefault }.goOn op [] rest .none
  | .destroySession => { s with session := false }.goOn op [] rest .none
  | .setResult w => { s with result := w }.goOn op [] rest .none
  | .resultBit =>
    match ret with
    | .bit b => { s with result := zextBit b }.goOn op [] rest .none
    | _ => .fault .brokenSequence
  | .readRomReset =>
    match ret with
    | .bit false => s.done .noDevice
    | .bit true => s.goOn op [.command .readRom, .readFramed 7, .readRomStore] rest .none
    | _ => .fault .brokenSequence
  | .readRomStore =>
    match ret with
    | .frame d ok => { s with romid := romOfBytes d }.goOn op [.readRomCheck ok] rest .none
    | _ => .fault .brokenSequence
  | .readRomCheck ok => if ok then s.goOn op [.finish .ok] rest .none else s.done .crcError
  | .searchLoop count => s.goOn op [.findNext, .searchGot count] rest .none
  | .searchGot count =>
    match ret with
    | .found none => s.goOn op [.setResult (BitVec.ofNat 32 count), .searchEnd count] rest .none
    | .found (some rom) => s.goOn op [.searchCrc count rom] rest .none
    | _ => .fault .brokenSequence
  | .searchCrc count rom => s.goOn op [if romValid rom then .searchRoom count rom else .searchLoop count] rest .none
  | .searchRoom count rom =>
    s.goOn op
      (if count = s.cap then [.setResult (BitVec.ofNat 32 count), .finish .tooMany] else [.searchStore count rom])
      rest .none
  | .searchStore count rom =>
    { s with addrlist := s.addrlist.set count rom }.goOn op [.searchLoop (count + 1)] rest .none
  | .searchEnd count => if count = 0 then s.done .noDevice else s.goOn op [.finish .ok] rest .none
  | .powerResult =>
    match ret with
    | .power none => s.done .noDevice
    | .power (some p) => s.goOn op [.setResult (zextBit p), .finish .ok] rest .none
    | _ => .fault .brokenSequence
  | .finishRet =>
    match ret with
    | .status st => s.done st
    | _ => .fault .brokenSequence
  | .writeSpSelected =>
    match ret with
    | .bit false => s.done .noDevice
    | .bit true =>
      s.goOn op
        [.command .writeScratchpad, .writeByte s.spbuf[2], .writeByte s.spbuf[3], .writeSpConfig] rest .none
    | _ => .fault .brokenSequence
  | .writeSpConfig =>
    s.goOn op (if s.family = .modern then [.writeByte s.spbuf[4], .finish .ok] else [.finish .ok]) rest .none
  | .durationGot =>
    match ret with
    | .status st =>
      s.goOn op
        (if st = Status.ok then [.durationRead] else [.setResult (BitVec.ofNat 32 (convEst 12)), .finish .ok]) rest .none
    | _ => .fault .brokenSequence
  | .durationRead => s.goOn op [.setResult (BitVec.ofNat 32 (convEst s.resolution)), .finish .ok] rest .none
  | .convertSelected =>
    match ret with
    | .bit false => s.done .noDevice
    | .bit true => s.goOn op [.command .convertT, .convertPower] rest .none
    | _ => .fault .brokenSequence
  | .convertPower => s.goOn op (if s.pwr then [.convertBlocking] else [.act .spuOn, .convertBlocking]) rest .none
  | .convertBlocking =>
    s.goOn op
      (if s.blocking then [.act (.waitMs Config.tConv), .act .spuOff, .finish .ok] else [.finish .ok]) rest .none
  | .temperatureGot =>
    match ret with
    | .status st => if st = Status.ok then s.goOn op [.setTemp, .temperatureFamily] rest .none else s.done st
    | _ => .fault .brokenSequence
  | .setTemp => s.writeTemp.goOn op [] rest .none
  | .temperatureFamily => if s.family = .unknown then s.done .unsupported else s.goOn op [.finish .ok] rest .none
  | .resolutionFamily =>
    s.goOn op (if s.family = .legacy then [.setResult 9#32, .finish .ok] else [.readSp, .resolutionGot]) rest .none
  | .resolutionGot =>
    match ret with
    | .status st => if st = Status.ok then s.goOn op [.resolutionRead] rest .none else s.done st
    | _ => .fault .brokenSequence
  | .resolutionRead => s.goOn op [.setResult (BitVec.ofNat 32 s.resolution), .finish .ok] rest .none
  | .setResolutionRange =>
    if s.res < 9 ∨ 12 < s.res then s.done .invalidArg else s.goOn op [.readSp, .setResolutionGot] rest .none
  | .setResolutionGot =>
    match ret with
    | .status st => if st = Status.ok then s.goOn op [.setResolutionModify] rest .none else s.done st
    | _ => .fault .brokenSequence
  | .setResolutionModify =>
    { s with spbuf := s.spbuf.set 4 (withResolution s.spbuf[4] s.res) }.goOn op
      [.selectTarget s.addr, .setResolutionSelected] rest .none
  | .setResolutionSelected =>
    match ret with
    | .bit false => s.done .noDevice
    | .bit true =>
      s.goOn op
        [.command .writeScratchpad, .writeByte s.spbuf[2], .writeByte s.spbuf[3], .writeByte s.spbuf[4],
          .finish .ok] rest .none
    | _ => .fault .brokenSequence
  | .crcStart => (s.withPhy { s.phy with crc := 0x00#8 }).goOn op [.crcLoop s.len] rest .none
  | .crcLoop 0 => s.goOn op [.crcDone] rest .none
  | .crcLoop (k + 1) =>
    (s.withPhy (s.phy.crcByte (s.spbuf.toList.getD (s.len - (k + 1)) 0#8))).goOn op [.crcLoop k] rest .none
  | .crcDone => { s with result := zextByte s.phy.crc }.goOn op [.finish .ok] rest .none
  | .finish st => s.done st

/-- One step of CORE: the next line of the running command. An idle block waits (R64, R282, R300). -/
def coreStep (s : State) : Host.Outcome State Fault Refusal :=
  match s.seq with
  | .idle => .next s
  | .run op (point :: rest) ret => point.run op rest ret s
  | .run _ [] _ => .fault .brokenSequence

/-- The wire command byte that CORE's next line sends. -/
def Seq.nextCommand : Seq → Option WireCmd
  | .run _ (.command c :: _) _ => some c
  | .run _ _ _ | .idle => none

/-- `SEQ` at the line of a host command that sends this wire command byte, with the lines that follow it there. -/
def State.seqAt (s : State) (c : WireCmd) : Seq :=
  match c with
  | .searchRom => .run (HostOp.opcode .searchRom) [.command c, .position 64 0, .searchGot 0] .none
  | .alarmSearch => .run (HostOp.opcode .searchRom) [.command c, .position 64 0, .searchGot 0] .none
  | .readRom => .run (HostOp.opcode .readRom) [.command c, .readFramed 7, .readRomStore] .none
  | .matchRom =>
    .run (HostOp.opcode .readScratchpad)
      (.command c :: (s.addr.toList.map .writeByte ++ [.selectDone, .readSpSelected, .finishRet])) .none
  | .skipRom =>
    .run (HostOp.opcode .readScratchpad) [.command c, .selectDone, .readSpSelected, .finishRet] .none
  | .convertT => .run (HostOp.opcode .convertTemperature) [.command c, .convertPower] .none
  | .writeScratchpad =>
    .run (HostOp.opcode .writeScratchpad)
      [.command c, .writeByte s.spbuf[2], .writeByte s.spbuf[3], .writeSpConfig] .none
  | .readScratchpad =>
    .run (HostOp.opcode .readScratchpad) [.command c, .readFramed 8, .readSpFrame, .finishRet] .none
  | .readPowerSupply =>
    .run (HostOp.opcode .readPowerSupply) [.command c, .readBit, .powerBit, .powerResult] .none

end Sys2Proof.Machine
end

