-- ==== Sys2Proof/Machine/HostPort.lean ====
section
/-! DEFINITION. The HOST's register interface (10_state.md section 6, 20_memory.md): reads, writes, and what a read
returns while a command runs (R72). -/

namespace Sys2Proof.Machine

/-- The current contents of a register (R39 to R46). -/
def State.regValue (s : State) : Reg → Word
  | .cmd => 0#32
  | .stat => s.stat
  | .cfg => s.cfg
  | .result => s.result
  | .temp => s.temp
  | .addr0 => romLo s.addr
  | .addr1 => romHi s.addr
  | .romid0 => romLo s.romid
  | .romid1 => romHi s.romid
  | .spbuf0 => sp0 s.spbuf
  | .spbuf1 => sp1 s.spbuf
  | .spbuf2 => sp2 s.spbuf
  | .id => 0x4F570001#32
  | .addrlistLo j => romLo (s.addrlist.getD j sentinel)
  | .addrlistHi j => romHi (s.addrlist.getD j sentinel)
  | .reserved => 0#32

/-- Whether a command may write the bits of a register that hold its results (R92, R72). `STATUS` is no such result:
it keeps the previous code while `BUSY = 1` (R41). -/
def mayWrite (cmd : HostOp) : Reg → Bool
  | .stat => cmd == .init || cmd == .readPowerSupply
  | .result =>
    cmd == .resetBus || cmd == .searchRom || cmd == .readPowerSupply || cmd == .convertDuration
      || cmd == .getResolution || cmd == .crc8
  | .temp => cmd == .getTemperature
  | .romid0 | .romid1 => cmd == .readRom
  | .spbuf0 | .spbuf1 | .spbuf2 =>
    cmd == .readScratchpad || cmd == .convertDuration || cmd == .getTemperature || cmd == .getResolution
      || cmd == .setResolution
  | .addrlistLo _ | .addrlistHi _ => cmd == .searchRom
  | .cmd | .cfg | .addr0 | .addr1 | .id | .reserved => false

/-- Whether the running command may be changing a register (R47, R72). -/
def State.changing (s : State) (r : Reg) : Bool :=
  match s.seq with
  | .idle => false
  | .run op _ _ =>
    match decodeOp op with
    | some cmd => mayWrite cmd r
    | none => false

/-- What a read returns of a register the running command may be changing: a free value in the bits that are
results (R72, U15; log entry 7). In `STAT` that is the PWR bit only; `SPBUF2` has 8 bits. -/
def State.contested (s : State) (r : Reg) : Word :=
  match r with
  | .stat => s.statWith ((Config.busyRead s.free).getLsbD 0)
  | .spbuf2 => Config.busyRead s.free &&& 0xFF#32
  | _ => Config.busyRead s.free

/-- A HOST read of a register (R72, R73): no side effect in the block. -/
def State.readReg (s : State) (r : Reg) : State :=
  if s.changing r then { s with rdata := s.contested r, free := s.free + 1 }
  else { s with rdata := s.regValue r }

/-- A HOST write to a register of an idle block (R39 to R46, R73, R120): `CMD` starts a command, the operand
registers store, and the rest ignore it. -/
def State.writeReg (s : State) (r : Reg) (w : Word) : State :=
  match r with
  | .cmd => s.start (cmdOp w)
  | .cfg => { s with cfg := w &&& cfgMask }
  | .addr0 => { s with addr := romSetLo s.addr w }
  | .addr1 => { s with addr := romSetHi s.addr w }
  | .spbuf0 => { s with spbuf := spSet0 s.spbuf w }
  | .spbuf1 => { s with spbuf := spSet1 s.spbuf w }
  | .spbuf2 => { s with spbuf := spSet2 s.spbuf w }
  | .stat | .result | .temp | .romid0 | .romid1 | .id | .addrlistLo _ | .addrlistHi _ | .reserved => s

/-- A HOST write at an offset: ignored while `BUSY = 1` (R47), refused when it is no aligned 32-bit access (R61). -/
def State.hostWrite (s : State) (offset width : Nat) (w : Word) : Host.Outcome State Fault Refusal :=
  if accessWf offset width then
    .next (if s.busy then s else s.writeReg (regAt s.params.addrlistDepth offset) w)
  else .refused .badAccess

/-- A HOST read at an offset (R61, R72). -/
def State.hostRead (s : State) (offset width : Nat) : Host.Outcome State Fault Refusal :=
  if accessWf offset width then .next (s.readReg (regAt s.params.addrlistDepth offset))
  else .refused .badAccess

/-- POLL (R108): while `BUSY` is 1 CORE moves and the HOST goes on polling, then `STAT` has been read. -/
def State.poll (s : State) : Host.Outcome State Fault Refusal :=
  if s.busy then coreStep { s with inputs := .poll :: s.inputs } else .next (s.readReg .stat)

/-- The next instruction's code and the state to run it in: the `CMD` word that the next input gives an idle block (R40,
R120), or the wire command byte of CORE's next line when the next input lets CORE send it whole (R202). -/
def State.fetch (s : State) : Option (Code × State) :=
  match s.inputs with
  | .cmd w :: rest => if s.busy then none else some (.host w, { s with inputs := rest })
  | .tickByte :: rest =>
    match s.seq.nextCommand with
    | some c => some (.wire c.byte, { s with inputs := rest })
    | none => none
  | _ => none

/-- The state in which the next step fetches this code (log entry 9). -/
def State.fetching (s : State) (code : Code) : State :=
  match code with
  | .host w => { s with inputs := .cmd w :: s.inputs, seq := .idle }
  | .wire b =>
    match decodeWire b with
    | some c => { s with inputs := .tickByte :: s.inputs, seq := s.seqAt c }
    | none => s

/-- What a code that is no instruction does: a reserved opcode is a command of its own (R93). A byte that is no wire
command is never fetched, and is sent by no one (R98). -/
def State.rejected (s : State) (r : Reject) : Host.Outcome State Fault Refusal :=
  match r with
  | .reservedOpcode _ => .next s.reservedOp
  | .notAWireCommand _ => .next s

/-- A step that runs no instruction as a whole: the next input, or CORE's next line when there is none. A `cmd` that
finds the block busy waits, as R306 asks of the HOST; a plain `write` does not wait and is ignored (R47). -/
def State.otherStep (s : State) : Host.Outcome State Fault Refusal :=
  match s.inputs with
  | [] => coreStep s
  | i :: rest =>
    match i with
    | .write offset width w => { s with inputs := rest }.hostWrite offset width w
    | .read offset width => { s with inputs := rest }.hostRead offset width
    | .poll => { s with inputs := rest }.poll
    | .cmd _ => coreStep s
    | .tick => coreStep { s with inputs := rest }
    | .tickByte => coreStep { s with inputs := rest }
    | .reset => .next { s with inputs := rest }.hardReset

/-! R108's expansions, as inputs. -/

/-- The offset of a register that a HOST program writes. -/
def writeTo (offset : Nat) (w : Word) : Input := .write offset 32 w

/-- `EXEC <mnemonic>`: `WR CMD, <OP>` and `POLL`. -/
def progExec (cmd : HostOp) : List Input := [writeTo 0x000 (cmd.opcode.setWidth 32), .poll]

/-- `SETCFG spu=a, pol=b, blocking=c, res=r, cap=k, len=l`. -/
def progSetCfg (a b c : Bool) (r k : Byte) (l : BitVec 4) : List Input :=
  [writeTo 0x008
    (0#4 ++ l ++ k ++ r ++ 0#5 ++ BitVec.ofBool c ++ BitVec.ofBool b ++ BitVec.ofBool a : BitVec 32)]

/-- `SETADDR b0 ... b7`. -/
def progSetAddr (r : Rom) : List Input := [writeTo 0x014 (romLo r), writeTo 0x018 (romHi r)]

/-- `SETSP b0 ... b8`. -/
def progSetSp (b : Scratchpad) : List Input :=
  [writeTo 0x024 (sp0 b), writeTo 0x028 (sp1 b), writeTo 0x02C (sp2 b)]

end Sys2Proof.Machine
end

