-- ==== Sys2Proof/Machine/Step.lean ====
section
/-! DEFINITION. One step of the machine, and where a table row's word stands for step to fetch. -/

namespace Sys2Proof.Machine

/-- One step: the instruction that the next input hands the block, run as a whole, else the next input or CORE's
next line. -/
def step (s : State) : Host.Outcome State Fault Refusal :=
  match s.fetch with
  | some (code, t) =>
    match decode code with
    | .ok i => exec i t
    | .error r => t.rejected r
  | none => s.otherStep

/-- The state whose next step fetches the instruction with these bits (log entry 9): a `CMD` word is the next input and
the block is idle; a wire command byte is CORE's next line, and the next input lets CORE send it whole. -/
def State.withFetchWord (s : State) (nbits w : Nat) : State := s.fetching (codeOfBits nbits w)

end Sys2Proof.Machine
end

