-- ==== Sys2Proof/Machine/ReferenceBus.lean ====
section
/-! DEFINITION. The reference static bus of R67 (log entry 21), as a function of the event history: what it would answer to the
next sample. No step of the machine uses it: the spec gives it for tests, and a claim that needs a bus that behaves
names it as a premise (R66). -/

namespace Sys2Proof.Machine

/-- A device of the reference bus: its address, its scratchpad, whether it is parasitic-powered, whether it stores as a
LEGACY device does, and whether it is still selected. DESIGN CHOICE: `legacy` is a flag of the device itself, free of the
class that `FAMILY_CLASS` gives its family code (log entry 27). -/
structure Device where
  rom : Rom
  sp : Scratchpad
  parasitic : Bool
  legacy : Bool
  active : Bool
  deriving DecidableEq, Repr

/-- What the devices expect in the next slot. Lists are the bits received so far, oldest first. -/
inductive BusPhase where
  | romCommand (bits : List Bool)
  | searchBit (n : Nat)
  | searchComplement (n : Nat)
  | searchWrite (n : Nat)
  | matchRom (bits : List Bool)
  | sendRom (n : Nat)
  | functionCommand (bits : List Bool)
  | sendScratchpad (n : Nat)
  | receiveScratchpad (bits : List Bool)
  | sendPower
  | quiet
  deriving DecidableEq, Repr

/-- The reference bus: the devices and what they expect; how long the master has held the line low, none while it
leaves the line released; and whether a device drives the line low. -/
structure RefBus where
  devices : List Device
  phase : BusPhase
  low : Option Nat
  pull : Bool
  deriving DecidableEq, Repr

/-- The bus before any event: the line is released and no device has been reset. -/
def RefBus.start (ds : List Device) : RefBus := { devices := ds, phase := .quiet, low := none, pull := false }

/-- What a sample reads: 0 where the line is low (R65). -/
def RefBus.level (u : RefBus) : Bool := !lineLow u.low.isSome u.pull

/-- A byte from its bits, bit 0 first (R68). -/
def byteOfBits : List Bool → Byte
  | [] => 0#8
  | b :: bs => (byteOfBits bs <<< 1) ||| (if b then 1#8 else 0#8)

/-- Bit n of a byte sequence on the wire: bit n mod 8 of byte n div 8 (R68, R101). -/
def wireBit (bs : List Byte) (n : Nat) : Bool := (bs.getD (n / 8) 0#8).getLsbD (n % 8)

/-- The bits of bytes on the wire, each byte's bit 0 first (R68). -/
def wireBits (bs : List Byte) : List Bool := bs.flatMap fun b => (List.range 8).map b.getLsbD

/-- Whether some selected device drives the line low, f being the bit each sends: the line carries the AND of those bits
(R65, R67). -/
def pullsLow (ds : List Device) (f : Device → Bool) : Bool := ds.any fun d => d.active && !f d

/-- The k-th byte written after Write Scratchpad goes to byte 2 + k; a LEGACY device stores two. The device keeps
byte 8 the CRC of bytes 0 to 7 (R67, R102). -/
def Device.store (d : Device) (k : Nat) (b : Byte) : Device :=
  if d.active && k < (if d.legacy then 2 else 3) then
    let sp := d.sp.toList.set (2 + k) b
    { d with sp := spOfBytes (sp.take 8 ++ [crc8 (sp.take 8)]) }
  else d

/-- The phase after a ROM command byte; a device that knows no such command waits for the next reset. -/
def romPhase (b : Byte) : BusPhase :=
  match decodeWire b with
  | some .searchRom => .searchBit 0
  | some .readRom => .sendRom 0
  | some .matchRom => .matchRom []
  | some .skipRom => .functionCommand []
  | _ => .quiet

/-- The phase after a function command byte. -/
def functionPhase (b : Byte) : BusPhase :=
  match decodeWire b with
  | some .readScratchpad => .sendScratchpad 0
  | some .writeScratchpad => .receiveScratchpad []
  | some .readPowerSupply => .sendPower
  | _ => .quiet

/-- One slot, in which the master's pulse is a written b or the start of a read (R134, R67). -/
def RefBus.slot (u : RefBus) (b : Bool) : RefBus :=
  match u.phase with
  | .romCommand bits =>
    { u with phase := if bits.length = 7 then romPhase (byteOfBits (bits ++ [b])) else .romCommand (bits ++ [b])
             pull := false }
  | .searchBit n =>
    { u with phase := .searchComplement n, pull := pullsLow u.devices fun d => wireBit d.rom.toList n }
  | .searchComplement n =>
    { u with phase := .searchWrite n, pull := pullsLow u.devices fun d => !wireBit d.rom.toList n }
  | .searchWrite n =>
    { u with
      devices := u.devices.map fun d => { d with active := d.active && wireBit d.rom.toList n == b }
      phase := if n = 63 then .quiet else .searchBit (n + 1)
      pull := false }
  | .matchRom bits =>
    if bits.length = 63 then
      { u with
        devices := u.devices.map fun d => { d with active := d.active && wireBits d.rom.toList == bits ++ [b] }
        phase := .functionCommand []
        pull := false }
    else { u with phase := .matchRom (bits ++ [b]), pull := false }
  | .sendRom n =>
    { u with phase := if n = 63 then .quiet else .sendRom (n + 1)
             pull := pullsLow u.devices fun d => wireBit d.rom.toList n }
  | .functionCommand bits =>
    { u with
      phase := if bits.length = 7 then functionPhase (byteOfBits (bits ++ [b])) else .functionCommand (bits ++ [b])
      pull := false }
  | .sendScratchpad n =>
    { u with phase := if n = 71 then .quiet else .sendScratchpad (n + 1)
             pull := pullsLow u.devices fun d => wireBit d.sp.toList n }
  | .receiveScratchpad bits =>
    { u with
      devices :=
        if bits.length % 8 = 7 then
          u.devices.map fun d => d.store (bits.length / 8) (byteOfBits ((bits ++ [b]).drop (bits.length / 8 * 8)))
        else u.devices
      phase := .receiveScratchpad (bits ++ [b])
      pull := false }
  | .sendPower => { u with phase := .quiet, pull := pullsLow u.devices fun d => !d.parasitic }
  | .quiet => { u with pull := false }

/-- The devices after a reset pulse: each awaits a ROM command, and pulls the line low to show its presence (R67). -/
def RefBus.fresh (u : RefBus) : RefBus where
  devices := u.devices.map fun d => { d with active := true }
  phase := .romCommand []
  low := none
  pull := !u.devices.isEmpty

/-- The master releases a line it has held low: a low of `T_RSTL` or more was a reset pulse, a shorter one a slot, a
written 0 when it filled the slot (R67, R130, R132). A release of a line that is released already, such as INIT's or
DESTROY's, is no slot. -/
def RefBus.released (u : RefBus) : RefBus :=
  match u.low with
  | none => u
  | some t => if Config.tRstl ≤ t then u.fresh else { u with low := none }.slot (t < Config.tSlot)

/-- The bus after one event. A device that drives the line low lets it go by the next slot. -/
def RefBus.event (u : RefBus) : Event → RefBus
  | .act .driveLow => { u with low := some 0, pull := false }
  | .act .release => u.released
  | .act (.waitUs d) => { u with low := u.low.map (· + d) }
  | .act (.waitMs d) => { u with low := u.low.map (· + 1000 * d) }
  | .act .spuOn | .act .spuOff | .sample _ => u

/-- The bus after a history, newest event first. -/
def RefBus.after (ds : List Device) : List Event → RefBus
  | [] => RefBus.start ds
  | e :: es => (RefBus.after ds es).event e

/-- What the reference bus answers to a sample after a history. -/
def RefBus.answer (ds : List Device) (history : List Event) : Bool := (RefBus.after ds history).level

/-- Every sample of the history that lies beyond `past` is the reference bus's answer. -/
def onRefBus (ds : List Device) (past : Nat) : List Event → Bool
  | [] => true
  | .act _ :: es => onRefBus ds past es
  | .sample b :: es => (es.length < past || b == RefBus.answer ds es) && onRefBus ds past es

end Sys2Proof.Machine
end

