-- ==== Sys2Proof/Safety.lean ====
section
/-! DEFINITION. The terms claims are stated in: what the bus answers along a list of events, the event lists of the
spec's operations written out with the spec's figures, the invariants of the machine, the HOST's obligation of R310,
and the value of a binary32 word. -/

namespace Sys2Proof

/-- The host command of an instruction. -/
def Instr.hostOp : Instr → Option HostOp
  | .init _ => some .init
  | .destroy _ => some .destroy
  | .resetBus _ => some .resetBus
  | .readRom _ => some .readRom
  | .searchRom _ => some .searchRom
  | .readPowerSupply _ => some .readPowerSupply
  | .readScratchpad _ => some .readScratchpad
  | .writeScratchpad _ => some .writeScratchpad
  | .convertDuration _ => some .convertDuration
  | .convertTemperature _ => some .convertTemperature
  | .getTemperature _ => some .getTemperature
  | .getResolution _ => some .getResolution
  | .setResolution _ => some .setResolution
  | .crc8 _ => some .crc8
  | .wSearchRom | .wReadRom | .wMatchRom | .wSkipRom | .wAlarmSearch | .wConvertT
  | .wWriteScratchpad | .wReadScratchpad | .wReadPowerSupply => none

end Sys2Proof

namespace Sys2Proof.Machine

/-! ## Events and answers -/

/-- The bus side after one event: an action's effect, or a sample that returned b. -/
def Phy.event (p : Phy) : Event → Phy
  | .act a => p.act a
  | .sample b => p.sampled b

/-- The bus side after events, oldest first. -/
def Phy.after (p : Phy) (es : List Event) : Phy := es.foldl Phy.event p

/-- The events, oldest first, can happen next: every sample among them is what the oracle answers there (R66). -/
def Phy.follows (p : Phy) : List Event → Prop
  | [] => True
  | .act a :: es => (p.act a).follows es
  | .sample b :: es => b = p.answer ∧ (p.sampled b).follows es

/-- The bus side with `SHIFT` and `BITCNT` out of view: no rule reads them between bytes (R33). -/
def Phy.masked (p : Phy) : Phy := { p with shift := 0#8, bitcnt := 0#4 }

/-- The state with `SHIFT` and `BITCNT` out of view. -/
def State.masked (s : State) : State := { s with phy := s.phy.masked }

/-- Running `i` from `s` answers a next state, and it is `t` but for `SHIFT` and `BITCNT`. -/
def RunsTo (i : Instr) (s t : State) : Prop := ∃ u, exec i s = .next u ∧ u.masked = t.masked

/-- The state after a command has run along events and ended with a status: nothing else changed. -/
def State.ended (s : State) (es : List Event) (st : Byte) : State :=
  { s with phy := s.phy.after es, status := st, seq := .idle }

/-! The event lists of 40_bus_physical.md, with the figures of R130, R131, R133. -/

/-- A reset's events (R130), with k samples of 1 before a sample of 0, and no sample of 0 when k is 24. -/
def resetEvents (k : Nat) : List Event :=
  [.act .spuOff, .act .driveLow, .act (.waitUs 480), .act .release, .act (.waitUs 15)]
  ++ (List.replicate k [.sample true, .act (.waitUs 10)]).flatten
  ++ (if k < 24 then [.sample false, .act (.waitUs (465 - 10 * k))] else [.act (.waitUs 225)])

/-- A write slot's events (R131). -/
def writeBitEvents : Bool → List Event
  | true => [.act .driveLow, .act (.waitUs 3), .act .release, .act (.waitUs 57), .act (.waitUs 1)]
  | false => [.act .driveLow, .act (.waitUs 3), .act (.waitUs 57), .act .release, .act (.waitUs 1)]

/-- A read slot's events (R133). -/
def readBitEvents (b : Bool) : List Event :=
  [.act .driveLow, .act (.waitUs 3), .act .release, .act (.waitUs 7), .sample b, .act (.waitUs 50), .act (.waitUs 1)]

/-- The bits of a byte in wire order (R68). -/
def bitsOf (v : Byte) : List Bool :=
  [v.getLsbD 0, v.getLsbD 1, v.getLsbD 2, v.getLsbD 3, v.getLsbD 4, v.getLsbD 5, v.getLsbD 6, v.getLsbD 7]

/-- The events of bytes written (R135, R137). -/
def writeEvents (bs : List Byte) : List Event := bs.flatMap fun v => (bitsOf v).flatMap writeBitEvents

/-- The events of bytes read (R136, R137). -/
def readEvents (bs : List Byte) : List Event := bs.flatMap fun v => (bitsOf v).flatMap readBitEvents

/-- The events of SelectTarget after a reset with presence (R200). -/
def selectEvents (A : Rom) : List Event :=
  if A.toList.all (· == 0#8) then writeEvents [0xCC#8] else writeEvents (0x55#8 :: A.toList)

/-- The events of a scratchpad read of A that receives d (R230). -/
def readSpEvents (k : Nat) (A : Rom) (d : Scratchpad) : List Event :=
  resetEvents k ++ selectEvents A ++ writeEvents [0xBE#8] ++ readEvents d.toList

/-- The bus side after a framed read (R153): the events, and `CRC` the CRC of the data bytes. -/
def State.received (s : State) (es : List Event) (data : List Byte) : State :=
  { s with phy := { s.phy.after es with crc := crc8 data } }

/-- The events of a search's positions n, n+1, ... (R171, R177): two reads and one write each. -/
def positionEvents : List (Bool × Bool × Bool) → List Event
  | [] => []
  | (a, c, dir) :: ps => readBitEvents a ++ readBitEvents c ++ writeBitEvents dir ++ positionEvents ps

/-- One bus transaction on a target A, the whole of it (R96, R97, R202): a reset that no device answered; or a reset
with presence and then, at once, a ROM command. Read ROM is followed by 8 bytes read (R208); Search ROM by positions,
all 64 or up to one that read (1, 1) (R172, R174); Skip ROM or Match ROM by a function command at once: Read Power
Supply and its bit (R211), Read Scratchpad and 9 bytes read (R230), Write Scratchpad and its bytes (R232, R246), or
Convert and the pull-up's actions (R236). -/
inductive Transaction (A : Rom) : List Event → Prop where
  | noPresence : Transaction A (resetEvents 24)
  | readRom (k : Nat) (d : Rom) (hk : k < 24) :
      Transaction A (resetEvents k ++ writeEvents [0x33#8] ++ readEvents d.toList)
  | searchWhole (k : Nat) (ps : List (Bool × Bool × Bool)) (hk : k < 24) (hp : ps.length = 64) :
      Transaction A (resetEvents k ++ writeEvents [0xF0#8] ++ positionEvents ps)
  | searchAborted (k : Nat) (ps : List (Bool × Bool × Bool)) (hk : k < 24) (hp : ps.length < 64) :
      Transaction A (resetEvents k ++ writeEvents [0xF0#8] ++ positionEvents ps ++ readBitEvents true
        ++ readBitEvents true)
  | readPower (k : Nat) (b : Bool) (hk : k < 24) :
      Transaction A (resetEvents k ++ selectEvents A ++ writeEvents [0xB4#8] ++ readBitEvents b)
  | readScratchpad (k : Nat) (d : Scratchpad) (hk : k < 24) : Transaction A (readSpEvents k A d)
  | writeScratchpad (k : Nat) (th tl : Byte) (config : List Byte) (hk : k < 24) (hc : config.length ≤ 1) :
      Transaction A (resetEvents k ++ selectEvents A ++ writeEvents (0x4E#8 :: th :: tl :: config))
  | convert (k : Nat) (as : List Act) (hk : k < 24) (ha : ∀ a ∈ as, a = .spuOn ∨ a = .waitMs 750 ∨ a = .spuOff) :
      Transaction A (resetEvents k ++ selectEvents A ++ writeEvents [0x44#8] ++ as.map .act)

/-- An address as a number whose most significant binary digit is search position 1 (R181). -/
def searchKey (r : Rom) : Nat := (r.toList.flatMap bitsOf).foldl (fun key b => 2 * key + b.toNat) 0

/-- Passes one after the other, each from where the one before it ended (R180). -/
def passChain (p : Phy) (f : Search) : List Pass → Prop
  | [] => True
  | r :: rs => r = findNext p f ∧ passChain r.phy r.search rs

/-- The addresses with a right CRC that passes found, in the order found: what a search stores (R180). -/
def foundBy (rs : List Pass) : List Rom := (rs.filterMap Pass.found).filter fun rom => crc8 (rom.toList.take 7) == rom[7]

/-- The devices whose address has a right CRC: those a search stores (R180, R182). -/
def validDevices (ds : List Device) : List Device := ds.filter fun d => crc8 (d.rom.toList.take 7) == d.rom[7]

/-! ## Invariants -/

/-- The loop counters a line carries stay in their ranges (R33, R130, R172, R180). -/
def Point.inRange (s : State) : Point → Bool
  | .presence k t => t + 10 * k == 255
  | .presenceGot k t => t + 10 * (k + 1) == 255
  | .presencePad t _ => t ≤ 255
  | .writeLoop k | .readLoop k => k ≤ 8
  | .writeShift k | .readShift k => k ≤ 7
  | .position k lz => k ≤ 64 && lz + k ≤ 64
  | .positionA k lz | .positionC k lz _ | .direction k lz _ _ => k ≤ 63 && lz + k ≤ 63
  | .setSr n _ => 1 ≤ n && n ≤ 64
  | .setLd lz => lz ≤ 64
  | .searchLoop count | .searchGot count | .searchCrc count _ | .searchRoom count _ | .searchEnd count =>
    count ≤ s.cap && s.cap ≤ s.params.addrlistDepth
  | .searchStore count _ => count < s.cap && s.cap ≤ s.params.addrlistDepth
  | _ => true

/-- The lines still to run. -/
def Seq.points : Seq → List Point
  | .idle => []
  | .run _ ps _ => ps

/-- The invariant every step keeps: `LD` is 0 to 64, and 0 when `LDF` is set but for the line between the two writes of
step 5 (R28, R178); `BITCNT` is 0 to 8 (R33);
`ADDRLIST` has `ADDRLIST_DEPTH` entries, at least 1 (R9, R38); the reserved bits of `CFG` are 0 (R42, R94);
`STATUS` is one of the six codes (R105); and the running command's counters are in range. -/
def State.Inv (s : State) : Prop :=
  s.params.wf = true ∧ s.search.ld.toNat ≤ 64
  ∧ (s.search.ldf = true → s.search.ld = 0#7 ∨ s.seq.points.head? = some .setLdf)
  ∧ s.phy.bitcnt.toNat ≤ 8 ∧ s.addrlist.length = s.params.addrlistDepth
  ∧ s.cfg &&& 0xF00000F8#32 = 0#32 ∧ s.status.toNat ≤ 5
  ∧ s.seq.points.all (Point.inRange s) = true

/-- The kinds of result a procedure leaves; no result is of the kind `never`. -/
inductive Kind where
  | none | bit | byte | frame | found | power | status | never
  deriving DecidableEq, Repr

def Val.kind : Val → Kind
  | .none => .none
  | .bit _ => .bit
  | .byte _ => .byte
  | .frame _ _ => .frame
  | .found _ => .found
  | .power _ => .power
  | .status _ => .status

/-- The kind of result a line takes; none when it takes none. A line that sends Alarm Search would take what no
procedure leaves: no command has one (R201). -/
def Point.takes : Point → Option Kind
  | .presenceGot _ _ | .readShift _ | .findNextReset | .positionA _ _ | .positionC _ _ _ | .selectReset _
  | .powerSelected | .powerBit | .readSpSelected | .resultBit | .readRomReset | .writeSpSelected
  | .convertSelected | .setResolutionSelected => some .bit
  | .framedData _ _ | .framedCheck _ => some .byte
  | .command c => if c = .alarmSearch then some .never else none
  | .readSpFrame | .readRomStore => some .frame
  | .searchGot _ => some .found
  | .powerResult => some .power
  | .finishRet | .durationGot | .temperatureGot | .resolutionGot | .setResolutionGot => some .status
  | _ => none

/-- The kind of result that stands when a line and all it calls are done, after a result of kind k; none for a line
that ends its command. -/
def Point.leaves (k : Kind) : Point → Option Kind
  | .act _ => some k
  | .sample | .resetPresence | .presence _ _ | .presenceGot _ _ | .presencePad _ _ | .readBit
  | .selectTarget _ | .selectReset _ | .selectRom _ | .selectDone => some .bit
  | .writeBit _ | .command _ | .writeByte _ | .writeLoop _ | .writeShift _ | .setSr _ _ | .initAvail
  | .initPol | .initOe | .initSession | .initPwr | .destroySession | .setResult _ | .resultBit | .setTemp => some .none
  | .readByte | .readLoop _ | .readShift _ => some .byte
  | .readFramed _ | .framedLoop _ _ | .framedData _ _ | .framedCheck _ => some .frame
  | .findNext | .clearSearch | .findNextReset | .position _ _ | .positionA _ _ | .positionC _ _ _
  | .direction _ _ _ _ | .setLd _ | .setLdf => some .found
  | .powerQuery _ | .powerSelected | .powerBit => some .power
  | .readSp | .readSpSelected | .readSpFrame | .readSpCheck _ => some .status
  | .prologue | .prologueSession _ | .body _ | .readRomReset | .readRomStore | .readRomCheck _ | .searchLoop _
  | .searchGot _ | .searchCrc _ _ | .searchRoom _ _ | .searchStore _ _ | .searchEnd _ | .powerResult
  | .finishRet | .writeSpSelected | .writeSpConfig | .durationGot | .durationRead | .convertSelected | .convertPower
  | .convertBlocking | .temperatureGot | .temperatureFamily | .resolutionFamily | .resolutionGot | .resolutionRead
  | .setResolutionRange | .setResolutionGot | .setResolutionModify | .setResolutionSelected | .crcStart | .crcLoop _
  | .crcDone | .finish _ => none

/-- The lines run to a `finish`, each finding the kind of result it takes. -/
def linesSound : Kind → List Point → Bool
  | _, [] => false
  | k, p :: ps =>
    (match p.takes with | none => true | some need => need == k)
      && (match p.leaves k with | none => true | some k' => linesSound k' ps)

/-- `SEQ` is IDLE or at lines that run to a `finish` (R34, R122, R283). -/
def State.SequenceSound (s : State) : Prop :=
  match s.seq with
  | .idle => True
  | .run _ ps ret => linesSound ret.kind ps = true

/-! ## The HOST's obligation of R310 -/

/-- Whether a command makes a reset: the bus commands do, unless a check before any bus activity ends them (R121, R180,
R237, R246, R310). INIT is among them for its probe (log entry 25). -/
def State.opensWithReset (s : State) (cmd : HostOp) : Bool :=
  match cmd with
  | .init => !s.session
  | .resetBus | .readRom | .readPowerSupply | .readScratchpad | .writeScratchpad | .convertTemperature
  | .getTemperature => s.session
  | .searchRom => s.session && decide (s.cap ≤ s.params.addrlistDepth)
  | .convertDuration | .getResolution => s.session && s.family == .modern
  | .setResolution => s.session && s.family == .modern && decide (9 ≤ s.res) && decide (s.res ≤ 12)
  | .destroy | .crc8 => false

/-- The conversion time in milliseconds: 750, or the CONVERT_DURATION estimate for the device when the HOST has one
(R308). -/
def conversionTime (estimate : Option Word) : Nat :=
  match estimate with
  | none => Config.tConv
  | some ms => ms.toNat

/-- R310 (a): the HOST must not start a command that opens with a reset while the strong pull-up is on, before the
conversion time has passed. `waited` is the milliseconds since the conversion began. -/
def State.hostMayStart (s : State) (cmd : HostOp) (waited : Nat) (estimate : Option Word) : Bool :=
  !(s.phy.spuAct && s.opensWithReset cmd) || conversionTime estimate ≤ waited

/-- The host command that the next input starts (R40, R120): none when the block is busy, for another input, and for a
reserved opcode. -/
def State.starting (s : State) : Option HostOp :=
  if s.busy then none
  else
    match s.inputs with
    | .cmd w :: _ => decodeOp (cmdOp w)
    | .write 0x000 32 w :: _ => decodeOp (cmdOp w)
    | _ => none

/-- The precondition of R310 (a) on the next input. -/
def State.hostObeys (s : State) (waited : Nat) (estimate : Option Word) : Bool :=
  match s.starting with
  | some cmd => s.hostMayStart cmd waited estimate
  | none => true

/-- R310 (b): after the conversion time the HOST must end a pull-up that is still on. -/
def State.hostMustEnd (s : State) (waited : Nat) (estimate : Option Word) : Bool :=
  s.phy.spuAct && conversionTime estimate ≤ waited

/-! ## Runs of lines -/

/-- n lines of CORE, stopping at the first fault. -/
def coreRun : Nat → State → Host.Outcome State Fault Refusal
  | 0, s => .next s
  | n + 1, s =>
    match coreStep s with
    | .next t => coreRun n t
    | .fault r => .fault r
    | .refused r => .refused r

/-! ## Numbers -/

/-- The value of a finite binary32 word (R106). -/
def binary32Value (w : Word) : ℚ :=
  let sign : ℚ := if w.getLsbD 31 then -1 else 1
  let e := (w.extractLsb' 23 8).toNat
  let f := (w.extractLsb' 0 23).toNat
  if e = 0 then sign * (f : ℚ) * 2 ^ (-149 : ℤ)
  else sign * ((2 ^ 23 + f : ℕ) : ℚ) * 2 ^ ((e : ℤ) - 150)

/-- Whether a binary32 word is finite. -/
def binary32Finite (w : Word) : Bool := (w.extractLsb' 23 8).toNat < 255

/-- The value of a fraction. -/
def Frac.value (v : Frac) : ℚ := (v.num : ℚ) / (v.den : ℚ)

end Sys2Proof.Machine
end

