-- ==== Sys2Proof/Certificates/Slice0/Obligations.lean ====
section
/-! DEFINITION. The statements for the provers, from the spec's numbered rules. A command's statement says, for the
events the bus allows next (`follows`), the whole state the command leaves: what is not named in the record is
unchanged. `RunsTo i s t` is `exec i s` answering a next state that is t but for `SHIFT` and `BITCNT`. -/

open Sys2Proof Sys2Proof.Machine

/-! ## Encoding -/

/-- R90, R91, R98: the encoding tables are read as they are written, in both directions. -/
def Obligations.DecodeAndEncodeAgree : Prop :=
  (∀ i : Instr, decode (encode i) = .ok i) ∧ (∀ (c : Code) (i : Instr), decode c = .ok i → encode i = c)

/-- R91, R98 and V9.11: words written out from the tables. -/
def Obligations.WrittenWordsDecode : Prop :=
  decode (.host 0x00000001#32) = .ok (.init 0#24) ∧ decode (.host 0x00000105#32) = .ok (.searchRom 1#24)
  ∧ decode (.host 0xFFFFFF0B#32) = .ok (.getTemperature 0xFFFFFF#24) ∧ decode (.host 0x0000000E#32) = .ok (.crc8 0#24)
  ∧ decode (.host 0x0000000F#32) = .error (.reservedOpcode 0x0F#8)
  ∧ decode (.wire 0xCC#8) = .ok .wSkipRom ∧ decode (.wire 0x44#8) = .ok .wConvertT
  ∧ decode (.wire 0x00#8) = .error (.notAWireCommand 0x00#8)

/-- R93: a reserved opcode is a command that changes nothing but STATUS, and makes no event. -/
def Obligations.ReservedOpcodeChangesOnlyStatus : Prop :=
  ∀ (s : State) (w : Word) (rest : List Input), s.seq = .idle → s.inputs = .cmd w :: rest →
    (w &&& 0xFF#32 = 0#32 ∨ 0x0F#32 ≤ w &&& 0xFF#32) → step s = .next { s with inputs := rest, status := 0x01#8 }

/-- R90, R94: bits 31:8 of a CMD word change nothing a step does. -/
def Obligations.IgnoredBitsChangeNothing : Prop :=
  ∀ (s : State) (w w' : Word), w &&& 0xFF#32 = w' &&& 0xFF#32 →
    step { s with inputs := .cmd w :: s.inputs, seq := .idle } = step { s with inputs := .cmd w' :: s.inputs, seq := .idle }
    ∧ step { s with inputs := .write 0x000 32 w :: s.inputs } = step { s with inputs := .write 0x000 32 w' :: s.inputs }

/-- The per-instruction statements reach a run through this one. A step of an idle block whose next input is a CMD word
that decodes is `exec` of the instruction, with that input taken; and so is a step that lets CORE send a whole wire
command byte, at the line of the running command that sends it. The inputs are the model's own (log entries 3, 8). -/
def Obligations.StepRunsTheDecodedInstruction : Prop :=
  ∀ (s : State) (rest : List Input) (i : Instr),
    (∀ w : Word, s.seq = .idle → s.inputs = .cmd w :: rest → decode (.host w) = .ok i →
      step s = exec i { s with inputs := rest })
    ∧ (∀ (op : Byte) (c : WireCmd) (ps : List Point) (ret : Val), s.seq = .run op (.command c :: ps) ret →
      s.inputs = .tickByte :: rest → decode (.wire c.byte) = .ok i → step s = exec i { s with inputs := rest })

/-! ## The bit timing controller and the byte framer -/

/-- R130: ResetPresence finds presence exactly when one of at most 24 samples reads 0, its events and waits are those
of the rule, the pull-up is off when there is one, and the line is released. -/
def Obligations.ResetPresenceSamplesAtMost24Times : Prop :=
  ∀ p : Phy, (∃ k ≤ 24, p.follows (resetEvents k)) ∧ ∀ k ≤ 24, p.follows (resetEvents k) →
    p.resetPresence = (decide (k < 24),
      { p with spuAct := p.spuAct && !p.spuAvail, dqDrv := false, trace := (resetEvents k).reverse ++ p.trace,
               draws := p.draws.drop (if k < 24 then k + 1 else 24) })

/-- R131, R132, R133: the events of a write slot and of a read slot, and the line released after each. -/
def Obligations.SlotsHaveTheirTimings : Prop :=
  ∀ (p : Phy) (b : Bool),
    p.writeBit b = { p with dqDrv := false, trace := (writeBitEvents b).reverse ++ p.trace }
    ∧ (p.follows (readBitEvents b) →
        p.readBit = (b, { p with dqDrv := false, trace := (readBitEvents b).reverse ++ p.trace, draws := p.draws.tail }))

/-- R135: WriteByte sends bit 0 first, in 8 write slots, shifts `SHIFT` out, and touches nothing but the pin, the
framer and the history. Where the loop leaves `BITCNT` is the model's choice (log entry 5), so it is not said. -/
def Obligations.WriteByteSendsBitZeroFirst : Prop :=
  ∀ (p : Phy) (v : Byte),
    p.writeByte v = { p with
      dqDrv := false, shift := 0#8, bitcnt := (p.writeByte v).bitcnt
      trace := ([v.getLsbD 0, v.getLsbD 1, v.getLsbD 2, v.getLsbD 3, v.getLsbD 4, v.getLsbD 5, v.getLsbD 6,
        v.getLsbD 7].flatMap writeBitEvents).reverse ++ p.trace }

/-- R136: the k-th bit read ends at bit k, for every way the bus can answer 8 read slots, and `SHIFT` holds the byte.
Where the loop leaves `BITCNT` is the model's choice (log entry 5), so it is not said. -/
def Obligations.ReadBytePutsTheFirstBitLowest : Prop :=
  ∀ p : Phy, (∃ v : Byte, p.follows (readEvents [v])) ∧ ∀ v : Byte, p.follows (readEvents [v]) →
    p.readByte = (v, { p with
      dqDrv := false, shift := v, bitcnt := p.readByte.2.bitcnt
      trace := ([v.getLsbD 0, v.getLsbD 1, v.getLsbD 2, v.getLsbD 3, v.getLsbD 4, v.getLsbD 5, v.getLsbD 6,
        v.getLsbD 7].flatMap readBitEvents).reverse ++ p.trace
      draws := p.draws.drop 8 })

/-- R98, R135, R202: a wire command row, at the line of the running command that sends it, is its byte in 8 write slots
and the line done; where the block sends no such byte it has no effect, an idle block included (R64, R282). That the
whole byte is one instruction is the model's choice (log entry 3). -/
def Obligations.WireCommandsSendTheirBytes : Prop :=
  ∀ (s : State) (c : WireCmd), c ≠ .alarmSearch →
    (∀ (op : Byte) (ps : List Point) (ret : Val) (t : State), s.seq = .run op (.command c :: ps) ret →
      t = { s with seq := .run op ps .none } →
      match c with
      | .searchRom => RunsTo .wSearchRom s { t with phy := s.phy.after (writeEvents [0xF0#8]) }
      | .readRom => RunsTo .wReadRom s { t with phy := s.phy.after (writeEvents [0x33#8]) }
      | .matchRom => RunsTo .wMatchRom s { t with phy := s.phy.after (writeEvents [0x55#8]) }
      | .skipRom => RunsTo .wSkipRom s { t with phy := s.phy.after (writeEvents [0xCC#8]) }
      | .alarmSearch => False
      | .convertT => RunsTo .wConvertT s { t with phy := s.phy.after (writeEvents [0x44#8]) }
      | .writeScratchpad => RunsTo .wWriteScratchpad s { t with phy := s.phy.after (writeEvents [0x4E#8]) }
      | .readScratchpad => RunsTo .wReadScratchpad s { t with phy := s.phy.after (writeEvents [0xBE#8]) }
      | .readPowerSupply => RunsTo .wReadPowerSupply s { t with phy := s.phy.after (writeEvents [0xB4#8]) })
    ∧ ((∀ (op : Byte) (ps : List Point) (ret : Val), s.seq ≠ .run op (.command c :: ps) ret) →
      exec c.instr s = .next s)

/-- R201, U21: the alarm search is refused. -/
def Obligations.AlarmSearchIsRefused : Prop :=
  ∀ s : State, exec .wAlarmSearch s = .refused .alarmSearchNeverSent

/-! ## The CRC-8 generator -/

/-- R155: the table is the bitwise Dallas/Maxim CRC-8 (reflected polynomial 0x8C), for every register and byte. -/
def Obligations.TableIsTheBitwiseCrc : Prop :=
  ∀ c b : Byte, crcTable (c ^^^ b)
    = ((List.range 8).foldl
        (fun (cb : Byte × Byte) _ =>
          (if (cb.1 ^^^ cb.2).getLsbD 0 then (cb.1 >>> 1) ^^^ 0x8C#8 else cb.1 >>> 1, cb.2 >>> 1)) (c, b)).1

/-- R154: the CRC over a buffer with its check byte is 0, and only the right check byte makes it 0. -/
def Obligations.CrcRoundTrip : Prop :=
  ∀ (bs : List Byte) (x : Byte), crc8 (bs ++ [x]) = 0x00#8 ↔ x = crc8 bs

/-- R156: CRC8, with and without a session; a LEN over 9 writes only STATUS. -/
def Obligations.Crc8Command : Prop :=
  ∀ (x : BitVec 24) (s : State),
    ((s.cfg.extractLsb' 24 4).toNat ≤ 9 → exec (.crc8 x) s = .next
      { s with
        phy := { s.phy with crc := crc8 (s.spbuf.toList.take (s.cfg.extractLsb' 24 4).toNat) }
        result := (crc8 (s.spbuf.toList.take (s.cfg.extractLsb' 24 4).toNat)).setWidth 32
        status := 0x00#8, seq := .idle })
    ∧ (9 < (s.cfg.extractLsb' 24 4).toNat → exec (.crc8 x) s = .next { s with status := 0x01#8, seq := .idle })

/-! ## Session and ROM commands -/

/-- R203, R204: INIT takes its operands from CFG, configures the pins, starts the session, and its probe caches the
bit read; with no device PWR is PWR_DEFAULT; with a session active nothing but STATUS is written. -/
def Obligations.InitStartsTheSession : Prop :=
  ∀ (x : BitVec 24) (s : State) (p : Phy),
    p = { s.phy with
          spuAvail := s.cfg.getLsbD 0, spuPol := s.cfg.getLsbD 1, spuOe := s.cfg.getLsbD 0,
          spuAct := s.phy.spuAct && !s.cfg.getLsbD 0, dqDrv := false,
          trace := .act .spuOff :: .act .release :: s.phy.trace } →
    (s.session = true → exec (.init x) s = .next { s with status := 0x01#8, seq := .idle })
    ∧ (s.session = false → p.follows (resetEvents 24) → RunsTo (.init x) s
        { s with phy := p.after (resetEvents 24), session := true, pwr := s.params.pwrDefault, status := 0x00#8,
                 seq := .idle })
    ∧ (∀ (k : Nat) (b : Bool), s.session = false → k < 24 →
        p.follows (resetEvents k ++ writeEvents [0xCC#8, 0xB4#8] ++ readBitEvents b) → RunsTo (.init x) s
        { s with
          phy := p.after (resetEvents k ++ writeEvents [0xCC#8, 0xB4#8] ++ readBitEvents b)
          session := true, pwr := b, status := 0x00#8, seq := .idle })

/-- R205: DESTROY releases the line and ends the session; the pull-up, the power cache, the search state and every
buffer stay. With no session it writes only STATUS. -/
def Obligations.DestroyEndsTheSession : Prop :=
  ∀ (x : BitVec 24) (s : State),
    (s.session = true → exec (.destroy x) s = .next
      { s with phy := { s.phy with dqDrv := false, trace := .act .release :: s.phy.trace }, session := false,
               status := 0x00#8, seq := .idle })
    ∧ (s.session = false → exec (.destroy x) s = .next { s with status := 0x01#8, seq := .idle })

/-- R206, R207: RESET_BUS is one ResetPresence, whose answer is RESULT. -/
def Obligations.ResetBusReportsPresence : Prop :=
  ∀ (x : BitVec 24) (s : State) (k : Nat), s.session = true → k ≤ 24 → s.phy.follows (resetEvents k) →
    exec (.resetBus x) s = .next
      { s with phy := s.phy.after (resetEvents k), result := if k < 24 then 1#32 else 0#32, status := 0x00#8,
               seq := .idle }

/-- R208, R209: READ_ROM stores the 8 bytes received, first byte at ROMID[0], whatever their CRC, and the CRC decides
the status. -/
def Obligations.ReadRomStoresTheBytesReceived : Prop :=
  ∀ (x : BitVec 24) (s : State), s.session = true →
    (s.phy.follows (resetEvents 24) → RunsTo (.readRom x) s (s.ended (resetEvents 24) 0x02#8))
    ∧ (∀ (k : Nat) (d : Rom) (es : List Event), k < 24 →
        es = resetEvents k ++ writeEvents [0x33#8] ++ readEvents d.toList → s.phy.follows es →
        RunsTo (.readRom x) s
          { (s.received es (d.toList.take 7)) with
            romid := d, status := if crc8 (d.toList.take 7) = d[7] then 0x00#8 else 0x03#8, seq := .idle })

/-- R211, R212: READ_POWER_SUPPLY caches and returns the bit read; with no presence PWR and RESULT stay. -/
def Obligations.ReadPowerSupplyCachesTheBit : Prop :=
  ∀ (x : BitVec 24) (s : State), s.session = true →
    (s.phy.follows (resetEvents 24) → RunsTo (.readPowerSupply x) s (s.ended (resetEvents 24) 0x02#8))
    ∧ (∀ (k : Nat) (b : Bool) (es : List Event), k < 24 →
        es = resetEvents k ++ selectEvents s.addr ++ writeEvents [0xB4#8] ++ readBitEvents b → s.phy.follows es →
        RunsTo (.readPowerSupply x) s { (s.ended es 0x00#8) with pwr := b, result := if b then 1#32 else 0#32 })

/-- R230, R231: READ_SCRATCHPAD stores the 9 bytes received, whatever their CRC, and the CRC decides the status. -/
def Obligations.ReadScratchpadStoresTheBytesReceived : Prop :=
  ∀ (x : BitVec 24) (s : State), s.session = true →
    (s.phy.follows (resetEvents 24) → RunsTo (.readScratchpad x) s (s.ended (resetEvents 24) 0x02#8))
    ∧ (∀ (k : Nat) (d : Scratchpad), k < 24 → s.phy.follows (readSpEvents k s.addr d) →
        RunsTo (.readScratchpad x) s
          { (s.received (readSpEvents k s.addr d) (d.toList.take 8)) with
            spbuf := d, status := if crc8 (d.toList.take 8) = d[8] then 0x00#8 else 0x03#8, seq := .idle })

/-- R232: WRITE_SCRATCHPAD sends TH and TL always and the configuration byte to a MODERN target only. -/
def Obligations.WriteScratchpadSendsItsBytes : Prop :=
  ∀ (x : BitVec 24) (s : State), s.session = true →
    (s.phy.follows (resetEvents 24) → RunsTo (.writeScratchpad x) s (s.ended (resetEvents 24) 0x02#8))
    ∧ (∀ (k : Nat) (es : List Event), k < 24 →
        es = resetEvents k ++ selectEvents s.addr
          ++ writeEvents (if familyClass s.params s.addr[0] = .modern
              then [0x4E#8, s.spbuf[2], s.spbuf[3], s.spbuf[4]] else [0x4E#8, s.spbuf[2], s.spbuf[3]]) →
        s.phy.follows es → RunsTo (.writeScratchpad x) s (s.ended es 0x00#8))

/-! ## Conversion, temperature and resolution -/

/-- R233, R234: CONVERT_DURATION estimates from the configuration byte of a MODERN target it can read, and else gives
the 750 ms default, always with OK. -/
def Obligations.ConvertDurationEstimates : Prop :=
  ∀ (x : BitVec 24) (s : State), s.session = true →
    (familyClass s.params s.addr[0] ≠ .modern →
      exec (.convertDuration x) s = .next { s with result := 750#32, status := 0x00#8, seq := .idle })
    ∧ (familyClass s.params s.addr[0] = .modern → s.phy.follows (resetEvents 24) →
        RunsTo (.convertDuration x) s { (s.ended (resetEvents 24) 0x00#8) with result := 750#32 })
    ∧ (∀ (k : Nat) (d : Scratchpad), familyClass s.params s.addr[0] = .modern → k < 24 →
        s.phy.follows (readSpEvents k s.addr d) → RunsTo (.convertDuration x) s
          { (s.received (readSpEvents k s.addr d) (d.toList.take 8)) with
            spbuf := d
            result := if crc8 (d.toList.take 8) = d[8] then
                [95#32, 190#32, 375#32, 750#32].getD (d[4].extractLsb' 5 2).toNat 0#32 else 750#32
            status := 0x00#8, seq := .idle })

/-- R235, R236: CONVERT_TEMPERATURE asserts the pull-up right after its command byte when PWR is 0, and a blocking one
waits 750 ms and lets it go. -/
def Obligations.ConvertTemperatureDrivesThePullUp : Prop :=
  ∀ (x : BitVec 24) (s : State), s.session = true →
    (s.phy.follows (resetEvents 24) → RunsTo (.convertTemperature x) s (s.ended (resetEvents 24) 0x02#8))
    ∧ (∀ (k : Nat) (es : List Event), k < 24 →
        es = resetEvents k ++ selectEvents s.addr ++ writeEvents [0x44#8]
          ++ (if s.pwr then [] else [.act .spuOn])
          ++ (if s.cfg.getLsbD 2 then [.act (.waitMs 750), .act .spuOff] else []) →
        s.phy.follows es → RunsTo (.convertTemperature x) s (s.ended es 0x00#8))

/-- R237, R308, R310: the strong pull-up is on after a command only where a non-blocking conversion with PWR 0 put it
on, or where it was on and the command made no reset. Which commands make one is `opensWithReset`. A HOST that obeys part
(a) never cuts the pull-up short: before the conversion time of R308 no step but a hardware reset ends it. Once part (b)
asks for its end RESET_BUS is allowed, and ends it. That INIT counts as such a command is the model's choice (log entry
25). -/
def Obligations.PullUpStaysOnOnlyWithoutAReset : Prop :=
  (∀ (x : BitVec 24) (s t : State) (k : Nat), s.session = true → k < 24 →
    s.phy.follows (resetEvents k) → s.pwr = false → s.cfg.getLsbD 2 = false → s.phy.spuAvail = true →
    exec (.convertTemperature x) s = .next t → t.phy.spuAct = true)
  ∧ (∀ (i : Instr) (c : HostOp) (s t : State), i.hostOp = some c → exec i s = .next t → s.phy.spuAvail = true →
      t.phy.spuAct = true →
      (c = .convertTemperature ∧ s.pwr = false ∧ s.cfg.getLsbD 2 = false)
      ∨ (s.phy.spuAct = true
          ∧ (t.phy.trace = s.phy.trace ∨ t.phy.trace = .act .release :: s.phy.trace
            ∨ (c = .init ∧ s.cfg.getLsbD 0 = false))))
  ∧ (∀ (i : Instr) (c : HostOp) (s t : State), i.hostOp = some c → exec i s = .next t →
      ∃ es, t.phy.trace = es ++ s.phy.trace ∧ (s.opensWithReset c = true ↔ .act (.waitUs 480) ∈ es))
  ∧ (∀ (s t : State) (waited : Nat) (estimate : Option Word), s.seq = .idle → s.phy.spuAct = true →
      waited < (match estimate with | none => 750 | some ms => ms.toNat) → s.hostObeys waited estimate = true →
      s.inputs.head? ≠ some .reset → step s = .next t → t.phy.spuAct = true)
  ∧ (∀ (x : BitVec 24) (s t : State) (waited : Nat) (estimate : Option Word), s.hostMustEnd waited estimate = true →
      s.hostMayStart .resetBus waited estimate = true
      ∧ (s.session = true → s.phy.spuAvail = true → exec (.resetBus x) s = .next t → t.phy.spuAct = false))

/-- R238, R240: GET_TEMPERATURE, on every status it can end with. The TEMP of a legacy target with COUNT_PER_C 0 is a
free value: some word, of which nothing is said. -/
def Obligations.GetTemperatureDecodes : Prop :=
  ∀ (x : BitVec 24) (s : State), s.session = true →
    (s.phy.follows (resetEvents 24) → RunsTo (.getTemperature x) s (s.ended (resetEvents 24) 0x02#8))
    ∧ (∀ (k : Nat) (d : Scratchpad) (t : State), k < 24 → s.phy.follows (readSpEvents k s.addr d) →
        t = { (s.received (readSpEvents k s.addr d) (d.toList.take 8)) with spbuf := d, seq := .idle } →
        (crc8 (d.toList.take 8) ≠ d[8] → RunsTo (.getTemperature x) s { t with status := 0x03#8 })
        ∧ (crc8 (d.toList.take 8) = d[8] →
          (familyClass s.params s.addr[0] = .modern → RunsTo (.getTemperature x) s
            { t with temp := toBinary32 (modernTemp (d[1] ++ d[0] : BitVec 16).toInt), status := 0x00#8 })
          ∧ (familyClass s.params s.addr[0] = .unknown → RunsTo (.getTemperature x) s
            { t with temp := toBinary32 (modernTemp (d[1] ++ d[0] : BitVec 16).toInt), status := 0x05#8 })
          ∧ (familyClass s.params s.addr[0] = .legacy →
            (∀ v : Frac, legacyTemp s.params.halfMode (d[1] ++ d[0] : BitVec 16).toInt d[6] d[7] = some v →
              RunsTo (.getTemperature x) s { t with temp := toBinary32 v, status := 0x00#8 })
            ∧ (d[7] = 0x00#8 → ∃ w : Word,
              RunsTo (.getTemperature x) s { t with temp := w, free := s.free + 1, status := 0x00#8 }))))

/-- R244, R245: GET_RESOLUTION answers by the family first, and reads a MODERN target. -/
def Obligations.GetResolutionReadsTheField : Prop :=
  ∀ (x : BitVec 24) (s : State), s.session = true →
    (familyClass s.params s.addr[0] = .unknown →
      exec (.getResolution x) s = .next { s with status := 0x05#8, seq := .idle })
    ∧ (familyClass s.params s.addr[0] = .legacy →
      exec (.getResolution x) s = .next { s with result := 9#32, status := 0x00#8, seq := .idle })
    ∧ (familyClass s.params s.addr[0] = .modern → s.phy.follows (resetEvents 24) →
        RunsTo (.getResolution x) s (s.ended (resetEvents 24) 0x02#8))
    ∧ (∀ (k : Nat) (d : Scratchpad) (t : State), familyClass s.params s.addr[0] = .modern → k < 24 →
        s.phy.follows (readSpEvents k s.addr d) →
        t = { (s.received (readSpEvents k s.addr d) (d.toList.take 8)) with spbuf := d, seq := .idle } →
        (crc8 (d.toList.take 8) ≠ d[8] → RunsTo (.getResolution x) s { t with status := 0x03#8 })
        ∧ (crc8 (d.toList.take 8) = d[8] → RunsTo (.getResolution x) s
            { t with result := BitVec.ofNat 32 ((d[4].extractLsb' 5 2).toNat + 9), status := 0x00#8 }))

/-- R246: SET_RESOLUTION checks the family, then the range, then reads, modifies bits 6:5 only, and writes TH, TL and
the new configuration byte back. -/
def Obligations.SetResolutionReadsModifiesWrites : Prop :=
  ∀ (x : BitVec 24) (s : State) (res : Nat), s.session = true → res = (s.cfg.extractLsb' 8 8).toNat →
    (familyClass s.params s.addr[0] ≠ .modern →
      exec (.setResolution x) s = .next { s with status := 0x05#8, seq := .idle })
    ∧ (familyClass s.params s.addr[0] = .modern →
      ((res < 9 ∨ 12 < res) → exec (.setResolution x) s = .next { s with status := 0x01#8, seq := .idle })
      ∧ (9 ≤ res → res ≤ 12 →
        (s.phy.follows (resetEvents 24) → RunsTo (.setResolution x) s (s.ended (resetEvents 24) 0x02#8))
        ∧ (∀ (k : Nat) (d : Scratchpad), k < 24 → s.phy.follows (readSpEvents k s.addr d) →
            crc8 (d.toList.take 8) ≠ d[8] → RunsTo (.setResolution x) s
              { (s.received (readSpEvents k s.addr d) (d.toList.take 8)) with
                spbuf := d, status := 0x03#8, seq := .idle })
        ∧ (∀ (k k' : Nat) (d : Scratchpad) (new : Byte) (es : List Event), k < 24 → k' ≤ 24 →
            new = (d[4] &&& 0x9F#8) ||| (BitVec.ofNat 8 (res - 9) <<< 5) →
            es = readSpEvents k s.addr d ++ resetEvents k'
              ++ (if k' < 24 then selectEvents s.addr ++ writeEvents [0x4E#8, d[2], d[3], new] else []) →
            s.phy.follows es → crc8 (d.toList.take 8) = d[8] → RunsTo (.setResolution x) s
              { (s.received es (d.toList.take 8)) with
                spbuf := d.set 4 new, status := if k' < 24 then 0x00#8 else 0x02#8, seq := .idle })))

/-- R239, R242: a modern temperature is exact in binary32, and 0 is +0.0. -/
def Obligations.ModernTemperatureIsExact : Prop :=
  ∀ raw : BitVec 16,
    binary32Value (toBinary32 (modernTemp raw.toInt)) = (raw.toInt : ℚ) / 16
    ∧ binary32Finite (toBinary32 (modernTemp raw.toInt)) = true
    ∧ (raw = 0#16 → toBinary32 (modernTemp raw.toInt) = 0x00000000#32)

/-- R243: the legacy formula over the rationals, in each mode, and no value for a zero divisor. -/
def Obligations.LegacyFormula : Prop :=
  ∀ (raw : BitVec 16) (cr cpd : Byte),
    (∀ m : HalfMode, legacyTemp m raw.toInt cr 0x00#8 = none)
    ∧ (cpd ≠ 0x00#8 →
      (∃ v, legacyTemp .exact raw.toInt cr cpd = some v
        ∧ v.value = (raw.toInt : ℚ) / 2 - 1 / 4 + ((cpd.toNat : ℚ) - cr.toNat) / cpd.toNat)
      ∧ (∃ v, legacyTemp .trunc raw.toInt cr cpd = some v
        ∧ v.value = ((raw.toInt.tdiv 2 : ℤ) : ℚ) - 1 / 4 + ((cpd.toNat : ℚ) - cr.toNat) / cpd.toNat)
      ∧ (∃ v, legacyTemp .floor raw.toInt cr cpd = some v
        ∧ v.value = ((⌊(raw.toInt : ℚ) / 2⌋ : ℤ) : ℚ) - 1 / 4 + ((cpd.toNat : ℚ) - cr.toNat) / cpd.toNat))

/-- R242: ToBinary32 gives the binary32 value nearest to an exact value in the range of normal numbers, and of two
nearest ones the even one; 0 gives +0.0. Every temperature of R239 and R243 is 0 or lies in that range. -/
def Obligations.ToBinary32RoundsToNearestEven : Prop :=
  (∀ v : Frac, 0 < v.den →
    (v.num = 0 → toBinary32 v = 0x00000000#32)
    ∧ ((2 : ℚ) ^ (-126 : ℤ) ≤ |v.value| → |v.value| ≤ 2 ^ 127 →
      binary32Finite (toBinary32 v) = true
      ∧ ∀ w : Word, binary32Finite w = true →
          |binary32Value (toBinary32 v) - v.value| ≤ |binary32Value w - v.value|
          ∧ (|binary32Value (toBinary32 v) - v.value| = |binary32Value w - v.value| →
              binary32Value w ≠ binary32Value (toBinary32 v) → (toBinary32 v).getLsbD 0 = false)))
  ∧ ∀ (raw : BitVec 16) (v : Frac),
      (v = modernTemp raw.toInt ∨ ∃ (m : HalfMode) (cr cpd : Byte), legacyTemp m raw.toInt cr cpd = some v) →
      0 < v.den ∧ (v.num = 0 ∨ ((2 : ℚ) ^ (-126 : ℤ) ≤ |v.value| ∧ |v.value| ≤ 2 ^ 127))

/-! ## Search -/

/-- R172, R175 to R179: a pass that reads no (1, 1) pair sends, at every position, the bit the rule gives; it returns
the bits it sent, remembers the highest position where it took 0 at a discrepancy, and completes the search when there
is none. r is the address it builds, as the bits of SR. -/
def Obligations.PassFollowsTheDiscrepancyRule : Prop :=
  ∀ (p : Phy) (f : Search) (k : Nat) (a c : Nat → Bool) (r : BitVec 64) (es : List Event),
    f.ldf = false → k < 24 →
    (∀ n, 1 ≤ n → n ≤ 64 → ¬(a n = true ∧ c n = true)
      ∧ r.getLsbD (n - 1)
        = (if a n ≠ c n then a n else if n = f.ld.toNat then true else if f.ld.toNat < n then false
            else f.sr.getLsbD (n - 1))) →
    es = resetEvents k ++ writeEvents [0xF0#8]
      ++ positionEvents ((List.range 64).map fun j => (a (j + 1), c (j + 1), r.getLsbD j)) →
    p.follows es →
    (findNext p f).found = some (romOf r) ∧ (findNext p f).phy.masked = (p.after es).masked
    ∧ (findNext p f).search.sr = r
    ∧ ((findNext p f).search.ldf = true ↔ (findNext p f).search.ld = 0#7)
    ∧ (findNext p f).search.ld.toNat ≤ 64
    ∧ (∀ n, 1 ≤ n → n ≤ 64 → a n = false → c n = false → r.getLsbD (n - 1) = false →
        n ≤ (findNext p f).search.ld.toNat)
    ∧ ((findNext p f).search.ld ≠ 0#7 →
        a (findNext p f).search.ld.toNat = false ∧ c (findNext p f).search.ld.toNat = false
        ∧ r.getLsbD ((findNext p f).search.ld.toNat - 1) = false)

/-- R170, R173: after the last device, and when no device answers the reset, a pass finds nothing and the search starts
afresh; after the last device it makes no event at all. -/
def Obligations.PassEndsBeforeAnyBit : Prop :=
  ∀ (p : Phy) (f : Search),
    (f.ldf = true → findNext p f = { found := none, phy := p, search := { f with ld := 0#7, ldf := false } })
    ∧ (f.ldf = false → p.follows (resetEvents 24) →
        findNext p f = { found := none, phy := p.after (resetEvents 24), search := { f with ld := 0#7, ldf := false } })

/-- R174: a pass that reads (1, 1) at position m stops there: it writes no bit for it, clears LD and LDF, keeps this
pass's bits below m in SR and the previous pass's from m on. -/
def Obligations.PassAbortsOnAContradiction : Prop :=
  ∀ (p : Phy) (f : Search) (k m : Nat) (a c : Nat → Bool) (r : BitVec 64) (es : List Event),
    f.ldf = false → k < 24 → 1 ≤ m → m ≤ 64 →
    (∀ n, 1 ≤ n → n < m → ¬(a n = true ∧ c n = true)
      ∧ r.getLsbD (n - 1)
        = (if a n ≠ c n then a n else if n = f.ld.toNat then true else if f.ld.toNat < n then false
            else f.sr.getLsbD (n - 1))) →
    (∀ n, m ≤ n → n ≤ 64 → r.getLsbD (n - 1) = f.sr.getLsbD (n - 1)) →
    es = resetEvents k ++ writeEvents [0xF0#8]
      ++ positionEvents ((List.range (m - 1)).map fun j => (a (j + 1), c (j + 1), r.getLsbD j))
      ++ readBitEvents true ++ readBitEvents true →
    p.follows es →
    (findNext p f).found = none ∧ (findNext p f).phy.masked = (p.after es).masked
    ∧ (findNext p f).search = { ld := 0#7, ldf := false, sr := r }

/-- R180: SEARCH_ROM where one pass decides it. An oversized CAP is refused before any bus activity; no presence, a first
pass that reads (1, 1), and an only device with a bad CRC give NO_DEVICE and the count 0; one device with a good CRC is
found, stored when CAP allows it, and too many when CAP is 0. -/
def Obligations.SearchRomFindsTheOnlyDevice : Prop :=
  ∀ (x : BitVec 24) (s : State) (cap : Nat), s.session = true → cap = (s.cfg.extractLsb' 16 8).toNat →
    (s.params.addrlistDepth < cap → exec (.searchRom x) s = .next { s with status := 0x01#8, seq := .idle })
    ∧ (cap ≤ s.params.addrlistDepth →
      (s.phy.follows (resetEvents 24) → RunsTo (.searchRom x) s
        { (s.ended (resetEvents 24) 0x02#8) with
          search := { s.search with ld := 0#7, ldf := false }, result := 0#32 })
      ∧ (∀ (k m : Nat) (a c : Nat → Bool) (r : BitVec 64) (es : List Event), k < 24 → 1 ≤ m → m ≤ 64 →
          (∀ n, 1 ≤ n → n < m → ¬(a n = true ∧ c n = true) ∧ r.getLsbD (n - 1) = a n) →
          (∀ n, m ≤ n → n ≤ 64 → r.getLsbD (n - 1) = s.search.sr.getLsbD (n - 1)) →
          es = resetEvents k ++ writeEvents [0xF0#8]
            ++ positionEvents ((List.range (m - 1)).map fun j => (a (j + 1), c (j + 1), r.getLsbD j))
            ++ readBitEvents true ++ readBitEvents true →
          s.phy.follows es → RunsTo (.searchRom x) s
            { (s.ended es 0x02#8) with search := { ld := 0#7, ldf := false, sr := r }, result := 0#32 })
      ∧ (∀ (k : Nat) (r : BitVec 64) (rom : Rom) (es : List Event), k < 24 → rom = romOf r →
          es = resetEvents k ++ writeEvents [0xF0#8]
            ++ positionEvents ((List.range 64).map fun j => (r.getLsbD j, !r.getLsbD j, r.getLsbD j)) →
          s.phy.follows es →
          (crc8 (rom.toList.take 7) ≠ rom[7] → RunsTo (.searchRom x) s
            { (s.ended es 0x02#8) with search := { ld := 0#7, ldf := false, sr := r }, result := 0#32 })
          ∧ (crc8 (rom.toList.take 7) = rom[7] → 1 ≤ cap → RunsTo (.searchRom x) s
            { (s.ended es 0x00#8) with
              search := { ld := 0#7, ldf := false, sr := r }, result := 1#32, addrlist := s.addrlist.set 0 rom })
          ∧ (crc8 (rom.toList.take 7) = rom[7] → cap = 0 → RunsTo (.searchRom x) s
            { (s.ended es 0x04#8) with search := { ld := 0#7, ldf := true, sr := r }, result := 0#32 })))

/-- R180, R276, R38: the pass loop of SEARCH_ROM exactly, whatever the bus answers and however many passes it makes. The
search is a chain of passes that found an address and a last pass; the addresses stored are those found with a right
CRC, in order, and no other; RESULT counts them and the entries above keep their values. The search ends at a pass that
finds nothing, the abort of a later pass included, with NO_DEVICE when none was stored and else OK; or at an address with
a right CRC that finds CAP stored already, with TOO_MANY. An address with a bad CRC ends nothing. -/
def Obligations.SearchRomResultCountsTheList : Prop :=
  ∀ (x : BitVec 24) (s t : State) (cap : Nat), s.session = true → cap = (s.cfg.extractLsb' 16 8).toNat →
    cap ≤ s.params.addrlistDepth → s.addrlist.length = s.params.addrlistDepth → exec (.searchRom x) s = .next t →
    t.seq = .idle →
    ∃ (rs : List Pass) (last : Pass) (n : Nat),
      passChain s.phy { s.search with ld := 0#7, ldf := false } (rs ++ [last])
      ∧ (∀ r ∈ rs, r.found.isSome = true)
      ∧ n = (foundBy rs).length ∧ n ≤ cap
      ∧ t.addrlist.take n = foundBy rs ∧ t.addrlist.drop n = s.addrlist.drop n
      ∧ ((last.found = none ∧ t.status = if n = 0 then 0x02#8 else 0x00#8)
        ∨ (n = cap ∧ t.status = 0x04#8 ∧ ∃ rom, last.found = some rom ∧ crc8 (rom.toList.take 7) = rom[7]))
      ∧ t = { s with phy := last.phy, search := last.search, addrlist := t.addrlist, result := BitVec.ofNat 32 n,
                     status := t.status, seq := .idle }

/-- R180 to R182: on the reference static bus with distinct addresses, at most CAP of them with a right CRC, SEARCH_ROM
ends and has stored each of those exactly once, in increasing order of the number whose first digit is search position 1,
and none of the others. The bus is the model's reading of R67 (log entry 21). -/
def Obligations.SearchIsCompleteOnTheStaticBus : Prop :=
  ∀ (x : BitVec 24) (s t : State) (ds valid : List Device), s.session = true →
    (ds.map Device.rom).Nodup → valid = validDevices ds →
    valid.length ≤ (s.cfg.extractLsb' 16 8).toNat → (s.cfg.extractLsb' 16 8).toNat ≤ s.params.addrlistDepth →
    s.addrlist.length = s.params.addrlistDepth →
    exec (.searchRom x) s = .next t → onRefBus ds s.phy.trace.length t.phy.trace = true →
    t.seq = .idle ∧ t.status = (if valid.length = 0 then 0x02#8 else 0x00#8)
    ∧ t.result = BitVec.ofNat 32 valid.length
    ∧ (t.addrlist.take valid.length).Perm (valid.map Device.rom)
    ∧ (t.addrlist.take valid.length).Pairwise (fun a b => searchKey a < searchKey b)

/-- R180, R182: with more devices of right CRC than CAP the search ends with TOO_MANY. The bus is the model's reading of
R67 (log entry 21). -/
def Obligations.SearchReportsTooManyOnTheStaticBus : Prop :=
  ∀ (x : BitVec 24) (s t : State) (ds : List Device), s.session = true → (ds.map Device.rom).Nodup →
    (s.cfg.extractLsb' 16 8).toNat < (validDevices ds).length →
    (s.cfg.extractLsb' 16 8).toNat ≤ s.params.addrlistDepth →
    exec (.searchRom x) s = .next t → onRefBus ds s.phy.trace.length t.phy.trace = true →
    t.seq = .idle ∧ t.status = 0x04#8 ∧ t.result = BitVec.ofNat 32 (s.cfg.extractLsb' 16 8).toNat

/-! ## Status codes and what a command may write -/

/-- R121, R273: with no session, every command but INIT and CRC8 writes only STATUS and makes no event; CRC8 runs as
with a session, and INIT creates one. -/
def Obligations.NoSessionIsInvalidArg : Prop :=
  ∀ s : State, s.session = false →
    (∀ (i : Instr) (c : HostOp), i.hostOp = some c → c ≠ .init → c ≠ .crc8 →
      exec i s = .next { s with status := 0x01#8, seq := .idle })
    ∧ (∀ x : BitVec 24, ∃ t u, exec (.crc8 x) { s with session := true } = .next t
        ∧ exec (.crc8 x) s = .next { t with session := false }
        ∧ exec (.init x) s = .next u ∧ u.session = true)

/-- R272: the causes of INVALID_ARG among the 14 commands, exactly, and a command that ends so writes only STATUS. -/
def Obligations.InvalidArgHasExactlyItsCauses : Prop :=
  ∀ (i : Instr) (c : HostOp) (s t : State), i.hostOp = some c → exec i s = .next t → t.seq = .idle →
    (t.status = 0x01#8 ↔
      (s.session = false ∧ c ≠ .init ∧ c ≠ .crc8) ∨ (c = .init ∧ s.session = true)
      ∨ (c = .searchRom ∧ s.params.addrlistDepth < (s.cfg.extractLsb' 16 8).toNat)
      ∨ (c = .setResolution ∧ familyClass s.params s.addr[0] = .modern
          ∧ ((s.cfg.extractLsb' 8 8).toNat < 9 ∨ 12 < (s.cfg.extractLsb' 8 8).toNat))
      ∨ (c = .crc8 ∧ 9 < (s.cfg.extractLsb' 24 4).toNat))
    ∧ (t.status = 0x01#8 → t = { s with status := 0x01#8, seq := .idle })

/-- R122, R138, R283: every command answers a next state, and all but SEARCH_ROM end, whatever the bus answers. That a
search without an end is left running after more passes than any static bus needs is the model's form of R183 (log
entry 6). -/
def Obligations.EveryCommandEnds : Prop :=
  ∀ (i : Instr) (c : HostOp) (s : State), i.hostOp = some c →
    ∃ t, exec i s = .next t ∧ (c ≠ .searchRom → t.seq = .idle)

/-- R271: the codes each command can end with. -/
def Obligations.StatusCodesByCommand : Prop :=
  ∀ (i : Instr) (c : HostOp) (s t : State), i.hostOp = some c → exec i s = .next t → t.seq = .idle →
    t.status = 0x00#8 ∨ t.status = 0x01#8
    ∨ (t.status = 0x02#8 ∧ c ∈ [.readRom, .searchRom, .readPowerSupply, .readScratchpad, .writeScratchpad,
        .convertTemperature, .getTemperature, .getResolution, .setResolution])
    ∨ (t.status = 0x03#8 ∧ c ∈ [.readRom, .readScratchpad, .getTemperature, .getResolution, .setResolution])
    ∨ (t.status = 0x04#8 ∧ c = .searchRom)
    ∨ (t.status = 0x05#8 ∧ c ∈ [.getTemperature, .getResolution, .setResolution])

/-- R20, R22 to R24, R26, R28 to R30, R35 to R38, R42, R44, R213: no instruction writes a register but those the rules
name as its writers. -/
def Obligations.OnlyTheNamedCommandsWrite : Prop :=
  ∀ (i : Instr) (s t : State), exec i s = .next t →
    t.params = s.params ∧ t.addr = s.addr ∧ t.cfg = s.cfg ∧ t.inputs = s.inputs ∧ t.rdata = s.rdata
    ∧ (i.hostOp ∉ [some .init, some .destroy] → t.session = s.session)
    ∧ (i.hostOp ≠ some .init → t.phy.spuAvail = s.phy.spuAvail ∧ t.phy.spuPol = s.phy.spuPol ∧ t.phy.spuOe = s.phy.spuOe)
    ∧ (i.hostOp ∉ [some .init, some .readPowerSupply] → t.pwr = s.pwr)
    ∧ (i.hostOp ≠ some .searchRom → t.search = s.search ∧ t.addrlist = s.addrlist)
    ∧ (i.hostOp ≠ some .readRom → t.romid = s.romid)
    ∧ (i.hostOp ≠ some .getTemperature → t.temp = s.temp ∧ t.free = s.free)
    ∧ (i.hostOp ∉ [some .readScratchpad, some .convertDuration, some .getTemperature, some .getResolution,
        some .setResolution] → t.spbuf = s.spbuf)
    ∧ (i.hostOp ∉ [some .resetBus, some .searchRom, some .readPowerSupply, some .convertDuration,
        some .getResolution, some .crc8] → t.result = s.result)
    ∧ (i.hostOp = none → t.status = s.status ∧ (t.seq = s.seq
        ∨ ∃ op c ps ret, s.seq = .run op (.command c :: ps) ret ∧ t.seq = .run op ps .none))

/-- R25, R65, R279: every instruction leaves the line released if it found it so; then the line is low exactly when a
device drives it low, and else high, actively so while the strong pull-up is asserted. -/
def Obligations.TheLineIsLeftReleased : Prop :=
  ∀ (i : Instr) (s t : State), exec i s = .next t → s.phy.dqDrv = false →
    t.phy.dqDrv = false ∧ t.phy.lineLevel true = .low
    ∧ t.phy.lineLevel false = (if t.phy.spuAct = true ∧ t.phy.spuAvail = true then .heldHigh else .pulledHigh)

/-- R96, R97, R201, R202: the events of a command other than INIT's and DESTROY's pin events are whole transactions: a
ROM command byte only right after a reset with presence, a function command byte only right after ROM addressing, and
no other byte as a command; so Alarm Search is never sent. Only RESET_BUS stops after a reset with presence. -/
def Obligations.EveryTransactionIsFramed : Prop :=
  ∀ (i : Instr) (c : HostOp) (s t : State), i.hostOp = some c → exec i s = .next t →
    ∃ (pins : List Event) (txs : List (List Event)),
      t.phy.trace = (pins ++ txs.flatten).reverse ++ s.phy.trace
      ∧ (pins = [] ∨ (c = .init ∧ pins = [.act .release, .act .spuOff]) ∨ (c = .destroy ∧ pins = [.act .release]))
      ∧ ∀ tx ∈ txs, Transaction (if c = .init then Vector.replicate 8 0x00#8 else s.addr) tx
          ∨ (c = .resetBus ∧ ∃ k < 24, tx = resetEvents k)

/-- R139, R320: the waits of each command, in microseconds. A command that a check before any bus activity ends, DESTROY
and CRC8 make none; with no presence a command waits 960; else it waits its full time by its kind, target and family. A
search adds its passes up: 13160 for each pass that found an address, and the last pass's own time. What SET_RESOLUTION
waits where it ends early, and what an aborted pass waits, R320 does not list: it follows from R139. -/
def Obligations.CommandDurations : Prop :=
  (∀ (p : Phy) (f : Search) (time : Nat), busTime (findNext p f).phy.trace = busTime p.trace + time →
    (f.ldf = true → time = 0)
    ∧ (f.ldf = false →
      (p.follows (resetEvents 24) → time = 960)
      ∧ ((findNext p f).found.isSome = true → time = 13160)
      ∧ (∀ k < 24, p.follows (resetEvents k) → (findNext p f).found = none →
          ∃ m, 1 ≤ m ∧ m ≤ 64 ∧ time = 1448 + 183 * (m - 1) + 122)))
  ∧ ∀ (i : Instr) (c : HostOp) (s t : State) (p : Phy) (sel conv time : Nat),
    i.hostOp = some c → exec i s = .next t →
    sel = (if s.addr.toList.all (· == 0x00#8) then 1448 else 5352) →
    conv = (if s.cfg.getLsbD 2 then 750000 else 0) →
    p = (if c = .init then s.initSetup.phy else s.phy) →
    busTime t.phy.trace = busTime s.phy.trace + time →
    (s.opensWithReset c = false → time = 0)
    ∧ (s.opensWithReset c = true → c ≠ .searchRom →
      (p.follows (resetEvents 24) → time = 960)
      ∧ (∀ k < 24, p.follows (resetEvents k) →
        (c = .init → time = 1997)
        ∧ (c = .resetBus → time = 960)
        ∧ (c = .readRom → time = 5352)
        ∧ (c = .readPowerSupply → time = sel + 549)
        ∧ (c ∈ [.readScratchpad, .getTemperature, .convertDuration, .getResolution] → time = sel + 4880)
        ∧ (c = .writeScratchpad →
            time = sel + (if familyClass s.params s.addr[0] = .modern then 1952 else 1464))
        ∧ (c = .convertTemperature → time = sel + 488 + conv)
        ∧ (c = .setResolution →
            (t.status = 0x00#8 ∧ time = 2 * sel + 4880 + 1952) ∨ (t.status = 0x03#8 ∧ time = sel + 4880)
            ∨ (t.status = 0x02#8 ∧ time = sel + 4880 + 960))))
    ∧ (s.opensWithReset c = true → c = .searchRom → t.seq = .idle →
      ∃ (rs : List Pass) (q : Phy) (f : Search) (x : Nat),
        passChain s.phy { s.search with ld := 0#7, ldf := false } rs ∧ (∀ r ∈ rs, r.found.isSome = true)
        ∧ q = (rs.getLast?.map Pass.phy).getD s.phy
        ∧ f = (rs.getLast?.map Pass.search).getD { s.search with ld := 0#7, ldf := false }
        ∧ t.phy = (findNext q f).phy ∧ busTime t.phy.trace = busTime q.trace + x ∧ time = 13160 * rs.length + x)

/-! ## The sequencer -/

/-- R34, R63, R93, R120 to R122: the sequencer, moving line by line from a CMD write, reaches exactly the state that
the command's meaning gives, and the one that R93 gives for a reserved opcode; and from a line that sends a wire command
byte, the state that the wire row's meaning gives. -/
def Obligations.SequencerRunsTheMeaning : Prop :=
  (∀ (s : State) (w : Word),
    (∀ (i : Instr) (t : State), decode (.host w) = .ok i → exec i s = .next t →
      ∃ n, coreRun n (s.start (cmdOp w)) = .next t)
    ∧ ((w &&& 0xFF#32 = 0#32 ∨ 0x0F#32 ≤ w &&& 0xFF#32) →
      ∃ n, coreRun n (s.start (cmdOp w)) = .next { s with status := 0x01#8, seq := .idle }))
  ∧ ∀ (s t : State) (op : Byte) (c : WireCmd) (ps : List Point) (ret : Val),
      s.seq = .run op (.command c :: ps) ret → exec c.instr s = .next t → ∃ n, coreRun n s = .next t

/-- R108: a HOST that writes CMD and polls sees a command that ends as `exec` gives it, and the status register last. -/
def Obligations.WriteAndPollIsExec : Prop :=
  ∀ (s t : State) (w : Word) (i : Instr) (rest : List Input), s.seq = .idle →
    s.inputs = .write 0x000 32 w :: .poll :: rest → decode (.host w) = .ok i →
    exec i { s with inputs := rest } = .next t → t.seq = .idle →
    ∃ n, Sys2Proof.core.run n s = .next { t with rdata := t.stat }

/-- R34, R122: from any state whose SEQ is IDLE or at lines that run to a finish, no step faults, and the next state is
such a state again. How `SEQ` holds its point is the model's (log entry 18). -/
def Obligations.NoRunBreaksTheSequence : Prop :=
  ∀ s : State, s.SequenceSound →
    (∀ r : Fault, step s ≠ .fault r) ∧ ∀ t : State, step s = .next t → t.SequenceSound

/-- R9, R28, R29, R33, R38, R42, R105: the invariant of the machine, kept by every step. -/
def Obligations.EveryStepKeepsTheInvariant : Prop :=
  ∀ s t : State, s.Inv → step s = .next t → t.Inv

/-- The invariant holds at reset. -/
def Obligations.ResetMeetsTheInvariant : Prop := State.reset.Inv ∧ State.reset.SequenceSound

/-! ## The HOST's interface and reset -/

/-- R48, R300 to R302: RESET puts every register at its reset value, also in the middle of a command, releases the pins
and makes no event. What becomes of the model's own `draws`, `rdata` and `free` is not said. -/
def Obligations.ResetGivesTheResetValues : Prop :=
  ∀ (s : State) (rest : List Input), s.inputs = .reset :: rest →
    ∃ t, step s = .next t ∧ t =
      { params := s.params, session := false, pwr := s.params.pwrDefault
        phy := { spuAvail := false, spuPol := false, spuOe := false, spuAct := false, dqDrv := false, crc := 0x00#8,
                 shift := 0#8, bitcnt := 0#4, trace := s.phy.trace, draws := t.phy.draws }
        search := { ld := 0#7, ldf := false, sr := 0#64 }, seq := .idle
        addr := Vector.replicate 8 0#8, romid := Vector.replicate 8 0#8, spbuf := Vector.replicate 9 0#8
        addrlist := List.replicate s.params.addrlistDepth (Vector.replicate 8 0#8)
        cfg := 0#32, status := 0x00#8, result := 0#32, temp := 0#32
        inputs := rest, rdata := t.rdata, free := t.free }

/-- R40, R120: a CMD write to an idle block starts the command in the same step: BUSY is 1 and nothing else changed. -/
def Obligations.CmdWriteStartsTheCommand : Prop :=
  ∀ (s : State) (w : Word) (rest : List Input), s.seq = .idle → s.inputs = .write 0x000 32 w :: rest →
    ∃ t, step s = .next t ∧ t.busy = true ∧ t = { s with inputs := rest, seq := t.seq }
      ∧ ∃ ps ret, t.seq = .run (w.extractLsb' 0 8) ps ret

/-- R47: while BUSY is 1 a HOST write changes nothing. -/
def Obligations.WritesWhileBusyAreIgnored : Prop :=
  ∀ (s : State) (offset : Nat) (w : Word) (rest : List Input), s.busy = true → offset % 4 = 0 →
    s.inputs = .write offset 32 w :: rest → step s = .next { s with inputs := rest }

/-- R61: an access that is misaligned or not 32 bits wide is refused, busy or not. -/
def Obligations.BadAccessesAreRefused : Prop :=
  ∀ (s : State) (offset width : Nat) (w : Word) (rest : List Input), offset % 4 ≠ 0 ∨ width ≠ 32 →
    (s.inputs = .write offset width w :: rest → step s = .refused .badAccess)
    ∧ (s.inputs = .read offset width :: rest → step s = .refused .badAccess)

/-- R39, R42, R45, R46: what a write to an idle block's operand register stores, byte by byte, and what it leaves. -/
def Obligations.OperandWritesStoreTheirBytes : Prop :=
  ∀ (s : State) (w : Word) (rest : List Input) (offset : Nat), s.seq = .idle →
    s.inputs = .write offset 32 w :: rest →
    (offset = 0x008 → step s = .next { s with inputs := rest, cfg := w &&& 0x0FFFFF07#32 })
    ∧ (offset = 0x014 → step s = .next { s with inputs := rest, addr :=
        #v[w.extractLsb' 0 8, w.extractLsb' 8 8, w.extractLsb' 16 8, w.extractLsb' 24 8,
           s.addr[4], s.addr[5], s.addr[6], s.addr[7]] })
    ∧ (offset = 0x018 → step s = .next { s with inputs := rest, addr :=
        #v[s.addr[0], s.addr[1], s.addr[2], s.addr[3],
           w.extractLsb' 0 8, w.extractLsb' 8 8, w.extractLsb' 16 8, w.extractLsb' 24 8] })
    ∧ (offset = 0x024 → step s = .next { s with inputs := rest, spbuf :=
        #v[w.extractLsb' 0 8, w.extractLsb' 8 8, w.extractLsb' 16 8, w.extractLsb' 24 8,
           s.spbuf[4], s.spbuf[5], s.spbuf[6], s.spbuf[7], s.spbuf[8]] })
    ∧ (offset = 0x028 → step s = .next { s with inputs := rest, spbuf :=
        #v[s.spbuf[0], s.spbuf[1], s.spbuf[2], s.spbuf[3],
           w.extractLsb' 0 8, w.extractLsb' 8 8, w.extractLsb' 16 8, w.extractLsb' 24 8, s.spbuf[8]] })
    ∧ (offset = 0x02C → step s = .next { s with inputs := rest, spbuf := s.spbuf.set 8 (w.extractLsb' 0 8) })
    ∧ (offset % 4 = 0 → offset ∉ [0x000, 0x008, 0x014, 0x018, 0x024, 0x028, 0x02C] →
        step s = .next { s with inputs := rest })

/-- R39, R41, R43 to R46, R73: what a read of an idle block returns, and that it changes nothing in the block. -/
def Obligations.ReadsReturnTheRegisters : Prop :=
  ∀ (s : State) (rest : List Input) (offset : Nat), s.seq = .idle → s.inputs = .read offset 32 :: rest →
    offset % 4 = 0 →
    ∃ v : Word, step s = .next { s with inputs := rest, rdata := v }
      ∧ (offset = 0x000 → v = 0#32)
      ∧ (offset = 0x004 → v.getLsbD 0 = false ∧ v.getLsbD 1 = s.session ∧ v.getLsbD 2 = s.phy.spuAvail
          ∧ v.getLsbD 3 = s.phy.spuPol ∧ v.getLsbD 4 = s.phy.spuAct ∧ v.getLsbD 5 = s.pwr
          ∧ v.extractLsb' 6 2 = 0#2 ∧ v.extractLsb' 8 8 = s.status ∧ v.extractLsb' 16 16 = 0#16)
      ∧ (offset = 0x008 → v = s.cfg) ∧ (offset = 0x00C → v = s.result) ∧ (offset = 0x010 → v = s.temp)
      ∧ (offset = 0x014 → ∀ k : Fin 4, v.extractLsb' (8 * k.val) 8 = s.addr[k.val])
      ∧ (offset = 0x018 → ∀ k : Fin 4, v.extractLsb' (8 * k.val) 8 = s.addr[k.val + 4])
      ∧ (offset = 0x01C → ∀ k : Fin 4, v.extractLsb' (8 * k.val) 8 = s.romid[k.val])
      ∧ (offset = 0x020 → ∀ k : Fin 4, v.extractLsb' (8 * k.val) 8 = s.romid[k.val + 4])
      ∧ (offset = 0x024 → ∀ k : Fin 4, v.extractLsb' (8 * k.val) 8 = s.spbuf[k.val])
      ∧ (offset = 0x028 → ∀ k : Fin 4, v.extractLsb' (8 * k.val) 8 = s.spbuf[k.val + 4])
      ∧ (offset = 0x02C → v = s.spbuf[8].setWidth 32)
      ∧ (offset = 0x030 → v = 0x4F570001#32)
      ∧ (0x034 ≤ offset → offset < 0x100 → v = 0#32)
      ∧ (∀ (j : Nat) (rom : Rom), j < s.params.addrlistDepth → s.addrlist[j]? = some rom →
          (offset = 0x100 + 8 * j → ∀ k : Fin 4, v.extractLsb' (8 * k.val) 8 = rom[k.val])
          ∧ (offset = 0x104 + 8 * j → ∀ k : Fin 4, v.extractLsb' (8 * k.val) 8 = rom[k.val + 4]))
      ∧ (0x100 + 8 * s.params.addrlistDepth ≤ offset → v = 0#32)

/-- R41, R47, R72: a read while a command runs changes nothing in the block; STAT shows BUSY and still the previous
command's code; a register that the command cannot be writing reads its contents. Which reads are contested is the
model's reading of R72 (log entry 7). -/
def Obligations.ReadsWhileBusy : Prop :=
  ∀ (s : State) (op : Byte) (ps : List Point) (ret : Val) (rest : List Input) (offset : Nat),
    s.seq = .run op ps ret → s.inputs = .read offset 32 :: rest → offset % 4 = 0 →
    ∃ (v : Word) (n : Nat), step s = .next { s with inputs := rest, rdata := v, free := n }
      ∧ (offset = 0x004 → v.getLsbD 0 = true ∧ v.extractLsb' 8 8 = s.status ∧ v.getLsbD 1 = s.session)
      ∧ (offset = 0x008 → v = s.cfg)
      ∧ (offset = 0x014 → v = romLo s.addr) ∧ (offset = 0x018 → v = romHi s.addr)
      ∧ (offset = 0x010 → op ≠ 0x0B#8 → v = s.temp)
      ∧ (offset = 0x00C → op ∉ [0x03#8, 0x05#8, 0x06#8, 0x09#8, 0x0C#8, 0x0E#8] → v = s.result)

/-- R64, R282, R300: an idle block with no input waits: no event, no change. Whatever comes, an idle block makes no event
and stays idle but for a CMD write, which starts a command; EXEC's form of it (`cmd`) runs one whole. -/
def Obligations.IdleBlockWaits : Prop :=
  ∀ s : State, s.seq = .idle →
    (s.inputs = [] → step s = .next s)
    ∧ (∀ (x : Input) (rest : List Input) (t : State), s.inputs = x :: rest → (∀ w : Word, x ≠ .cmd w) →
        step s = .next t → t.phy.trace = s.phy.trace ∧ (t.seq = .idle ∨ ∃ w : Word, x = .write 0x000 32 w))

/-- R104: the default family table. -/
def Obligations.DefaultFamilies : Prop :=
  ∀ b : Byte, familyClass Config.params b
    = (if b = 0x10#8 then .legacy
       else if b = 0x22#8 ∨ b = 0x28#8 ∨ b = 0x3B#8 ∨ b = 0x42#8 then .modern else .unknown)

/-- R247: on the reference bus, SET_RESOLUTION(r) on a MODERN device and then GET_RESOLUTION on it gives RESULT = r, where
SET_RESOLUTION ended OK; and it does where the device's check byte is right. Skip ROM reaches every device at once, so
the sentinel is a device's address only where it is the only one. The bus is the model's reading of R67: a device keeps
its check byte right (log entry 21). -/
def Obligations.ResolutionRoundTripOnTheStaticBus : Prop :=
  ∀ (x y : BitVec 24) (s t u : State) (ds : List Device), s.session = true →
    (ds.map Device.rom).Nodup → familyClass s.params s.addr[0] = .modern →
    (∃ d ∈ ds, d.rom = s.addr ∧ d.legacy = false) → (s.addr = Vector.replicate 8 0x00#8 → ds.length = 1) →
    9 ≤ (s.cfg.extractLsb' 8 8).toNat → (s.cfg.extractLsb' 8 8).toNat ≤ 12 →
    (t.status = 0x00#8 ∨ ∀ d ∈ ds, d.rom = s.addr → crc8 (d.sp.toList.take 8) = d.sp[8]) →
    exec (.setResolution x) s = .next t → exec (.getResolution y) t = .next u →
    onRefBus ds s.phy.trace.length u.phy.trace = true →
    t.status = 0x00#8 ∧ u.status = 0x00#8 ∧ u.result = BitVec.ofNat 32 (s.cfg.extractLsb' 8 8).toNat
end

