-- ==== Sys2Proof/Laws/State.lean ====
section
/-! SUPPORT. One lemma per field per update: what each named update of `Phy`, `Search` and `State` leaves in each
field, so that no later proof unfolds a record update. -/

namespace Sys2Proof.Machine

@[simp] theorem Phy.act_spuAvail (p : Phy) (a : Act) : (p.act a).spuAvail = p.spuAvail := by cases a <;> rfl
@[simp] theorem Phy.act_spuPol (p : Phy) (a : Act) : (p.act a).spuPol = p.spuPol := by cases a <;> rfl
@[simp] theorem Phy.act_spuOe (p : Phy) (a : Act) : (p.act a).spuOe = p.spuOe := by cases a <;> rfl
@[simp] theorem Phy.act_crc (p : Phy) (a : Act) : (p.act a).crc = p.crc := by cases a <;> rfl
@[simp] theorem Phy.act_shift (p : Phy) (a : Act) : (p.act a).shift = p.shift := by cases a <;> rfl
@[simp] theorem Phy.act_bitcnt (p : Phy) (a : Act) : (p.act a).bitcnt = p.bitcnt := by cases a <;> rfl
@[simp] theorem Phy.act_draws (p : Phy) (a : Act) : (p.act a).draws = p.draws := by cases a <;> rfl
@[simp] theorem Phy.act_trace (p : Phy) (a : Act) : (p.act a).trace = .act a :: p.trace := by cases a <;> rfl
@[simp] theorem Phy.act_driveLow_dqDrv (p : Phy) : (p.act .driveLow).dqDrv = true := rfl
@[simp] theorem Phy.act_release_dqDrv (p : Phy) : (p.act .release).dqDrv = false := rfl
@[simp] theorem Phy.act_waitUs_dqDrv (p : Phy) (d : Nat) : (p.act (.waitUs d)).dqDrv = p.dqDrv := rfl
@[simp] theorem Phy.act_waitMs_dqDrv (p : Phy) (d : Nat) : (p.act (.waitMs d)).dqDrv = p.dqDrv := rfl
@[simp] theorem Phy.act_spuOn_dqDrv (p : Phy) : (p.act .spuOn).dqDrv = p.dqDrv := rfl
@[simp] theorem Phy.act_spuOff_dqDrv (p : Phy) : (p.act .spuOff).dqDrv = p.dqDrv := rfl
@[simp] theorem Phy.act_driveLow_spuAct (p : Phy) : (p.act .driveLow).spuAct = p.spuAct := rfl
@[simp] theorem Phy.act_release_spuAct (p : Phy) : (p.act .release).spuAct = p.spuAct := rfl
@[simp] theorem Phy.act_waitUs_spuAct (p : Phy) (d : Nat) : (p.act (.waitUs d)).spuAct = p.spuAct := rfl
@[simp] theorem Phy.act_waitMs_spuAct (p : Phy) (d : Nat) : (p.act (.waitMs d)).spuAct = p.spuAct := rfl
@[simp] theorem Phy.act_spuOn_spuAct (p : Phy) : (p.act .spuOn).spuAct = (p.spuAct || p.spuAvail) := rfl
@[simp] theorem Phy.act_spuOff_spuAct (p : Phy) : (p.act .spuOff).spuAct = (p.spuAct && !p.spuAvail) := rfl

@[simp] theorem Phy.sampled_spuAvail (p : Phy) (b : Bool) : (p.sampled b).spuAvail = p.spuAvail := rfl
@[simp] theorem Phy.sampled_spuPol (p : Phy) (b : Bool) : (p.sampled b).spuPol = p.spuPol := rfl
@[simp] theorem Phy.sampled_spuOe (p : Phy) (b : Bool) : (p.sampled b).spuOe = p.spuOe := rfl
@[simp] theorem Phy.sampled_spuAct (p : Phy) (b : Bool) : (p.sampled b).spuAct = p.spuAct := rfl
@[simp] theorem Phy.sampled_dqDrv (p : Phy) (b : Bool) : (p.sampled b).dqDrv = p.dqDrv := rfl
@[simp] theorem Phy.sampled_crc (p : Phy) (b : Bool) : (p.sampled b).crc = p.crc := rfl
@[simp] theorem Phy.sampled_shift (p : Phy) (b : Bool) : (p.sampled b).shift = p.shift := rfl
@[simp] theorem Phy.sampled_bitcnt (p : Phy) (b : Bool) : (p.sampled b).bitcnt = p.bitcnt := rfl
@[simp] theorem Phy.sampled_trace (p : Phy) (b : Bool) : (p.sampled b).trace = .sample b :: p.trace := rfl
@[simp] theorem Phy.sampled_draws (p : Phy) (b : Bool) : (p.sampled b).draws = p.draws.tail := rfl

@[simp] theorem Phy.crcByte_spuAvail (p : Phy) (b : Byte) : (p.crcByte b).spuAvail = p.spuAvail := rfl
@[simp] theorem Phy.crcByte_spuPol (p : Phy) (b : Byte) : (p.crcByte b).spuPol = p.spuPol := rfl
@[simp] theorem Phy.crcByte_spuOe (p : Phy) (b : Byte) : (p.crcByte b).spuOe = p.spuOe := rfl
@[simp] theorem Phy.crcByte_spuAct (p : Phy) (b : Byte) : (p.crcByte b).spuAct = p.spuAct := rfl
@[simp] theorem Phy.crcByte_dqDrv (p : Phy) (b : Byte) : (p.crcByte b).dqDrv = p.dqDrv := rfl
@[simp] theorem Phy.crcByte_crc (p : Phy) (b : Byte) : (p.crcByte b).crc = crcTable (p.crc ^^^ b) := rfl
@[simp] theorem Phy.crcByte_shift (p : Phy) (b : Byte) : (p.crcByte b).shift = p.shift := rfl
@[simp] theorem Phy.crcByte_bitcnt (p : Phy) (b : Byte) : (p.crcByte b).bitcnt = p.bitcnt := rfl
@[simp] theorem Phy.crcByte_trace (p : Phy) (b : Byte) : (p.crcByte b).trace = p.trace := rfl
@[simp] theorem Phy.crcByte_draws (p : Phy) (b : Byte) : (p.crcByte b).draws = p.draws := rfl

@[simp] theorem Phy.shiftIn_spuAvail (p : Phy) (b : Bool) : (p.shiftIn b).spuAvail = p.spuAvail := rfl
@[simp] theorem Phy.shiftIn_spuPol (p : Phy) (b : Bool) : (p.shiftIn b).spuPol = p.spuPol := rfl
@[simp] theorem Phy.shiftIn_spuOe (p : Phy) (b : Bool) : (p.shiftIn b).spuOe = p.spuOe := rfl
@[simp] theorem Phy.shiftIn_spuAct (p : Phy) (b : Bool) : (p.shiftIn b).spuAct = p.spuAct := rfl
@[simp] theorem Phy.shiftIn_dqDrv (p : Phy) (b : Bool) : (p.shiftIn b).dqDrv = p.dqDrv := rfl
@[simp] theorem Phy.shiftIn_crc (p : Phy) (b : Bool) : (p.shiftIn b).crc = p.crc := rfl
@[simp] theorem Phy.shiftIn_shift (p : Phy) (b : Bool) : (p.shiftIn b).shift = (p.shift >>> 1 ||| if b then 0x80#8 else 0#8) := rfl
@[simp] theorem Phy.shiftIn_bitcnt (p : Phy) (b : Bool) : (p.shiftIn b).bitcnt = p.bitcnt := rfl
@[simp] theorem Phy.shiftIn_trace (p : Phy) (b : Bool) : (p.shiftIn b).trace = p.trace := rfl
@[simp] theorem Phy.shiftIn_draws (p : Phy) (b : Bool) : (p.shiftIn b).draws = p.draws := rfl

@[simp] theorem Search.clear_ld (f : Search) : f.clear.ld = 0#7 := rfl
@[simp] theorem Search.clear_ldf (f : Search) : f.clear.ldf = false := rfl
@[simp] theorem Search.clear_sr (f : Search) : f.clear.sr = f.sr := rfl
@[simp] theorem Search.setBit_ld (f : Search) (n : Nat) (dir : Bool) : (f.setBit n dir).ld = f.ld := rfl
@[simp] theorem Search.setBit_ldf (f : Search) (n : Nat) (dir : Bool) : (f.setBit n dir).ldf = f.ldf := rfl
@[simp] theorem Search.setBit_sr (f : Search) (n : Nat) (dir : Bool) : (f.setBit n dir).sr = srSet f.sr n dir := rfl
@[simp] theorem Search.close_ld (f : Search) (lz : Nat) : (f.close lz).ld = BitVec.ofNat 7 lz := rfl
@[simp] theorem Search.close_ldf (f : Search) (lz : Nat) : (f.close lz).ldf = (BitVec.ofNat 7 lz == 0#7) := rfl
@[simp] theorem Search.setLd_ld (f : Search) (lz : Nat) : (f.setLd lz).ld = BitVec.ofNat 7 lz := rfl
@[simp] theorem Search.setLd_ldf (f : Search) (lz : Nat) : (f.setLd lz).ldf = f.ldf := rfl
@[simp] theorem Search.setLd_sr (f : Search) (lz : Nat) : (f.setLd lz).sr = f.sr := rfl
@[simp] theorem Search.setLdf_ld (f : Search) : f.setLdf.ld = f.ld := rfl
@[simp] theorem Search.setLdf_ldf (f : Search) : f.setLdf.ldf = (f.ld == 0#7) := rfl
@[simp] theorem Search.setLdf_sr (f : Search) : f.setLdf.sr = f.sr := rfl
@[simp] theorem Search.close_sr (f : Search) (lz : Nat) : (f.close lz).sr = f.sr := rfl

@[simp] theorem State.finish_params (s : State) (st : Status) : (s.finish st).params = s.params := rfl
@[simp] theorem State.finish_session (s : State) (st : Status) : (s.finish st).session = s.session := rfl
@[simp] theorem State.finish_pwr (s : State) (st : Status) : (s.finish st).pwr = s.pwr := rfl
@[simp] theorem State.finish_phy (s : State) (st : Status) : (s.finish st).phy = s.phy := rfl
@[simp] theorem State.finish_search (s : State) (st : Status) : (s.finish st).search = s.search := rfl
@[simp] theorem State.finish_seq (s : State) (st : Status) : (s.finish st).seq = .idle := rfl
@[simp] theorem State.finish_addr (s : State) (st : Status) : (s.finish st).addr = s.addr := rfl
@[simp] theorem State.finish_romid (s : State) (st : Status) : (s.finish st).romid = s.romid := rfl
@[simp] theorem State.finish_spbuf (s : State) (st : Status) : (s.finish st).spbuf = s.spbuf := rfl
@[simp] theorem State.finish_addrlist (s : State) (st : Status) : (s.finish st).addrlist = s.addrlist := rfl
@[simp] theorem State.finish_cfg (s : State) (st : Status) : (s.finish st).cfg = s.cfg := rfl
@[simp] theorem State.finish_status (s : State) (st : Status) : (s.finish st).status = statusCode st := rfl
@[simp] theorem State.finish_result (s : State) (st : Status) : (s.finish st).result = s.result := rfl
@[simp] theorem State.finish_temp (s : State) (st : Status) : (s.finish st).temp = s.temp := rfl
@[simp] theorem State.finish_inputs (s : State) (st : Status) : (s.finish st).inputs = s.inputs := rfl
@[simp] theorem State.finish_rdata (s : State) (st : Status) : (s.finish st).rdata = s.rdata := rfl
@[simp] theorem State.finish_free (s : State) (st : Status) : (s.finish st).free = s.free := rfl

@[simp] theorem State.withPhy_params (s : State) (p : Phy) : (s.withPhy p).params = s.params := rfl
@[simp] theorem State.withPhy_session (s : State) (p : Phy) : (s.withPhy p).session = s.session := rfl
@[simp] theorem State.withPhy_pwr (s : State) (p : Phy) : (s.withPhy p).pwr = s.pwr := rfl
@[simp] theorem State.withPhy_phy (s : State) (p : Phy) : (s.withPhy p).phy = p := rfl
@[simp] theorem State.withPhy_search (s : State) (p : Phy) : (s.withPhy p).search = s.search := rfl
@[simp] theorem State.withPhy_seq (s : State) (p : Phy) : (s.withPhy p).seq = s.seq := rfl
@[simp] theorem State.withPhy_addr (s : State) (p : Phy) : (s.withPhy p).addr = s.addr := rfl
@[simp] theorem State.withPhy_romid (s : State) (p : Phy) : (s.withPhy p).romid = s.romid := rfl
@[simp] theorem State.withPhy_spbuf (s : State) (p : Phy) : (s.withPhy p).spbuf = s.spbuf := rfl
@[simp] theorem State.withPhy_addrlist (s : State) (p : Phy) : (s.withPhy p).addrlist = s.addrlist := rfl
@[simp] theorem State.withPhy_cfg (s : State) (p : Phy) : (s.withPhy p).cfg = s.cfg := rfl
@[simp] theorem State.withPhy_status (s : State) (p : Phy) : (s.withPhy p).status = s.status := rfl
@[simp] theorem State.withPhy_result (s : State) (p : Phy) : (s.withPhy p).result = s.result := rfl
@[simp] theorem State.withPhy_temp (s : State) (p : Phy) : (s.withPhy p).temp = s.temp := rfl
@[simp] theorem State.withPhy_inputs (s : State) (p : Phy) : (s.withPhy p).inputs = s.inputs := rfl
@[simp] theorem State.withPhy_rdata (s : State) (p : Phy) : (s.withPhy p).rdata = s.rdata := rfl
@[simp] theorem State.withPhy_free (s : State) (p : Phy) : (s.withPhy p).free = s.free := rfl

@[simp] theorem State.withPass_params (s : State) (r : Pass) : (s.withPass r).params = s.params := rfl
@[simp] theorem State.withPass_session (s : State) (r : Pass) : (s.withPass r).session = s.session := rfl
@[simp] theorem State.withPass_pwr (s : State) (r : Pass) : (s.withPass r).pwr = s.pwr := rfl
@[simp] theorem State.withPass_phy (s : State) (r : Pass) : (s.withPass r).phy = r.phy := rfl
@[simp] theorem State.withPass_search (s : State) (r : Pass) : (s.withPass r).search = r.search := rfl
@[simp] theorem State.withPass_seq (s : State) (r : Pass) : (s.withPass r).seq = s.seq := rfl
@[simp] theorem State.withPass_addr (s : State) (r : Pass) : (s.withPass r).addr = s.addr := rfl
@[simp] theorem State.withPass_romid (s : State) (r : Pass) : (s.withPass r).romid = s.romid := rfl
@[simp] theorem State.withPass_spbuf (s : State) (r : Pass) : (s.withPass r).spbuf = s.spbuf := rfl
@[simp] theorem State.withPass_addrlist (s : State) (r : Pass) : (s.withPass r).addrlist = s.addrlist := rfl
@[simp] theorem State.withPass_cfg (s : State) (r : Pass) : (s.withPass r).cfg = s.cfg := rfl
@[simp] theorem State.withPass_status (s : State) (r : Pass) : (s.withPass r).status = s.status := rfl
@[simp] theorem State.withPass_result (s : State) (r : Pass) : (s.withPass r).result = s.result := rfl
@[simp] theorem State.withPass_temp (s : State) (r : Pass) : (s.withPass r).temp = s.temp := rfl
@[simp] theorem State.withPass_inputs (s : State) (r : Pass) : (s.withPass r).inputs = s.inputs := rfl
@[simp] theorem State.withPass_rdata (s : State) (r : Pass) : (s.withPass r).rdata = s.rdata := rfl
@[simp] theorem State.withPass_free (s : State) (r : Pass) : (s.withPass r).free = s.free := rfl

@[simp] theorem State.start_params (s : State) (op : Byte) : (s.start op).params = s.params := rfl
@[simp] theorem State.start_session (s : State) (op : Byte) : (s.start op).session = s.session := rfl
@[simp] theorem State.start_pwr (s : State) (op : Byte) : (s.start op).pwr = s.pwr := rfl
@[simp] theorem State.start_phy (s : State) (op : Byte) : (s.start op).phy = s.phy := rfl
@[simp] theorem State.start_search (s : State) (op : Byte) : (s.start op).search = s.search := rfl
@[simp] theorem State.start_seq (s : State) (op : Byte) : (s.start op).seq = .run op [.prologue] .none := rfl
@[simp] theorem State.start_addr (s : State) (op : Byte) : (s.start op).addr = s.addr := rfl
@[simp] theorem State.start_romid (s : State) (op : Byte) : (s.start op).romid = s.romid := rfl
@[simp] theorem State.start_spbuf (s : State) (op : Byte) : (s.start op).spbuf = s.spbuf := rfl
@[simp] theorem State.start_addrlist (s : State) (op : Byte) : (s.start op).addrlist = s.addrlist := rfl
@[simp] theorem State.start_cfg (s : State) (op : Byte) : (s.start op).cfg = s.cfg := rfl
@[simp] theorem State.start_status (s : State) (op : Byte) : (s.start op).status = s.status := rfl
@[simp] theorem State.start_result (s : State) (op : Byte) : (s.start op).result = s.result := rfl
@[simp] theorem State.start_temp (s : State) (op : Byte) : (s.start op).temp = s.temp := rfl
@[simp] theorem State.start_inputs (s : State) (op : Byte) : (s.start op).inputs = s.inputs := rfl
@[simp] theorem State.start_rdata (s : State) (op : Byte) : (s.start op).rdata = s.rdata := rfl
@[simp] theorem State.start_free (s : State) (op : Byte) : (s.start op).free = s.free := rfl

@[simp] theorem State.hardReset_params (s : State) : s.hardReset.params = s.params := rfl
@[simp] theorem State.hardReset_inputs (s : State) : s.hardReset.inputs = s.inputs := rfl
@[simp] theorem State.hardReset_rdata (s : State) : s.hardReset.rdata = s.rdata := rfl
@[simp] theorem State.hardReset_free (s : State) : s.hardReset.free = s.free := rfl
@[simp] theorem State.hardReset_session (s : State) : s.hardReset.session = false := rfl
@[simp] theorem State.hardReset_pwr (s : State) : s.hardReset.pwr = s.params.pwrDefault := rfl
@[simp] theorem State.hardReset_seq (s : State) : s.hardReset.seq = .idle := rfl
@[simp] theorem State.hardReset_cfg (s : State) : s.hardReset.cfg = 0#32 := rfl
@[simp] theorem State.hardReset_status (s : State) : s.hardReset.status = 0#8 := rfl
@[simp] theorem State.hardReset_result (s : State) : s.hardReset.result = 0#32 := rfl
@[simp] theorem State.hardReset_temp (s : State) : s.hardReset.temp = 0#32 := rfl
@[simp] theorem State.hardReset_addrlist (s : State) : s.hardReset.addrlist = List.replicate s.params.addrlistDepth (Vector.replicate 8 0#8) := rfl

@[simp] theorem State.writeTemp_params (s : State) : s.writeTemp.params = s.params := by
  unfold State.writeTemp
  split
  · split <;> rfl
  · rfl
@[simp] theorem State.writeTemp_session (s : State) : s.writeTemp.session = s.session := by
  unfold State.writeTemp
  split
  · split <;> rfl
  · rfl
@[simp] theorem State.writeTemp_pwr (s : State) : s.writeTemp.pwr = s.pwr := by
  unfold State.writeTemp
  split
  · split <;> rfl
  · rfl
@[simp] theorem State.writeTemp_phy (s : State) : s.writeTemp.phy = s.phy := by
  unfold State.writeTemp
  split
  · split <;> rfl
  · rfl
@[simp] theorem State.writeTemp_search (s : State) : s.writeTemp.search = s.search := by
  unfold State.writeTemp
  split
  · split <;> rfl
  · rfl
@[simp] theorem State.writeTemp_seq (s : State) : s.writeTemp.seq = s.seq := by
  unfold State.writeTemp
  split
  · split <;> rfl
  · rfl
@[simp] theorem State.writeTemp_addr (s : State) : s.writeTemp.addr = s.addr := by
  unfold State.writeTemp
  split
  · split <;> rfl
  · rfl
@[simp] theorem State.writeTemp_romid (s : State) : s.writeTemp.romid = s.romid := by
  unfold State.writeTemp
  split
  · split <;> rfl
  · rfl
@[simp] theorem State.writeTemp_spbuf (s : State) : s.writeTemp.spbuf = s.spbuf := by
  unfold State.writeTemp
  split
  · split <;> rfl
  · rfl
@[simp] theorem State.writeTemp_addrlist (s : State) : s.writeTemp.addrlist = s.addrlist := by
  unfold State.writeTemp
  split
  · split <;> rfl
  · rfl
@[simp] theorem State.writeTemp_cfg (s : State) : s.writeTemp.cfg = s.cfg := by
  unfold State.writeTemp
  split
  · split <;> rfl
  · rfl
@[simp] theorem State.writeTemp_status (s : State) : s.writeTemp.status = s.status := by
  unfold State.writeTemp
  split
  · split <;> rfl
  · rfl
@[simp] theorem State.writeTemp_result (s : State) : s.writeTemp.result = s.result := by
  unfold State.writeTemp
  split
  · split <;> rfl
  · rfl
@[simp] theorem State.writeTemp_inputs (s : State) : s.writeTemp.inputs = s.inputs := by
  unfold State.writeTemp
  split
  · split <;> rfl
  · rfl
@[simp] theorem State.writeTemp_rdata (s : State) : s.writeTemp.rdata = s.rdata := by
  unfold State.writeTemp
  split
  · split <;> rfl
  · rfl

/-- What a wire command row does: at its line the byte goes out and the line is done, elsewhere nothing happens. -/
theorem State.sendCommand_cases (s : State) (c : WireCmd) :
    (∃ op rest ret, s.seq = .run op (.command c :: rest) ret
      ∧ s.sendCommand c = { s with phy := s.phy.sendWire c, seq := .run op rest .none })
    ∨ ((∀ op rest ret, s.seq ≠ .run op (.command c :: rest) ret) ∧ s.sendCommand c = s) := by
  unfold State.sendCommand
  split
  · next op c' rest ret h =>
    by_cases hc : c' = c
    · subst hc
      exact .inl ⟨op, rest, ret, h, if_pos rfl⟩
    · refine .inr ⟨fun op' rest' ret' h' => hc ?_, if_neg hc⟩
      rw [h] at h'
      simp only [Seq.run.injEq, List.cons.injEq, Point.command.injEq] at h'
      exact h'.2.1.1
  · next hn h => exact .inr ⟨fun op rest ret h' => by rw [h] at h'; cases h'; exact hn _ _ rfl, rfl⟩
  · next h => exact .inr ⟨fun op rest ret h' => (by rw [h] at h'; cases h'), rfl⟩

end Sys2Proof.Machine
end

