-- ==== Sys2Proof/Laws/Bus.lean ====
section
/-! SUPPORT. The bus side along events: how `after` and `follows` compose, that some events always follow, and one
specification lemma per operation of Ops: along the events it names, it is `after`, with the framer's and the CRC
generator's registers set. -/

namespace Sys2Proof.Machine

/-- The bus side with other datapath registers. -/
def Phy.withRegs (p : Phy) (c sh : Byte) (n : BitVec 4) : Phy := { p with crc := c, shift := sh, bitcnt := n }

@[simp] theorem Phy.withRegs_crc (p : Phy) (c sh : Byte) (n : BitVec 4) : (p.withRegs c sh n).crc = c := rfl
@[simp] theorem Phy.withRegs_shift (p : Phy) (c sh : Byte) (n : BitVec 4) : (p.withRegs c sh n).shift = sh := rfl
@[simp] theorem Phy.withRegs_bitcnt (p : Phy) (c sh : Byte) (n : BitVec 4) : (p.withRegs c sh n).bitcnt = n := rfl
@[simp] theorem Phy.withRegs_spuAvail (p : Phy) (c sh : Byte) (n : BitVec 4) : (p.withRegs c sh n).spuAvail = p.spuAvail := rfl
@[simp] theorem Phy.withRegs_spuPol (p : Phy) (c sh : Byte) (n : BitVec 4) : (p.withRegs c sh n).spuPol = p.spuPol := rfl
@[simp] theorem Phy.withRegs_spuOe (p : Phy) (c sh : Byte) (n : BitVec 4) : (p.withRegs c sh n).spuOe = p.spuOe := rfl
@[simp] theorem Phy.withRegs_spuAct (p : Phy) (c sh : Byte) (n : BitVec 4) : (p.withRegs c sh n).spuAct = p.spuAct := rfl
@[simp] theorem Phy.withRegs_dqDrv (p : Phy) (c sh : Byte) (n : BitVec 4) : (p.withRegs c sh n).dqDrv = p.dqDrv := rfl
@[simp] theorem Phy.withRegs_trace (p : Phy) (c sh : Byte) (n : BitVec 4) : (p.withRegs c sh n).trace = p.trace := rfl
@[simp] theorem Phy.withRegs_draws (p : Phy) (c sh : Byte) (n : BitVec 4) : (p.withRegs c sh n).draws = p.draws := rfl
@[simp] theorem Phy.withRegs_withRegs (p : Phy) (c sh c' sh' : Byte) (n n' : BitVec 4) :
    (p.withRegs c sh n).withRegs c' sh' n' = p.withRegs c' sh' n' := rfl
@[simp] theorem Phy.withRegs_answer (p : Phy) (c sh : Byte) (n : BitVec 4) :
    (p.withRegs c sh n).answer = p.answer := rfl
@[simp] theorem Phy.withRegs_act (p : Phy) (c sh : Byte) (n : BitVec 4) (a : Act) :
    (p.withRegs c sh n).act a = (p.act a).withRegs c sh n := by cases a <;> rfl
@[simp] theorem Phy.withRegs_sampled (p : Phy) (c sh : Byte) (n : BitVec 4) (b : Bool) :
    (p.withRegs c sh n).sampled b = (p.sampled b).withRegs c sh n := rfl
theorem Phy.withRegs_self (p : Phy) : p.withRegs p.crc p.shift p.bitcnt = p := rfl
@[simp] theorem Phy.withRegs_masked (p : Phy) (c sh : Byte) (n : BitVec 4) :
    (p.withRegs c sh n).masked = p.masked.withRegs c 0#8 0#4 := rfl
@[simp] theorem Phy.masked_masked (p : Phy) : p.masked.masked = p.masked := rfl
@[simp] theorem Phy.masked_act (p : Phy) (a : Act) : (p.act a).masked = p.masked.act a := by cases a <;> rfl

/-! ## `after` and `follows` -/

@[simp] theorem Phy.after_nil (p : Phy) : p.after [] = p := rfl
@[simp] theorem Phy.after_act (p : Phy) (a : Act) (es : List Event) :
    p.after (.act a :: es) = (p.act a).after es := rfl
@[simp] theorem Phy.after_sample (p : Phy) (b : Bool) (es : List Event) :
    p.after (.sample b :: es) = (p.sampled b).after es := rfl
theorem Phy.after_append (p : Phy) (es fs : List Event) : p.after (es ++ fs) = (p.after es).after fs :=
  List.foldl_append ..
@[simp] theorem Phy.follows_nil (p : Phy) : p.follows [] := True.intro
@[simp] theorem Phy.follows_act (p : Phy) (a : Act) (es : List Event) :
    p.follows (.act a :: es) ↔ (p.act a).follows es := Iff.rfl
@[simp] theorem Phy.follows_sample (p : Phy) (b : Bool) (es : List Event) :
    p.follows (.sample b :: es) ↔ b = p.answer ∧ (p.sampled b).follows es := Iff.rfl

theorem Phy.follows_append (p : Phy) (es fs : List Event) :
    p.follows (es ++ fs) ↔ p.follows es ∧ (p.after es).follows fs := by
  induction es generalizing p with
  | nil => simp
  | cons e es ih =>
    cases e with
    | act a => simp [ih]
    | sample b => simp [ih, and_assoc]

@[simp] theorem Phy.after_withRegs (p : Phy) (c sh : Byte) (n : BitVec 4) (es : List Event) :
    (p.withRegs c sh n).after es = (p.after es).withRegs c sh n := by
  induction es generalizing p with
  | nil => rfl
  | cons e es ih => cases e <;> simp [ih]

@[simp] theorem Phy.follows_withRegs (p : Phy) (c sh : Byte) (n : BitVec 4) (es : List Event) :
    (p.withRegs c sh n).follows es ↔ p.follows es := by
  induction es generalizing p with
  | nil => rfl
  | cons e es ih => cases e <;> simp [ih]

@[simp] theorem Phy.after_crc (p : Phy) (es : List Event) : (p.after es).crc = p.crc := by
  induction es generalizing p with
  | nil => rfl
  | cons e es ih => cases e <;> simp [ih]
@[simp] theorem Phy.after_shift (p : Phy) (es : List Event) : (p.after es).shift = p.shift := by
  induction es generalizing p with
  | nil => rfl
  | cons e es ih => cases e <;> simp [ih]
@[simp] theorem Phy.after_bitcnt (p : Phy) (es : List Event) : (p.after es).bitcnt = p.bitcnt := by
  induction es generalizing p with
  | nil => rfl
  | cons e es ih => cases e <;> simp [ih]
@[simp] theorem Phy.after_spuAvail (p : Phy) (es : List Event) : (p.after es).spuAvail = p.spuAvail := by
  induction es generalizing p with
  | nil => rfl
  | cons e es ih => cases e <;> simp [ih]
@[simp] theorem Phy.after_spuPol (p : Phy) (es : List Event) : (p.after es).spuPol = p.spuPol := by
  induction es generalizing p with
  | nil => rfl
  | cons e es ih => cases e <;> simp [ih]
@[simp] theorem Phy.after_spuOe (p : Phy) (es : List Event) : (p.after es).spuOe = p.spuOe := by
  induction es generalizing p with
  | nil => rfl
  | cons e es ih => cases e <;> simp [ih]

/-- The history after events: they stand before the older ones, newest first (R63). -/
@[simp] theorem Phy.after_trace (p : Phy) (es : List Event) : (p.after es).trace = es.reverse ++ p.trace := by
  induction es generalizing p with
  | nil => rfl
  | cons e es ih => cases e <;> simp [ih]

theorem Phy.after_masked (p : Phy) (es : List Event) : (p.after es).masked = p.masked.after es := by
  have h := Phy.after_withRegs p p.crc 0#8 0#4 es
  exact (show (p.after es).masked = (p.after es).withRegs p.crc 0#8 0#4 by
    simp [Phy.masked, Phy.withRegs]) |>.trans h.symm

theorem Phy.acts_eq (p : Phy) (as : List Act) : p.acts as = p.after (as.map .act) := by
  induction as generalizing p with
  | nil => rfl
  | cons a as ih => exact ih (p.act a)

@[simp] theorem Phy.follows_acts (p : Phy) (as : List Act) : p.follows (as.map .act) := by
  induction as generalizing p with
  | nil => exact True.intro
  | cons a as ih => exact ih (p.act a)

/-! ## Slots (R131, R133) -/

theorem Phy.writeBit_eq (p : Phy) (b : Bool) : p.writeBit b = p.after (writeBitEvents b) := by
  cases b <;> rfl

@[simp] theorem Phy.follows_writeBit (p : Phy) (b : Bool) : p.follows (writeBitEvents b) := by
  cases b <;> simp [writeBitEvents]

/-- The bus side at a read slot's sample. -/
def Phy.atSample (p : Phy) : Phy := p.acts readSlotOpen

theorem Phy.readBit_eq (p : Phy) : p.readBit = (p.atSample.answer, p.after (readBitEvents p.atSample.answer)) := rfl

theorem Phy.follows_readBit (p : Phy) (b : Bool) : p.follows (readBitEvents b) ↔ b = p.atSample.answer := by
  have h : p.follows (readBitEvents b) ↔ b = p.atSample.answer ∧ True := Iff.rfl
  simpa using h

theorem Phy.readBit_of_follows {p : Phy} {b : Bool} (h : p.follows (readBitEvents b)) :
    p.readBit = (b, p.after (readBitEvents b)) := by
  rw [Phy.follows_readBit] at h
  rw [Phy.readBit_eq, ← h]

/-! ## Bytes (R135 to R137) -/

theorem writeEvents_append (as bs : List Byte) : writeEvents (as ++ bs) = writeEvents as ++ writeEvents bs := by
  simp [writeEvents]
theorem readEvents_append (as bs : List Byte) : readEvents (as ++ bs) = readEvents as ++ readEvents bs := by
  simp [readEvents]
@[simp] theorem writeEvents_nil : writeEvents [] = [] := rfl
@[simp] theorem readEvents_nil : readEvents [] = [] := rfl
theorem writeEvents_cons (v : Byte) (bs : List Byte) : writeEvents (v :: bs) = writeEvents [v] ++ writeEvents bs :=
  writeEvents_append [v] bs
theorem readEvents_cons (v : Byte) (bs : List Byte) : readEvents (v :: bs) = readEvents [v] ++ readEvents bs :=
  readEvents_append [v] bs

@[simp] theorem Phy.follows_writeBits (p : Phy) (bs : List Bool) : p.follows (bs.flatMap writeBitEvents) := by
  induction bs generalizing p with
  | nil => exact True.intro
  | cons b bs ih => simp [Phy.follows_append, ih]

@[simp] theorem Phy.follows_writeEvents (p : Phy) (bs : List Byte) : p.follows (writeEvents bs) := by
  induction bs generalizing p with
  | nil => exact True.intro
  | cons v bs ih =>
    rw [writeEvents_cons, Phy.follows_append]
    exact ⟨by simp [writeEvents], ih _⟩

/-- The bits a loop of k slots takes from a shift register, in order. -/
def lowBits : Nat → Byte → List Bool
  | 0, _ => []
  | k + 1, v => v.getLsbD 0 :: lowBits k (v >>> 1)

theorem lowBits_eight (v : Byte) : lowBits 8 v = bitsOf v := by
  simp [lowBits, bitsOf]

theorem Phy.writeLoop_succ (k : Nat) (p : Phy) :
    Phy.writeLoop (k + 1) p
      = Phy.writeLoop k ((p.after (writeBitEvents (p.shift.getLsbD 0))).withRegs p.crc (p.shift >>> 1)
          (BitVec.ofNat 4 (8 - (k + 1)))) := by
  have e : ({ p with bitcnt := BitVec.ofNat 4 (8 - (k + 1)) } : Phy)
      = p.withRegs p.crc p.shift (BitVec.ofNat 4 (8 - (k + 1))) := rfl
  have f (q : Phy) : ({ q with shift := q.shift >>> 1 } : Phy) = q.withRegs q.crc (q.shift >>> 1) q.bitcnt := rfl
  rw [Phy.writeLoop, e, Phy.writeBit_eq, f, Phy.after_withRegs]
  rfl

theorem Phy.writeLoop_eq (k : Nat) (p : Phy) :
    Phy.writeLoop k p
      = (p.after ((lowBits k p.shift).flatMap writeBitEvents)).withRegs p.crc (p.shift >>> k) 8#4 := by
  induction k generalizing p with
  | zero => simp [Phy.writeLoop, lowBits, Phy.withRegs]
  | succ k ih =>
    rw [Phy.writeLoop_succ, ih, Phy.after_withRegs, Phy.withRegs_withRegs, Phy.withRegs_shift, Phy.withRegs_crc,
      lowBits, List.flatMap_cons, Phy.after_append, BitVec.shiftRight_add p.shift 1 k |>.symm, Nat.add_comm 1 k]

/-- WriteByte (R135): its events, and the framer's registers at their ends. -/
theorem Phy.writeByte_eq (p : Phy) (v : Byte) :
    p.writeByte v = (p.after (writeEvents [v])).withRegs p.crc 0#8 8#4 := by
  have e : ({ p with shift := v } : Phy) = p.withRegs p.crc v p.bitcnt := rfl
  rw [Phy.writeByte, e, Phy.writeLoop_eq]
  simp only [Phy.withRegs_shift, Phy.withRegs_crc, Phy.after_withRegs, Phy.withRegs_withRegs, lowBits_eight]
  have hz : v >>> 8 = 0#8 := by
    apply BitVec.eq_of_toNat_eq
    simp [BitVec.toNat_ushiftRight, Nat.shiftRight_eq_div_pow]
    omega
  simp [writeEvents, hz]

/-- Writing one byte or more (R137): from the second byte on only the events go on. -/
theorem Phy.writeBytes_withRegs (p : Phy) (bs : List Byte) (c : Byte) :
    (p.withRegs c 0#8 8#4).writeBytes bs = (p.after (writeEvents bs)).withRegs c 0#8 8#4 := by
  induction bs generalizing p with
  | nil => rfl
  | cons v bs ih =>
    have h : (p.withRegs c 0#8 8#4).writeBytes (v :: bs) = ((p.withRegs c 0#8 8#4).writeByte v).writeBytes bs := rfl
    rw [h, Phy.writeByte_eq]
    simp only [Phy.withRegs_crc, Phy.after_withRegs, Phy.withRegs_withRegs]
    rw [ih, writeEvents_cons v bs, Phy.after_append]

theorem Phy.sendWire_eq (p : Phy) (c : WireCmd) :
    p.sendWire c = (p.after (writeEvents [c.byte])).withRegs p.crc 0#8 8#4 := Phy.writeByte_eq p c.byte

/-- The shift register after bits have been shifted in from the top (R136). -/
def shiftInBits (bs : List Bool) (v : Byte) : Byte :=
  bs.foldl (fun v b => (v >>> 1) ||| (if b then 0x80#8 else 0#8)) v

theorem shiftInBits_bitsOf (v : Byte) : shiftInBits (bitsOf v) 0#8 = v := by
  revert v
  decide

theorem Phy.readLoop_of_follows {p : Phy} {bs : List Bool} (h : p.follows (bs.flatMap readBitEvents)) :
    Phy.readLoop bs.length p
      = (p.after (bs.flatMap readBitEvents)).withRegs p.crc (shiftInBits bs p.shift) 8#4 := by
  induction bs generalizing p with
  | nil => simp [Phy.readLoop, shiftInBits, Phy.withRegs]
  | cons b bs ih =>
    rw [List.flatMap_cons, Phy.follows_append] at h
    have e : ({ p with bitcnt := BitVec.ofNat 4 (8 - (bs.length + 1)) } : Phy)
        = p.withRegs p.crc p.shift (BitVec.ofNat 4 (8 - (bs.length + 1))) := rfl
    have f (q : Phy) (b : Bool) : q.shiftIn b
        = q.withRegs q.crc ((q.shift >>> 1) ||| (if b then 0x80#8 else 0#8)) q.bitcnt := rfl
    rw [List.length_cons, Phy.readLoop, e,
      Phy.readBit_of_follows (b := b) ((Phy.follows_withRegs ..).mpr h.1)]
    simp only [f, Phy.after_withRegs, Phy.withRegs_crc, Phy.withRegs_shift, Phy.withRegs_bitcnt,
      Phy.withRegs_withRegs]
    rw [ih ((Phy.follows_withRegs ..).mpr h.2)]
    simp only [Phy.after_withRegs, Phy.withRegs_withRegs, Phy.withRegs_crc, Phy.withRegs_shift]
    rw [List.flatMap_cons, Phy.after_append]
    rfl

/-- ReadByte (R136) along a byte's read slots. -/
theorem Phy.readByte_of_follows {p : Phy} {v : Byte} (h : p.follows (readEvents [v])) :
    p.readByte = (v, (p.after (readEvents [v])).withRegs p.crc v 8#4) := by
  have h' : p.follows ((bitsOf v).flatMap readBitEvents) := by simpa [readEvents] using h
  have e : ({ p with shift := 0#8 } : Phy) = p.withRegs p.crc 0#8 p.bitcnt := rfl
  have l := Phy.readLoop_of_follows (p := p.withRegs p.crc 0#8 p.bitcnt) ((Phy.follows_withRegs ..).mpr h')
  rw [Phy.readByte, e]
  rw [show (bitsOf v).length = 8 from rfl] at l
  simp [l, readEvents, shiftInBits_bitsOf]

/-- ReadBytes along the slots of its bytes (R137): element k is the k-th byte read, and `CRC` stays. -/
theorem Phy.readBytes_of_follows {p : Phy} {bs : List Byte} (h : p.follows (readEvents bs)) :
    ∃ sh n, p.readBytes bs.length = (bs, (p.after (readEvents bs)).withRegs p.crc sh n) := by
  induction bs generalizing p with
  | nil => exact ⟨p.shift, p.bitcnt, rfl⟩
  | cons b bs ih =>
    rw [readEvents_cons, Phy.follows_append] at h
    obtain ⟨sh, n, e⟩ := ih (p := (p.after (readEvents [b])).withRegs p.crc b 8#4) (by simpa using h.2)
    refine ⟨sh, n, ?_⟩
    rw [List.length_cons, Phy.readBytes, Phy.readByte_of_follows h.1]
    simp only [e]
    rw [readEvents_cons b bs, Phy.after_append]
    simp

/-- ReadBytes returns as many bytes as it is asked for. -/
@[simp] theorem Phy.readBytes_length (p : Phy) (m : Nat) : (p.readBytes m).1.length = m := by
  induction m generalizing p with
  | zero => rfl
  | succ m ih => exact congrArg (· + 1) (ih p.readByte.2)

/-! ## The framed read (R153) -/

theorem crc8_cons (c : Byte) (bs : List Byte) (b : Byte) :
    (b :: bs).foldl (fun c b => crcTable (c ^^^ b)) c = bs.foldl (fun c b => crcTable (c ^^^ b)) (crcTable (c ^^^ b)) :=
  rfl

theorem Phy.readData_of_follows {p : Phy} {ds : List Byte} (h : p.follows (readEvents ds)) :
    ∃ sh n, Phy.readData ds.length p
      = (ds, (p.after (readEvents ds)).withRegs (ds.foldl (fun c b => crcTable (c ^^^ b)) p.crc) sh n) := by
  induction ds generalizing p with
  | nil => exact ⟨p.shift, p.bitcnt, rfl⟩
  | cons d ds ih =>
    rw [readEvents_cons, Phy.follows_append] at h
    have f (q : Phy) (b : Byte) : q.crcByte b = q.withRegs (crcTable (q.crc ^^^ b)) q.shift q.bitcnt := rfl
    obtain ⟨sh, n, e⟩ := ih (p := ((p.after (readEvents [d])).withRegs p.crc d 8#4).crcByte d)
      (by rw [f]; simpa using h.2)
    refine ⟨sh, n, ?_⟩
    rw [List.length_cons, Phy.readData, Phy.readByte_of_follows h.1]
    simp only [e]
    rw [f, readEvents_cons d ds, Phy.after_append]
    simp

/-- ReadFramed (R153) along the slots of its bytes: `CRC` is left the CRC of the data. -/
theorem Phy.readFramed_of_follows {p : Phy} {ds : List Byte} {c : Byte} (h : p.follows (readEvents (ds ++ [c]))) :
    p.readFramed ds.length
      = (ds ++ [c], crc8 ds == c, (p.after (readEvents (ds ++ [c]))).withRegs (crc8 ds) c 8#4) := by
  rw [readEvents_append, Phy.follows_append] at h
  have e : ({ p with crc := 0x00#8 } : Phy) = p.withRegs 0#8 p.shift p.bitcnt := rfl
  obtain ⟨sh, n, hd⟩ := Phy.readData_of_follows (p := p.withRegs 0#8 p.shift p.bitcnt) (ds := ds) (by simpa using h.1)
  rw [Phy.readFramed, e, hd]
  simp only [Phy.after_withRegs, Phy.withRegs_withRegs, Phy.withRegs_crc]
  rw [Phy.readByte_of_follows (v := c) (by simpa using h.2)]
  simp [readEvents_append, Phy.after_append, crc8]

/-! ## Reset and presence (R130) -/

theorem resetEvents_unfold (k : Nat) : resetEvents k
    = resetOpen.map .act ++ ((List.replicate k [Event.sample true, .act (.waitUs 10)]).flatten
      ++ (if k < 24 then [.sample false, .act (.waitUs (465 - 10 * k))] else [.act (.waitUs 225)])) := by
  simp [resetEvents, resetOpen, Config.tRstl, Config.tPdwait]

theorem Phy.presence_of_follows {p : Phy} (j : Nat) {k t : Nat} (hk : k ≤ j) (ht : t + 10 * j = 255)
    (h : p.follows ((List.replicate k [Event.sample true, .act (.waitUs 10)]).flatten
      ++ (if k < j then [.sample false, .act (.waitUs (480 - t - 10 * k))] else [.act (.waitUs 225)]))) :
    Phy.presence j t p = (decide (k < j), p.after ((List.replicate k [Event.sample true, .act (.waitUs 10)]).flatten
      ++ (if k < j then [.sample false, .act (.waitUs (480 - t - 10 * k))] else [.act (.waitUs 225)]))) := by
  induction j generalizing p k t with
  | zero =>
    obtain rfl : k = 0 := by omega
    obtain rfl : t = 255 := by omega
    simp [Phy.presence, Config.tRsth]
  | succ j ih =>
    cases k with
    | zero =>
      simp only [List.replicate_zero, List.flatten_nil, List.nil_append, Nat.zero_lt_succ, if_true,
        Phy.follows_sample, Nat.mul_zero, Nat.sub_zero] at h
      simp [Phy.presence, Phy.sample, ← h.1, Config.tRsth]
    | succ k =>
      simp only [List.replicate_succ, List.flatten_cons, List.cons_append, List.nil_append, Phy.follows_sample,
        Phy.follows_act, Nat.add_lt_add_iff_right] at h
      have e : 480 - t - 10 * (k + 1) = 480 - (t + 10) - 10 * k := by omega
      rw [e] at h
      have i := ih (k := k) (t := t + 10) (by omega) (by omega) h.2
      simp [Phy.presence, Phy.sample, ← h.1, Config.tPdpoll, List.replicate_succ, i, e]

/-- ResetPresence (R130) along its events: presence is a sample of 0 among the 24. -/
theorem Phy.resetPresence_of_follows {p : Phy} {k : Nat} (hk : k ≤ 24) (h : p.follows (resetEvents k)) :
    p.resetPresence = (decide (k < 24), p.after (resetEvents k)) := by
  rw [resetEvents_unfold, Phy.follows_append] at h
  rw [Phy.resetPresence, Phy.acts_eq, resetEvents_unfold, Phy.after_append]
  exact Phy.presence_of_follows 24 hk rfl h.2

theorem Phy.presence_exists (p : Phy) (j t : Nat) : ∃ k, k ≤ j ∧
    p.follows ((List.replicate k [Event.sample true, .act (.waitUs 10)]).flatten
      ++ (if k < j then [.sample false, .act (.waitUs (480 - t - 10 * k))] else [.act (.waitUs 225)])) := by
  induction j generalizing p t with
  | zero => exact ⟨0, Nat.le_refl 0, by simp⟩
  | succ j ih =>
    cases hb : p.answer with
    | false => exact ⟨0, Nat.zero_le _, by simp [hb]⟩
    | true =>
      obtain ⟨k, hk, h⟩ := ih ((p.sampled true).act (.waitUs 10)) (t + 10)
      refine ⟨k + 1, by omega, ?_⟩
      have e : 480 - t - 10 * (k + 1) = 480 - (t + 10) - 10 * k := by omega
      simp only [List.replicate_succ, List.flatten_cons, List.cons_append, List.nil_append, Phy.follows_sample,
        Phy.follows_act, Nat.add_lt_add_iff_right, hb, true_and, e]
      exact h

/-- Some reset always follows: presence at one of the 24 samples, or at none (R130, R283). -/
theorem Phy.follows_reset_exists (p : Phy) : ∃ k, k ≤ 24 ∧ p.follows (resetEvents k) := by
  obtain ⟨k, hk, h⟩ := Phy.presence_exists (p.acts resetOpen) 24 15
  refine ⟨k, hk, ?_⟩
  rw [resetEvents_unfold, Phy.follows_append]
  exact ⟨Phy.follows_acts .., by rw [← Phy.acts_eq]; exact h⟩

/-- Some bits always follow. -/
theorem Phy.follows_bits_exists (p : Phy) (m : Nat) :
    ∃ bs : List Bool, bs.length = m ∧ p.follows (bs.flatMap readBitEvents) := by
  induction m generalizing p with
  | zero => exact ⟨[], rfl, True.intro⟩
  | succ m ih =>
    obtain ⟨bs, hl, h⟩ := ih (p.after (readBitEvents p.atSample.answer))
    refine ⟨p.atSample.answer :: bs, by simp [hl], ?_⟩
    rw [List.flatMap_cons, Phy.follows_append]
    exact ⟨(Phy.follows_readBit ..).mpr rfl, h⟩

theorem bitsOf_surjective (a b c d e f g h : Bool) : ∃ v : Byte, bitsOf v = [a, b, c, d, e, f, g, h] := by
  refine ⟨shiftInBits [a, b, c, d, e, f, g, h] 0#8, ?_⟩
  revert a b c d e f g h
  decide

/-- Some byte always follows. -/
theorem Phy.follows_byte_exists (p : Phy) : ∃ v : Byte, p.follows (readEvents [v]) := by
  obtain ⟨bs, hl, h⟩ := Phy.follows_bits_exists p 8
  match bs, hl with
  | [a, b, c, d, e, f, g, i], _ =>
    obtain ⟨v, hv⟩ := bitsOf_surjective a b c d e f g i
    exact ⟨v, by simpa [readEvents, hv] using h⟩

/-- Some bytes always follow (R66). -/
theorem Phy.follows_bytes_exists (p : Phy) (m : Nat) :
    ∃ ds : List Byte, ds.length = m ∧ p.follows (readEvents ds) := by
  induction m generalizing p with
  | zero => exact ⟨[], rfl, True.intro⟩
  | succ m ih =>
    obtain ⟨v, hv⟩ := Phy.follows_byte_exists p
    obtain ⟨ds, hl, h⟩ := ih (p.after (readEvents [v]))
    refine ⟨v :: ds, by simp [hl], ?_⟩
    rw [readEvents_cons, Phy.follows_append]
    exact ⟨hv, h⟩

/-- A framed read takes the bytes that ReadBytes would, whatever the bus answers (R137, R153). -/
theorem Phy.readFramed_bytes (p : Phy) (m : Nat) : (p.readFramed m).1 = (p.readBytes (m + 1)).1 := by
  obtain ⟨bs, hl, h⟩ := p.follows_bytes_exists (m + 1)
  obtain ⟨ds, c, rfl⟩ : ∃ ds c, bs = ds ++ [c] := by
    rcases List.eq_nil_or_concat bs with rfl | ⟨ds, c, rfl⟩
    · cases hl
    · exact ⟨ds, c, by simp⟩
  obtain ⟨sh, n, e⟩ := Phy.readBytes_of_follows h
  obtain rfl : ds.length = m := by simpa using hl
  rw [hl] at e
  rw [e, Phy.readFramed_of_follows h]

/-! ## ROM addressing (R200) -/

theorem sentinel_iff (A : Rom) : A = sentinel ↔ A.toList.all (· == 0#8) = true := by
  constructor
  · rintro rfl; rfl
  · intro h
    apply Vector.ext
    intro i hi
    have := List.all_eq_true.mp h A[i] (by simp)
    simpa [sentinel] using this

theorem Phy.selectRom_eq (p : Phy) (A : Rom) :
    p.selectRom A = (p.after (selectEvents A)).withRegs p.crc 0#8 8#4 := by
  unfold Phy.selectRom selectEvents
  by_cases h : A = sentinel
  · rw [if_pos h, if_pos ((sentinel_iff A).mp h), Phy.sendWire_eq]; rfl
  · rw [if_neg h, if_neg (mt (sentinel_iff A).mpr h), Phy.sendWire_eq, Phy.writeBytes_withRegs,
      writeEvents_cons 0x55#8 A.toList, Phy.after_append]
    rfl

@[simp] theorem Phy.follows_select (p : Phy) (A : Rom) : p.follows (selectEvents A) := by
  unfold selectEvents
  split <;> simp

/-- SelectTarget (R200) along a reset with presence. -/
theorem Phy.selectTarget_present {p : Phy} {A : Rom} {k : Nat} (hk : k < 24) (h : p.follows (resetEvents k)) :
    p.selectTarget A = (true, (p.after (resetEvents k ++ selectEvents A)).withRegs p.crc 0#8 8#4) := by
  rw [Phy.selectTarget, Phy.resetPresence_of_follows (by omega) h]
  simp [hk, Phy.selectRom_eq, Phy.after_append]

/-- SelectTarget along a reset without presence: nothing follows it on the bus. -/
theorem Phy.selectTarget_absent {p : Phy} {A : Rom} (h : p.follows (resetEvents 24)) :
    p.selectTarget A = (false, p.after (resetEvents 24)) := by
  rw [Phy.selectTarget, Phy.resetPresence_of_follows (Nat.le_refl 24) h]
  rfl

end Sys2Proof.Machine
end

