-- ==== Sys2Proof/Laws/Procedures.lean ====
section
/-! SUPPORT. One specification lemma per shared procedure of the commands, along the events it makes: ReadFramed into a
ROM or a scratchpad (R153), PowerQuery (R211) and ReadSp (R230), with and without presence. -/

namespace Sys2Proof.Machine

theorem Rom.toList_split (d : Rom) : d.toList.take 7 ++ [d[7]] = d.toList := by
  have h : d.toList.drop 7 = [d[7]] := by
    apply List.ext_getElem
    · simp
    · intro i hi _
      obtain rfl : i = 0 := by simp at hi; omega
      simp
  rw [← h, List.take_append_drop]

theorem Scratchpad.toList_split (d : Scratchpad) : d.toList.take 8 ++ [d[8]] = d.toList := by
  have h : d.toList.drop 8 = [d[8]] := by
    apply List.ext_getElem
    · simp
    · intro i hi _
      obtain rfl : i = 0 := by simp at hi; omega
      simp
  rw [← h, List.take_append_drop]

@[simp] theorem romOfBytes_toList (d : Rom) : romOfBytes d.toList = d := by
  apply Vector.ext
  intro i hi
  simp [romOfBytes]

@[simp] theorem spOfBytes_toList (d : Scratchpad) : spOfBytes d.toList = d := by
  apply Vector.ext
  intro i hi
  simp [spOfBytes]

/-- The framed read of a ROM (R208). -/
theorem Phy.readFramed_rom {p : Phy} {d : Rom} (h : p.follows (readEvents d.toList)) :
    p.readFramed 7 = (d.toList, crc8 (d.toList.take 7) == d[7],
      (p.after (readEvents d.toList)).withRegs (crc8 (d.toList.take 7)) d[7] 8#4) := by
  have e := Phy.readFramed_of_follows (p := p) (ds := d.toList.take 7) (c := d[7])
    (by rwa [Rom.toList_split])
  rw [Rom.toList_split] at e
  simpa using e

/-- The framed read of a scratchpad (R230). -/
theorem Phy.readFramed_sp {p : Phy} {d : Scratchpad} (h : p.follows (readEvents d.toList)) :
    p.readFramed 8 = (d.toList, crc8 (d.toList.take 8) == d[8],
      (p.after (readEvents d.toList)).withRegs (crc8 (d.toList.take 8)) d[8] 8#4) := by
  have e := Phy.readFramed_of_follows (p := p) (ds := d.toList.take 8) (c := d[8])
    (by rwa [Scratchpad.toList_split])
  rw [Scratchpad.toList_split] at e
  simpa using e

/-- PowerQuery (R211) along a reset with presence and the bit. -/
theorem State.powerQuery_present {s : State} {A : Rom} {k : Nat} {b : Bool} (hk : k < 24)
    (h : s.phy.follows (resetEvents k ++ selectEvents A ++ writeEvents [0xB4#8] ++ readBitEvents b)) :
    s.powerQuery A = (some b,
      { s with
        phy := (s.phy.after (resetEvents k ++ selectEvents A ++ writeEvents [0xB4#8] ++ readBitEvents b)).withRegs
          s.phy.crc 0#8 8#4
        pwr := b }) := by
  rw [Phy.follows_append, Phy.follows_append, Phy.follows_append] at h
  rw [State.powerQuery, Phy.selectTarget_present hk h.1.1.1]
  simp only [Phy.sendWire_eq, Phy.after_withRegs, Phy.withRegs_withRegs, Phy.withRegs_crc]
  rw [Phy.readBit_of_follows (b := b)
    ((Phy.follows_withRegs ..).mpr (by simpa [Phy.after_append, WireCmd.byte] using h.2))]
  simp [Phy.after_append, State.withPhy, WireCmd.byte]

/-- PowerQuery without presence: the reset is all, and `PWR` stays. -/
theorem State.powerQuery_absent {s : State} {A : Rom} (h : s.phy.follows (resetEvents 24)) :
    s.powerQuery A = (none, s.withPhy (s.phy.after (resetEvents 24))) := by
  rw [State.powerQuery, Phy.selectTarget_absent h]

/-- ReadSp (R230) along a reset with presence and the nine bytes. -/
theorem State.readSp_present {s : State} {k : Nat} {d : Scratchpad} (hk : k < 24)
    (h : s.phy.follows (readSpEvents k s.addr d)) :
    s.readSp = (if crc8 (d.toList.take 8) == d[8] then .ok else .crcError,
      { s with
        phy := (s.phy.after (readSpEvents k s.addr d)).withRegs (crc8 (d.toList.take 8)) d[8] 8#4
        spbuf := d }) := by
  rw [readSpEvents, Phy.follows_append, Phy.follows_append, Phy.follows_append] at h
  rw [State.readSp, Phy.selectTarget_present hk h.1.1.1]
  simp only [Phy.sendWire_eq, Phy.after_withRegs, Phy.withRegs_withRegs, Phy.withRegs_crc]
  rw [Phy.readFramed_sp (d := d)
    ((Phy.follows_withRegs ..).mpr (by simpa [Phy.after_append, WireCmd.byte] using h.2))]
  simp [readSpEvents, Phy.after_append, State.withPhy, WireCmd.byte]

/-- ReadSp without presence: the reset is all, and `SPBUF` stays. -/
theorem State.readSp_absent {s : State} (h : s.phy.follows (resetEvents 24)) :
    s.readSp = (.noDevice, s.withPhy (s.phy.after (resetEvents 24))) := by
  rw [State.readSp, Phy.selectTarget_absent h]

/-! ## `TEMP` (R240) -/

/-- A target that is not LEGACY: the value over 16. -/
theorem State.writeTemp_modern {s : State} (h : s.family ≠ .legacy) :
    s.writeTemp = { s with temp := toBinary32 (modernTemp (rawTemp s.spbuf)) } := by
  rw [State.writeTemp, if_neg h]

/-- A LEGACY target whose formula has a value. -/
theorem State.writeTemp_legacy {s : State} {v : Frac} (h : s.family = .legacy)
    (hv : legacyTemp s.params.halfMode (rawTemp s.spbuf) s.spbuf[6] s.spbuf[7] = some v) :
    s.writeTemp = { s with temp := toBinary32 v } := by
  rw [State.writeTemp, if_pos h, hv]

/-- A LEGACY target with `COUNT_PER_C = 0`: some word. -/
theorem State.writeTemp_free {s : State} (h : s.family = .legacy) (hv : s.spbuf[7] = 0#8) :
    s.writeTemp = { s with temp := Config.anyTemp s.free, free := s.free + 1 } := by
  rw [State.writeTemp, if_pos h, legacyTemp, if_pos hv]

/-- Whatever the target, only `TEMP` and the counter of free values change. -/
theorem State.writeTemp_frame (s : State) : ∃ w n, s.writeTemp = { s with temp := w, free := n } := by
  unfold State.writeTemp
  split
  · split
    · exact ⟨_, s.free, rfl⟩
    · exact ⟨_, _, rfl⟩
  · exact ⟨_, s.free, rfl⟩

/-! ## What always follows: a reset that fails, or one with presence and an answer (R66, R138) -/

theorem Phy.follows_bit_exists (p : Phy) : ∃ b, p.follows (readBitEvents b) :=
  ⟨p.atSample.answer, (Phy.follows_readBit ..).mpr rfl⟩

theorem Phy.follows_scratchpad_exists (p : Phy) : ∃ d : Scratchpad, p.follows (readEvents d.toList) := by
  obtain ⟨ds, hl, h⟩ := Phy.follows_bytes_exists p 9
  exact ⟨⟨ds.toArray, by simpa using hl⟩, by simpa [Vector.toList] using h⟩

theorem Phy.follows_rom_exists (p : Phy) : ∃ d : Rom, p.follows (readEvents d.toList) := by
  obtain ⟨ds, hl, h⟩ := Phy.follows_bytes_exists p 8
  exact ⟨⟨ds.toArray, by simpa using hl⟩, by simpa [Vector.toList] using h⟩

/-- PowerQuery runs along some events, with or without presence. -/
theorem State.powerQuery_cases (s : State) (A : Rom) :
    s.phy.follows (resetEvents 24)
    ∨ ∃ k b, k < 24 ∧
      s.phy.follows (resetEvents k ++ selectEvents A ++ writeEvents [0xB4#8] ++ readBitEvents b) := by
  obtain ⟨k, hk, h⟩ := Phy.follows_reset_exists s.phy
  rcases Nat.lt_or_ge k 24 with hk' | hk'
  · obtain ⟨b, hb⟩ := Phy.follows_bit_exists (s.phy.after (resetEvents k ++ selectEvents A ++ writeEvents [0xB4#8]))
    refine .inr ⟨k, b, hk', ?_⟩
    rw [Phy.follows_append, Phy.follows_append, Phy.follows_append]
    exact ⟨⟨⟨h, Phy.follows_select ..⟩, Phy.follows_writeEvents ..⟩, hb⟩
  · exact .inl (by rwa [show k = 24 by omega] at h)

/-- ReadSp runs along some events, with or without presence. -/
theorem State.readSp_cases (s : State) :
    s.phy.follows (resetEvents 24) ∨ ∃ k d, k < 24 ∧ s.phy.follows (readSpEvents k s.addr d) := by
  obtain ⟨k, hk, h⟩ := Phy.follows_reset_exists s.phy
  rcases Nat.lt_or_ge k 24 with hk' | hk'
  · obtain ⟨d, hd⟩ :=
      Phy.follows_scratchpad_exists (s.phy.after (resetEvents k ++ selectEvents s.addr ++ writeEvents [0xBE#8]))
    refine .inr ⟨k, d, hk', ?_⟩
    rw [readSpEvents, Phy.follows_append, Phy.follows_append, Phy.follows_append]
    exact ⟨⟨⟨h, Phy.follows_select ..⟩, Phy.follows_writeEvents ..⟩, hd⟩
  · exact .inl (by rwa [show k = 24 by omega] at h)

/-- SelectTarget runs along a reset, with or without presence. -/
theorem Phy.reset_cases (p : Phy) : p.follows (resetEvents 24) ∨ ∃ k, k < 24 ∧ p.follows (resetEvents k) := by
  obtain ⟨k, hk, h⟩ := Phy.follows_reset_exists p
  rcases Nat.lt_or_ge k 24 with hk' | hk'
  · exact .inr ⟨k, hk', h⟩
  · exact .inl (by rwa [show k = 24 by omega] at h)

end Sys2Proof.Machine
end

