-- ==== Sys2Proof/Laws/Events.lean ====
section
/-! SUPPORT. What the events of each operation leave on the pins (R130, R131, R133), how many samples they take and how
long they last at least (R139, R320). -/

namespace Sys2Proof.Machine

/-- How many samples a list of events has. -/
def sampleCount (es : List Event) : Nat := es.countP fun e => match e with | .sample _ => true | .act _ => false

/-- An event that is neither `SPU_ON` nor `SPU_OFF`. -/
def noSpu (e : Event) : Bool := e != .act .spuOn && e != .act .spuOff

/-- The line's drive after events, from d. -/
def lineAfter (d : Bool) (es : List Event) : Bool :=
  es.foldl (fun d e => match e with | .act .driveLow => true | .act .release => false | _ => d) d

/-- The least time events take, in microseconds. -/
def microsOf (es : List Event) : Nat := (es.map Event.micros).sum

theorem sampleCount_append (es fs : List Event) : sampleCount (es ++ fs) = sampleCount es + sampleCount fs :=
  List.countP_append ..
theorem lineAfter_append (d : Bool) (es fs : List Event) : lineAfter d (es ++ fs) = lineAfter (lineAfter d es) fs :=
  List.foldl_append ..
theorem microsOf_append (es fs : List Event) : microsOf (es ++ fs) = microsOf es + microsOf fs := by
  simp [microsOf]

/-- The history's time after events. -/
theorem busTime_after (es tr : List Event) : busTime (es.reverse ++ tr) = busTime tr + microsOf es := by
  simp [busTime, microsOf, List.sum_reverse, Nat.add_comm]

theorem Phy.after_draws (p : Phy) (es : List Event) : (p.after es).draws = p.draws.drop (sampleCount es) := by
  induction es generalizing p with
  | nil => simp [sampleCount]
  | cons e es ih =>
    cases e with
    | act a => rw [Phy.after_act, ih]; simp [sampleCount]
    | sample b => rw [Phy.after_sample, ih]; simp [sampleCount]

/-- What the samples among events returned, in order. -/
def sampleBits (es : List Event) : List Bool :=
  es.filterMap fun e => match e with | .sample b => some b | .act _ => none

/-- Events follow where the answers already chosen begin with theirs (R66). -/
theorem Phy.follows_of_draws {p : Phy} {es : List Event} {rest : List Bool} (h : p.draws = sampleBits es ++ rest) :
    p.follows es := by
  induction es generalizing p with
  | nil => exact True.intro
  | cons e es ih =>
    cases e with
    | act a => exact ih (p := p.act a) (by rw [← Phy.event, show (p.event (.act a)).draws = p.draws by cases a <;> rfl]; exact h)
    | sample b =>
      have h' : p.draws = b :: (sampleBits es ++ rest) := h
      exact ⟨by rw [Phy.answer, h'], ih (by rw [Phy.sampled, h']; rfl)⟩

theorem Phy.after_spuAct (p : Phy) (es : List Event) (h : es.all noSpu = true) : (p.after es).spuAct = p.spuAct := by
  induction es generalizing p with
  | nil => rfl
  | cons e es ih =>
    simp only [List.all_cons, Bool.and_eq_true] at h
    cases e with
    | act a => rw [Phy.after_act, ih _ h.2]; cases a <;> simp_all [noSpu]
    | sample b => rw [Phy.after_sample, ih _ h.2]; rfl

theorem Phy.after_dqDrv (p : Phy) (es : List Event) : (p.after es).dqDrv = lineAfter p.dqDrv es := by
  induction es generalizing p with
  | nil => rfl
  | cons e es ih =>
    cases e with
    | act a => rw [Phy.after_act, ih]; cases a <;> rfl
    | sample b => rw [Phy.after_sample, ih]; rfl

/-- The whole bus side after events that leave the line released and the pull-up alone. -/
theorem Phy.after_eq (p : Phy) (es : List Event) (h : es.all noSpu = true) (hd : lineAfter p.dqDrv es = false) :
    p.after es = { p with dqDrv := false, trace := es.reverse ++ p.trace, draws := p.draws.drop (sampleCount es) } := by
  have h1 := Phy.after_spuAct p es h
  have h2 := Phy.after_dqDrv p es
  have h3 := Phy.after_draws p es
  have h4 := Phy.after_trace p es
  have h5 := Phy.after_crc p es
  have h6 := Phy.after_shift p es
  have h7 := Phy.after_bitcnt p es
  have h8 := Phy.after_spuAvail p es
  have h9 := Phy.after_spuPol p es
  have h10 := Phy.after_spuOe p es
  rw [hd] at h2
  generalize p.after es = q at *
  cases q
  simp_all

/-! ## Slots and bytes -/

@[simp] theorem noSpu_writeBit (b : Bool) : (writeBitEvents b).all noSpu = true := by cases b <;> rfl
@[simp] theorem noSpu_readBit (b : Bool) : (readBitEvents b).all noSpu = true := by cases b <;> rfl
@[simp] theorem lineAfter_writeBit (d b : Bool) : lineAfter d (writeBitEvents b) = false := by cases b <;> rfl
@[simp] theorem lineAfter_readBit (d b : Bool) : lineAfter d (readBitEvents b) = false := by cases b <;> rfl
@[simp] theorem sampleCount_writeBit (b : Bool) : sampleCount (writeBitEvents b) = 0 := by cases b <;> rfl
@[simp] theorem sampleCount_readBit (b : Bool) : sampleCount (readBitEvents b) = 1 := by cases b <;> rfl
@[simp] theorem microsOf_writeBit (b : Bool) : microsOf (writeBitEvents b) = 61 := by cases b <;> rfl
@[simp] theorem microsOf_readBit (b : Bool) : microsOf (readBitEvents b) = 61 := by cases b <;> rfl

theorem noSpu_flatMap {α : Type} {f : α → List Event} (h : ∀ a, (f a).all noSpu = true) (l : List α) :
    (l.flatMap f).all noSpu = true := by
  induction l with
  | nil => rfl
  | cons a l ih => rw [List.flatMap_cons, List.all_append, h, ih]; rfl

theorem lineAfter_flatMap {α : Type} {f : α → List Event} (h : ∀ d a, lineAfter d (f a) = false) (d : Bool)
    (l : List α) : lineAfter d (l.flatMap f) = (d && l.isEmpty) := by
  cases l with
  | nil => simp [lineAfter]
  | cons a l =>
    rw [List.flatMap_cons, lineAfter_append, h]
    induction l generalizing a with
    | nil => simp [lineAfter]
    | cons b l ih =>
      rw [List.flatMap_cons, lineAfter_append, h]
      exact ih b

theorem microsOf_flatMap {α : Type} {f : α → List Event} {t : Nat} (h : ∀ a, microsOf (f a) = t) (l : List α) :
    microsOf (l.flatMap f) = t * l.length := by
  induction l with
  | nil => rfl
  | cons a l ih => rw [List.flatMap_cons, microsOf_append, h, ih, List.length_cons, Nat.mul_succ, Nat.add_comm]

@[simp] theorem noSpu_write (bs : List Byte) : (writeEvents bs).all noSpu = true :=
  noSpu_flatMap (fun _ => noSpu_flatMap noSpu_writeBit _) _
@[simp] theorem noSpu_read (bs : List Byte) : (readEvents bs).all noSpu = true :=
  noSpu_flatMap (fun _ => noSpu_flatMap noSpu_readBit _) _
@[simp] theorem lineAfter_write (d : Bool) (bs : List Byte) : lineAfter d (writeEvents bs) = (d && bs.isEmpty) :=
  lineAfter_flatMap (fun d v => by rw [lineAfter_flatMap lineAfter_writeBit]; simp [bitsOf]) d bs
@[simp] theorem lineAfter_read (d : Bool) (bs : List Byte) : lineAfter d (readEvents bs) = (d && bs.isEmpty) :=
  lineAfter_flatMap (fun d v => by rw [lineAfter_flatMap lineAfter_readBit]; simp [bitsOf]) d bs
@[simp] theorem microsOf_write (bs : List Byte) : microsOf (writeEvents bs) = 488 * bs.length :=
  microsOf_flatMap (fun v => by rw [microsOf_flatMap microsOf_writeBit]; rfl) bs
@[simp] theorem microsOf_read (bs : List Byte) : microsOf (readEvents bs) = 488 * bs.length :=
  microsOf_flatMap (fun v => by rw [microsOf_flatMap microsOf_readBit]; rfl) bs

/-! ## Resets and addressing -/

theorem resetEvents_split (k : Nat) : resetEvents k = .act .spuOff ::
    ([.act .driveLow, .act (.waitUs 480), .act .release, .act (.waitUs 15)]
      ++ ((List.replicate k [Event.sample true, .act (.waitUs 10)]).flatten
        ++ (if k < 24 then [.sample false, .act (.waitUs (465 - 10 * k))] else [.act (.waitUs 225)]))) := by
  simp [resetEvents]

theorem noSpu_polls (k : Nat) : (List.replicate k [Event.sample true, .act (.waitUs 10)]).flatten.all noSpu = true := by
  induction k with
  | zero => rfl
  | succ k ih => rw [List.replicate_succ, List.flatten_cons, List.all_append, ih]; rfl

theorem noSpu_reset_tail (k : Nat) : (resetEvents k).tail.all noSpu = true := by
  rw [resetEvents_split, List.tail_cons, List.all_append, List.all_append, noSpu_polls]
  split <;> rfl

theorem lineAfter_polls (k : Nat) (d : Bool) :
    lineAfter d (List.replicate k [Event.sample true, .act (.waitUs 10)]).flatten = d := by
  induction k with
  | zero => rfl
  | succ k ih => rw [List.replicate_succ, List.flatten_cons, lineAfter_append]; exact ih

@[simp] theorem lineAfter_reset (d : Bool) (k : Nat) : lineAfter d (resetEvents k) = false := by
  rw [resetEvents_split]
  show lineAfter d (_ ++ _) = false
  rw [lineAfter_append, lineAfter_append, lineAfter_polls]
  split <;> rfl

theorem microsOf_polls (k : Nat) :
    microsOf (List.replicate k [Event.sample true, .act (.waitUs 10)]).flatten = 10 * k := by
  induction k with
  | zero => rfl
  | succ k ih => rw [List.replicate_succ, List.flatten_cons, microsOf_append, ih]; simp [microsOf, Event.micros,
      Act.micros]; omega

/-- A reset takes 960 microseconds (R139). -/
theorem microsOf_reset {k : Nat} (hk : k ≤ 24) : microsOf (resetEvents k) = 960 := by
  rw [resetEvents, microsOf_append, microsOf_append, microsOf_polls]
  split
  · simp [microsOf, Event.micros, Act.micros]; omega
  · obtain rfl : k = 24 := by omega
    simp [microsOf, Event.micros, Act.micros]

@[simp] theorem noSpu_select (A : Rom) : (selectEvents A).all noSpu = true := by
  unfold selectEvents; split <;> exact noSpu_write _
theorem lineAfter_select (d : Bool) (A : Rom) : lineAfter d (selectEvents A) = false := by
  unfold selectEvents; split <;> rw [lineAfter_write] <;> simp
theorem microsOf_select (A : Rom) :
    microsOf (selectEvents A) = if A.toList.all (· == 0#8) then 488 else 4392 := by
  unfold selectEvents; split <;> rw [microsOf_write] <;> simp

@[simp] theorem noSpu_positions (ps : List (Bool × Bool × Bool)) : (positionEvents ps).all noSpu = true := by
  induction ps with
  | nil => rfl
  | cons x ps ih =>
    obtain ⟨a, c, dir⟩ := x
    rw [positionEvents, List.all_append, List.all_append, List.all_append, ih]
    simp only [noSpu_readBit, noSpu_writeBit, Bool.and_true]
theorem lineAfter_positions (d : Bool) (ps : List (Bool × Bool × Bool)) :
    lineAfter d (positionEvents ps) = (d && ps.isEmpty) := by
  induction ps generalizing d with
  | nil => simp [lineAfter, positionEvents]
  | cons x ps ih =>
    obtain ⟨a, c, dir⟩ := x
    rw [positionEvents, lineAfter_append, lineAfter_append, lineAfter_writeBit, ih]
    simp

/-! ## Transactions -/

/-- A transaction leaves the line released (R25, R130 to R133). -/
theorem Transaction.lineAfter {A : Rom} {es : List Event} (h : Transaction A es) (d : Bool) :
    Machine.lineAfter d es = false := by
  cases h <;>
    simp only [lineAfter_append, lineAfter_reset, lineAfter_write, lineAfter_read, lineAfter_select, lineAfter_positions,
      lineAfter_readBit, readSpEvents, Bool.false_and, List.isEmpty_cons, Bool.and_false]
  next as hk ha =>
    induction as with
    | nil => rfl
    | cons a as ih =>
      rcases ha a (by simp) with rfl | rfl | rfl <;> exact ih fun b hb => ha b (by simp [hb])

/-- Events that open with `SPU_OFF` and leave the pull-up alone after it: a reset's, and what follows one in every
transaction but a conversion (R130). -/
def quietOpening : List Event → Bool
  | .act .spuOff :: es => es.all noSpu
  | _ => false

theorem quietOpening_reset (k : Nat) (es : List Event) : quietOpening (resetEvents k ++ es) = es.all noSpu := by
  have h : quietOpening (resetEvents k ++ es) = ((resetEvents k).tail ++ es).all noSpu := rfl
  rw [h, List.all_append, noSpu_reset_tail, Bool.true_and]

/-- After such events the pull-up is off, where there is one. -/
theorem Phy.after_quiet (p : Phy) {es : List Event} (h : quietOpening es = true) :
    (p.after es).spuAct = (p.spuAct && !p.spuAvail) := by
  match es, h with
  | .act .spuOff :: es, h =>
    rw [Phy.after_act, Phy.after_spuAct _ _ h]
    cases hq : p.spuAvail <;> simp [Phy.act, hq]

/-- A transaction opens with `SPU_OFF` (R130), and only a conversion touches the pull-up after that. -/
theorem Transaction.opens {A : Rom} {es : List Event} (h : Transaction A es) : ∃ fs, es = .act .spuOff :: fs
    ∧ (fs.all noSpu = true ∨ ∃ (gs : List Event) (as : List Act), fs = gs ++ as.map .act ∧ gs.all noSpu = true) := by
  have e (k : Nat) : resetEvents k = .act .spuOff :: (resetEvents k).tail := rfl
  cases h with
  | noPresence => exact ⟨_, e 24, .inl (noSpu_reset_tail 24)⟩
  | readRom k d hk =>
    refine ⟨(resetEvents k).tail ++ writeEvents [0x33#8] ++ readEvents d.toList, rfl, .inl ?_⟩
    simp only [List.all_append, noSpu_reset_tail, noSpu_write, noSpu_read, Bool.and_self]
  | searchWhole k ps hk hp =>
    refine ⟨(resetEvents k).tail ++ writeEvents [0xF0#8] ++ positionEvents ps, rfl, .inl ?_⟩
    simp only [List.all_append, noSpu_reset_tail, noSpu_write, noSpu_positions, Bool.and_self]
  | searchAborted k ps hk hp =>
    refine ⟨(resetEvents k).tail ++ writeEvents [0xF0#8] ++ positionEvents ps ++ readBitEvents true
        ++ readBitEvents true, rfl, .inl ?_⟩
    simp only [List.all_append, noSpu_reset_tail, noSpu_write, noSpu_positions, noSpu_readBit, Bool.and_self]
  | readPower k b hk =>
    refine ⟨(resetEvents k).tail ++ selectEvents A ++ writeEvents [0xB4#8] ++ readBitEvents b, rfl, .inl ?_⟩
    simp only [List.all_append, noSpu_reset_tail, noSpu_write, noSpu_select, noSpu_readBit, Bool.and_self]
  | readScratchpad k d hk =>
    refine ⟨(resetEvents k).tail ++ selectEvents A ++ writeEvents [0xBE#8] ++ readEvents d.toList, rfl, .inl ?_⟩
    simp only [List.all_append, noSpu_reset_tail, noSpu_write, noSpu_select, noSpu_read, Bool.and_self]
  | writeScratchpad k th tl config hk hc =>
    refine ⟨(resetEvents k).tail ++ selectEvents A ++ writeEvents (0x4E#8 :: th :: tl :: config), rfl, .inl ?_⟩
    simp only [List.all_append, noSpu_reset_tail, noSpu_write, noSpu_select, Bool.and_self]
  | convert k as hk ha =>
    refine ⟨(resetEvents k).tail ++ selectEvents A ++ writeEvents [0x44#8] ++ as.map .act, rfl,
      .inr ⟨_, as, rfl, ?_⟩⟩
    simp only [List.all_append, noSpu_reset_tail, noSpu_write, noSpu_select, Bool.and_self]

end Sys2Proof.Machine
end

