-- ==== Sys2Proof/Laws/Search.lean ====
section
/-! SUPPORT. One search position and one search pass along their events (R171 to R179). -/

namespace Sys2Proof.Machine

@[simp] theorem srSet_getLsbD (sr : BitVec 64) (n i : Nat) (dir : Bool) (hn : 1 ≤ n) (h64 : n ≤ 64) :
    (srSet sr n dir).getLsbD i = if i = n - 1 then dir else sr.getLsbD i := by
  unfold srSet
  by_cases hi : i = n - 1
  · subst hi
    cases dir <;> simp [BitVec.getLsbD_twoPow]
    omega
  · cases dir
    · simp [BitVec.getLsbD_twoPow, hi]
      intro h
      constructor
      · exact BitVec.lt_of_getLsbD h
      · right; omega
    · simp [BitVec.getLsbD_twoPow, hi]
      intro _ h'; exact absurd h'.symm hi

theorem positionEvents_cons (a c dir : Bool) (ps : List (Bool × Bool × Bool)) :
    positionEvents ((a, c, dir) :: ps)
      = readBitEvents a ++ readBitEvents c ++ writeBitEvents dir ++ positionEvents ps := rfl

/-- A position that reads (1, 1): the pass stops (R174). -/
theorem positions_abort {p : Phy} {f : Search} {k lz : Nat}
    (h : p.follows (readBitEvents true ++ readBitEvents true)) :
    positions (k + 1) lz p f
      = { found := none, phy := p.after (readBitEvents true ++ readBitEvents true), search := f.clear } := by
  rw [Phy.follows_append] at h
  rw [positions, Phy.readBit_of_follows h.1, Phy.after_append]
  simp only [Phy.readBit_of_follows h.2, Bool.and_self, if_true]

/-- A position that reads another pair: its bit is sent and stored, and the pass goes on (R172, R177). -/
theorem positions_step {p : Phy} {f : Search} {k lz : Nat} {a c : Bool}
    (h : p.follows (readBitEvents a ++ readBitEvents c)) (hac : ¬(a = true ∧ c = true)) :
    positions (k + 1) lz p f
      = positions k (recordZero (64 - k) lz a c (f.direction (64 - k) a c))
          (p.after (readBitEvents a ++ readBitEvents c ++ writeBitEvents (f.direction (64 - k) a c)))
          (f.setBit (64 - k) (f.direction (64 - k) a c)) := by
  rw [Phy.follows_append] at h
  rw [positions, Phy.readBit_of_follows h.1, Phy.after_append, Phy.after_append]
  simp only [Phy.readBit_of_follows h.2, Phy.writeBit_eq]
  rw [if_neg (by simpa using hac)]

/-- The direction of a position depends on the pair read, `LD` and the bit of `SR` there (R171, R175). -/
theorem Search.direction_eq (f : Search) (n : Nat) (a c : Bool) : f.direction n a c
    = (if a ≠ c then a else if n = f.ld.toNat then true else if f.ld.toNat < n then false
        else f.sr.getLsbD (n - 1)) := by
  unfold Search.direction srBit
  cases a <;> cases c <;> simp

/-- The events of positions n+1 to n+k, with what each reads and sends given by functions of the position. -/
def walkEvents (a c : Nat → Bool) (r : BitVec 64) (n k : Nat) : List Event :=
  positionEvents ((List.range' n k).map fun j => (a (j + 1), c (j + 1), r.getLsbD j))

theorem walkEvents_succ (a c : Nat → Bool) (r : BitVec 64) (n k : Nat) :
    walkEvents a c r n (k + 1)
      = readBitEvents (a (n + 1)) ++ readBitEvents (c (n + 1)) ++ writeBitEvents (r.getLsbD n)
        ++ walkEvents a c r (n + 1) k := by
  simp [walkEvents, List.range'_succ, positionEvents_cons]

/-- What stands after a position n of a walk: the bits below n are the walk's and the others still the old ones, and
`lz` is the highest position so far where 0 was taken at a discrepancy, 0 when there is none (R174, R176, R178). -/
structure WalkState (a c : Nat → Bool) (r old : BitVec 64) (n lz : Nat) (sr : BitVec 64) : Prop where
  below : ∀ i, i < n → sr.getLsbD i = r.getLsbD i
  above : ∀ i, n ≤ i → sr.getLsbD i = old.getLsbD i
  bound : lz ≤ n
  highest : ∀ m, 1 ≤ m → m ≤ n → a m = false → c m = false → r.getLsbD (m - 1) = false → m ≤ lz
  isZero : lz ≠ 0 → a lz = false ∧ c lz = false ∧ r.getLsbD (lz - 1) = false

/-- The bit that the rule sends at position n, with the previous pass's `LD` and `SR` (R171, R175). -/
def ruleBit (ld : Nat) (old : BitVec 64) (n : Nat) (a c : Bool) : Bool :=
  if a ≠ c then a else if n = ld then true else if ld < n then false else old.getLsbD (n - 1)

theorem WalkState.start (a c : Nat → Bool) (r old : BitVec 64) : WalkState a c r old 0 0 old where
  below i h := by omega
  above i _ := rfl
  bound := Nat.le_refl 0
  highest m h1 h2 := by omega
  isZero h := absurd rfl h

theorem WalkState.next {a c : Nat → Bool} {r old sr : BitVec 64} {n lz : Nat}
    (w : WalkState a c r old n lz sr) (hn : n < 64)
    (hac : ¬(a (n + 1) = true ∧ c (n + 1) = true)) :
    WalkState a c r old (n + 1) (recordZero (n + 1) lz (a (n + 1)) (c (n + 1)) (r.getLsbD n))
      (srSet sr (n + 1) (r.getLsbD n)) := by
  have hrec : recordZero (n + 1) lz (a (n + 1)) (c (n + 1)) (r.getLsbD n)
      = if a (n + 1) = false ∧ c (n + 1) = false ∧ r.getLsbD n = false then n + 1 else lz := by
    unfold recordZero
    cases ha : a (n + 1) <;> cases hc : c (n + 1) <;> cases hd : r.getLsbD n <;> simp_all
  rw [hrec]
  constructor
  · intro i hi
    rw [srSet_getLsbD _ _ _ _ (by omega) (by omega), Nat.add_sub_cancel]
    split
    · next h => rw [h]
    · exact w.below i (by omega)
  · intro i hi
    rw [srSet_getLsbD _ _ _ _ (by omega) (by omega), Nat.add_sub_cancel, if_neg (by omega)]
    exact w.above i (by omega)
  · split
    · exact Nat.le_refl _
    · have := w.bound; omega
  · intro m h1 h2 ha hc hd
    rcases Nat.lt_or_ge m (n + 1) with h | h
    · have := w.highest m h1 (by omega) ha hc hd
      have := w.bound
      split <;> omega
    · obtain rfl : m = n + 1 := by omega
      rw [Nat.add_sub_cancel] at hd
      rw [if_pos ⟨ha, hc, hd⟩]
  · intro h
    split
    · next h' => simpa using h'
    · next h' => rw [if_neg h'] at h; exact w.isZero h

/-- The walk from position n + 1 to position m: it leads to the positions that are left after m, in some walk state. -/
theorem positions_walk {a c : Nat → Bool} {r old : BitVec 64} {ld : BitVec 7} {ldf : Bool} (m n : Nat) {lz : Nat}
    {p : Phy} {sr : BitVec 64} (hm : n + m ≤ 64)
    (hr : ∀ i, n < i → i ≤ n + m →
      ¬(a i = true ∧ c i = true) ∧ r.getLsbD (i - 1) = ruleBit ld.toNat old i (a i) (c i))
    (w : WalkState a c r old n lz sr) (h : p.follows (walkEvents a c r n m)) :
    ∃ lz' sr', WalkState a c r old (n + m) lz' sr' ∧
      positions (64 - n) lz p { ld := ld, ldf := ldf, sr := sr }
        = positions (64 - (n + m)) lz' (p.after (walkEvents a c r n m)) { ld := ld, ldf := ldf, sr := sr' } := by
  induction m generalizing n lz p sr with
  | zero => exact ⟨lz, sr, w, rfl⟩
  | succ m ih =>
    rw [walkEvents_succ, Phy.follows_append, Phy.follows_append] at h
    obtain ⟨hac, hbit⟩ := hr (n + 1) (by omega) (by omega)
    rw [Nat.add_sub_cancel] at hbit
    have hdir : Search.direction { ld := ld, ldf := ldf, sr := sr } (n + 1) (a (n + 1)) (c (n + 1)) = r.getLsbD n := by
      rw [Search.direction_eq, hbit, ruleBit]
      simp only [Nat.add_sub_cancel, w.above n (Nat.le_refl n)]
    obtain ⟨lz', sr', w', e⟩ := ih (n + 1) (by omega) (fun i h1 h2 => hr i (by omega) (by omega))
      (w.next (by omega) hac) h.2
    refine ⟨lz', sr', by rwa [Nat.add_assoc, Nat.add_comm 1 m] at w', ?_⟩
    have hk : 64 - n = (64 - (n + 1)) + 1 := by omega
    have hn : 64 - (64 - (n + 1)) = n + 1 := by omega
    rw [hk, positions_step h.1.1 hac, hn, hdir]
    rw [Search.setBit]
    simp only
    rw [e, walkEvents_succ, Phy.after_append _ (_ ++ writeBitEvents _), Nat.add_assoc, Nat.add_comm 1 m]

/-- A search's positions take 183 microseconds each (R139). -/
theorem microsOf_positions (ps : List (Bool × Bool × Bool)) : microsOf (positionEvents ps) = 183 * ps.length := by
  induction ps with
  | nil => rfl
  | cons p ps ih =>
    obtain ⟨a, c, dir⟩ := p
    rw [positionEvents_cons]
    simp [microsOf_append, ih]
    omega

/-! ## Passes one after the other -/

/-- A chain goes on with the pass from where it ended. -/
theorem passChain_append (p : Phy) (f : Search) (rs : List Pass) (r : Pass) :
    passChain p f (rs ++ [r]) ↔ passChain p f rs
      ∧ r = findNext ((rs.getLast?.map Pass.phy).getD p) ((rs.getLast?.map Pass.search).getD f) := by
  induction rs generalizing p f with
  | nil => simp [passChain]
  | cons a rs ih =>
    rw [List.cons_append, passChain, passChain, ih, and_assoc]
    cases rs with
    | nil => simp
    | cons b bs =>
      rw [List.getLast?_cons_cons, List.getLast?_eq_some_getLast (List.cons_ne_nil b bs)]
      simp

/-- A pass adds its address where its CRC is right, and nothing else does. -/
theorem foundBy_append (rs : List Pass) (r : Pass) : foundBy (rs ++ [r]) = foundBy rs ++ foundBy [r] := by
  simp [foundBy, List.filterMap_append, List.filter_append]

end Sys2Proof.Machine
end

