-- ==== Sys2Proof/Laws/Commands.lean ====
section
/-! SUPPORT. Per command, every way it can end from an active session: the events it makes and the state it leaves, as
one record over the state it started in. A claim about all states takes the outcomes of each command from here. -/

namespace Sys2Proof.Machine

/-- The state with the bus side after events and other datapath registers. -/
def State.ran (s : State) (es : List Event) (c sh : Byte) (n : BitVec 4) : State :=
  { s with phy := (s.phy.after es).withRegs c sh n }

theorem State.inSession_true {s : State} (hs : s.session = true) (b : State → State) : s.inSession b = b s := by
  rw [State.inSession, if_pos hs]

theorem State.inSession_false {s : State} (hs : s.session = false) (b : State → State) :
    s.inSession b = s.finish .invalidArg := by
  rw [State.inSession, if_neg (by simp [hs])]

theorem State.withPhy_after (s : State) (es : List Event) :
    s.withPhy (s.phy.after es) = s.ran es s.phy.crc s.phy.shift s.phy.bitcnt := by
  have h : (s.phy.after es).withRegs s.phy.crc s.phy.shift s.phy.bitcnt = s.phy.after es := by
    have e := Phy.withRegs_self (s.phy.after es)
    rwa [Phy.after_crc, Phy.after_shift, Phy.after_bitcnt] at e
  rw [State.ran, h]
  rfl

/-- Bytes sent after an addressing, as one operation. -/
theorem Phy.sendWire_writeBytes (p : Phy) (c : WireCmd) (bs : List Byte) :
    (p.sendWire c).writeBytes bs = (p.after (writeEvents (c.byte :: bs))).withRegs p.crc 0#8 8#4 := by
  rw [Phy.sendWire_eq, Phy.writeBytes_withRegs, ← Phy.after_append, ← writeEvents_append]
  rfl

/-! ## The shared procedures, every way -/

theorem State.readSp_outcome (s : State) :
    (∃ c sh n, s.phy.follows (resetEvents 24) ∧ s.readSp = (.noDevice, s.ran (resetEvents 24) c sh n))
    ∨ ∃ k d sh n, k < 24 ∧ s.phy.follows (readSpEvents k s.addr d) ∧
      s.readSp = (if crc8 (d.toList.take 8) = d[8] then .ok else .crcError,
        { s.ran (readSpEvents k s.addr d) (crc8 (d.toList.take 8)) sh n with spbuf := d }) := by
  rcases s.readSp_cases with h | ⟨k, d, hk, h⟩
  · exact .inl ⟨s.phy.crc, s.phy.shift, s.phy.bitcnt, h, by rw [State.readSp_absent h, State.withPhy_after]⟩
  · refine .inr ⟨k, d, d[8], 8#4, hk, h, ?_⟩
    rw [State.readSp_present hk h]
    by_cases hc : crc8 (d.toList.take 8) = d[8] <;> simp [hc, State.ran]

theorem State.powerQuery_outcome (s : State) (A : Rom) :
    (∃ c sh n, s.phy.follows (resetEvents 24) ∧ s.powerQuery A = (none, s.ran (resetEvents 24) c sh n))
    ∨ ∃ k b es c sh n, k < 24 ∧ es = resetEvents k ++ selectEvents A ++ writeEvents [0xB4#8] ++ readBitEvents b
      ∧ s.phy.follows es ∧ s.powerQuery A = (some b, { s.ran es c sh n with pwr := b }) := by
  rcases s.powerQuery_cases A with h | ⟨k, b, hk, h⟩
  · exact .inl ⟨s.phy.crc, s.phy.shift, s.phy.bitcnt, h, by rw [State.powerQuery_absent h, State.withPhy_after]⟩
  · exact .inr ⟨k, b, _, _, _, _, hk, rfl, h, by rw [State.powerQuery_present hk h]; rfl⟩

theorem Phy.selectTarget_outcome (p : Phy) (A : Rom) :
    (p.follows (resetEvents 24) ∧ p.selectTarget A = (false, p.after (resetEvents 24)))
    ∨ ∃ k, k < 24 ∧ p.follows (resetEvents k ++ selectEvents A)
      ∧ p.selectTarget A = (true, (p.after (resetEvents k ++ selectEvents A)).withRegs p.crc 0#8 8#4) := by
  rcases p.reset_cases with h | ⟨k, hk, h⟩
  · exact .inl ⟨h, Phy.selectTarget_absent h⟩
  · exact .inr ⟨k, hk, by rw [Phy.follows_append]; exact ⟨h, Phy.follows_select ..⟩, Phy.selectTarget_present hk h⟩

/-! ## The commands, every way they can end from an active session -/

theorem execResetBus_outcome {s : State} (hs : s.session = true) : ∃ k c sh n, k ≤ 24 ∧ s.phy.follows (resetEvents k)
    ∧ execResetBus s
      = .next ({ s.ran (resetEvents k) c sh n with result := zextBit (decide (k < 24)) }.finish .ok) := by
  obtain ⟨k, hk, h⟩ := Phy.follows_reset_exists s.phy
  refine ⟨k, s.phy.crc, s.phy.shift, s.phy.bitcnt, hk, h, ?_⟩
  rw [execResetBus, State.inSession_true hs, Phy.resetPresence_of_follows hk h]
  simp only [State.withPhy_after]

theorem execReadRom_outcome {s : State} (hs : s.session = true) :
    (∃ c sh n, s.phy.follows (resetEvents 24)
      ∧ execReadRom s = .next ((s.ran (resetEvents 24) c sh n).finish .noDevice))
    ∨ ∃ k d es c sh n, k < 24 ∧ es = resetEvents k ++ writeEvents [0x33#8] ++ readEvents (Vector.toList d)
      ∧ s.phy.follows es
      ∧ execReadRom s = .next ({ s.ran es c sh n with romid := d }.finish
          (if crc8 (d.toList.take 7) = d[7] then .ok else .crcError)) := by
  rcases s.phy.reset_cases with h | ⟨k, hk, h⟩
  · refine .inl ⟨s.phy.crc, s.phy.shift, s.phy.bitcnt, h, ?_⟩
    rw [execReadRom, State.inSession_true hs, Phy.resetPresence_of_follows (Nat.le_refl _) h]
    simp only [Nat.lt_irrefl, decide_false, State.withPhy_after]
  · obtain ⟨d, hd⟩ := Phy.follows_rom_exists (s.phy.after (resetEvents k ++ writeEvents [0x33#8]))
    refine .inr ⟨k, d, _, crc8 (d.toList.take 7), d[7], 8#4, hk, rfl, ?_, ?_⟩
    · rw [Phy.follows_append, Phy.follows_append]
      exact ⟨⟨h, Phy.follows_writeEvents ..⟩, hd⟩
    · rw [execReadRom, State.inSession_true hs, Phy.resetPresence_of_follows (Nat.le_of_lt hk) h]
      simp only [hk, decide_true, Phy.sendWire_eq, WireCmd.byte, ← Phy.after_append]
      rw [Phy.readFramed_rom ((Phy.follows_withRegs ..).mpr hd)]
      by_cases hc : crc8 (d.toList.take 7) = d[7] <;> simp [hc, State.ran, State.withPhy, Phy.after_append]

theorem execReadPowerSupply_outcome {s : State} (hs : s.session = true) :
    (∃ c sh n, s.phy.follows (resetEvents 24)
      ∧ execReadPowerSupply s = .next ((s.ran (resetEvents 24) c sh n).finish .noDevice))
    ∨ ∃ k b es c sh n, k < 24 ∧ es = resetEvents k ++ selectEvents s.addr ++ writeEvents [0xB4#8] ++ readBitEvents b
      ∧ s.phy.follows es
      ∧ execReadPowerSupply s = .next ({ s.ran es c sh n with pwr := b, result := zextBit b }.finish .ok) := by
  rcases s.powerQuery_outcome s.addr with ⟨c, sh, n, h, e⟩ | ⟨k, b, es, c, sh, n, hk, hes, h, e⟩
  · exact .inl ⟨c, sh, n, h, by rw [execReadPowerSupply, State.inSession_true hs, e]⟩
  · exact .inr ⟨k, b, es, c, sh, n, hk, hes, h, by rw [execReadPowerSupply, State.inSession_true hs, e]⟩

theorem execInit_outcome {s p : State} (hs : s.session = false) (hp : p = s.initSetup) :
    (∃ c sh n, p.phy.follows (resetEvents 24) ∧ execInit s = .next ((p.ran (resetEvents 24) c sh n).finish .ok))
    ∨ ∃ k b es c sh n, k < 24
      ∧ es = resetEvents k ++ selectEvents sentinel ++ writeEvents [0xB4#8] ++ readBitEvents b
      ∧ p.phy.follows es ∧ execInit s = .next ({ p.ran es c sh n with pwr := b }.finish .ok) := by
  subst hp
  rcases s.initSetup.powerQuery_outcome sentinel with ⟨c, sh, n, h, e⟩ | ⟨k, b, es, c, sh, n, hk, hes, h, e⟩
  · exact .inl ⟨c, sh, n, h, by rw [execInit, if_neg (by simp [hs]), e]⟩
  · exact .inr ⟨k, b, es, c, sh, n, hk, hes, h, by rw [execInit, if_neg (by simp [hs]), e]⟩

theorem execReadScratchpad_outcome {s : State} (hs : s.session = true) :
    (∃ c sh n, s.phy.follows (resetEvents 24)
      ∧ execReadScratchpad s = .next ((s.ran (resetEvents 24) c sh n).finish .noDevice))
    ∨ ∃ k d c sh n, k < 24 ∧ s.phy.follows (readSpEvents k s.addr d)
      ∧ execReadScratchpad s = .next ({ s.ran (readSpEvents k s.addr d) c sh n with spbuf := d }.finish
          (if crc8 (d.toList.take 8) = d[8] then .ok else .crcError)) := by
  rcases s.readSp_outcome with ⟨c, sh, n, h, e⟩ | ⟨k, d, sh, n, hk, h, e⟩
  · exact .inl ⟨c, sh, n, h, by rw [execReadScratchpad, State.inSession_true hs, e]⟩
  · exact .inr ⟨k, d, _, sh, n, hk, h, by rw [execReadScratchpad, State.inSession_true hs, e]⟩

theorem execWriteScratchpad_outcome {s : State} (hs : s.session = true) :
    (∃ c sh n, s.phy.follows (resetEvents 24)
      ∧ execWriteScratchpad s = .next ((s.ran (resetEvents 24) c sh n).finish .noDevice))
    ∨ ∃ k es c sh n, k < 24 ∧ es = resetEvents k ++ selectEvents s.addr ++ writeEvents (0x4E#8 :: s.spOperands)
      ∧ s.phy.follows es ∧ execWriteScratchpad s = .next ((s.ran es c sh n).finish .ok) := by
  rcases s.phy.selectTarget_outcome s.addr with ⟨h, e⟩ | ⟨k, hk, h, e⟩
  · exact .inl ⟨s.phy.crc, s.phy.shift, s.phy.bitcnt, h, by rw [execWriteScratchpad, State.inSession_true hs, e, ← State.withPhy_after]⟩
  · refine .inr ⟨k, _, s.phy.crc, 0#8, 8#4, hk, rfl, ?_, ?_⟩
    · rw [Phy.follows_append]
      exact ⟨h, Phy.follows_writeEvents ..⟩
    · rw [execWriteScratchpad, State.inSession_true hs, e]
      simp only [Phy.sendWire_writeBytes, Phy.after_withRegs, Phy.withRegs_withRegs, Phy.withRegs_crc, WireCmd.byte]
      rw [State.ran, Phy.after_append _ (_ ++ _) (writeEvents _)]
      rfl

theorem execConvertTemperature_outcome {s : State} (hs : s.session = true) :
    (∃ c sh n, s.phy.follows (resetEvents 24)
      ∧ execConvertTemperature s = .next ((s.ran (resetEvents 24) c sh n).finish .noDevice))
    ∨ ∃ k es c sh n, k < 24
      ∧ es = resetEvents k ++ selectEvents s.addr ++ writeEvents [0x44#8] ++ s.convertActs.map .act
      ∧ s.phy.follows es ∧ execConvertTemperature s = .next ((s.ran es c sh n).finish .ok) := by
  rcases s.phy.selectTarget_outcome s.addr with ⟨h, e⟩ | ⟨k, hk, h, e⟩
  · exact .inl ⟨s.phy.crc, s.phy.shift, s.phy.bitcnt, h, by rw [execConvertTemperature, State.inSession_true hs, e, ← State.withPhy_after]⟩
  · refine .inr ⟨k, _, s.phy.crc, 0#8, 8#4, hk, rfl, ?_, ?_⟩
    · rw [Phy.follows_append, Phy.follows_append]
      exact ⟨⟨h, Phy.follows_writeEvents ..⟩, Phy.follows_acts ..⟩
    · rw [execConvertTemperature, State.inSession_true hs, e]
      simp only [Phy.sendWire_eq, Phy.acts_eq, Phy.after_withRegs, Phy.withRegs_withRegs, Phy.withRegs_crc, WireCmd.byte]
      rw [State.ran, Phy.after_append _ (_ ++ _) (s.convertActs.map .act), Phy.after_append _ (_ ++ _) (writeEvents _)]
      rfl

theorem execConvertDuration_outcome {s : State} (hs : s.session = true) :
    (s.family ≠ .modern ∧ execConvertDuration s = .next ({ s with result := BitVec.ofNat 32 (convEst 12) }.finish .ok))
    ∨ (∃ c sh n, s.family = .modern ∧ s.phy.follows (resetEvents 24) ∧ execConvertDuration s
        = .next ({ s.ran (resetEvents 24) c sh n with result := BitVec.ofNat 32 (convEst 12) }.finish .ok))
    ∨ ∃ k d c sh n r, s.family = .modern ∧ k < 24 ∧ s.phy.follows (readSpEvents k s.addr d)
      ∧ execConvertDuration s
        = .next ({ s.ran (readSpEvents k s.addr d) c sh n with spbuf := d, result := r }.finish .ok) := by
  by_cases hf : s.family = .modern
  · rcases s.readSp_outcome with ⟨c, sh, n, h, e⟩ | ⟨k, d, sh, n, hk, h, e⟩
    · refine .inr (.inl ⟨c, sh, n, hf, h, ?_⟩)
      rw [execConvertDuration, State.inSession_true hs, if_pos hf, e]
      rfl
    · exact .inr (.inr ⟨k, d, _, sh, n, _, hf, hk, h, by
        rw [execConvertDuration, State.inSession_true hs, if_pos hf, e]⟩)
  · exact .inl ⟨hf, by rw [execConvertDuration, State.inSession_true hs, if_neg hf]⟩

theorem execGetTemperature_outcome {s : State} (hs : s.session = true) :
    (∃ c sh n, s.phy.follows (resetEvents 24)
      ∧ execGetTemperature s = .next ((s.ran (resetEvents 24) c sh n).finish .noDevice))
    ∨ ∃ k d c sh n w m, k < 24 ∧ s.phy.follows (readSpEvents k s.addr d)
      ∧ (execGetTemperature s = .next ({ s.ran (readSpEvents k s.addr d) c sh n with spbuf := d }.finish .crcError)
        ∨ execGetTemperature s
          = .next ({ s.ran (readSpEvents k s.addr d) c sh n with spbuf := d, temp := w, free := m }.finish
              (if s.family = FamilyClass.unknown then .unsupported else .ok))) := by
  rcases s.readSp_outcome with ⟨c, sh, n, h, e⟩ | ⟨k, d, sh, n, hk, h, e⟩
  · refine .inl ⟨c, sh, n, h, ?_⟩
    rw [execGetTemperature, State.inSession_true hs, e]
    rfl
  · by_cases hc : crc8 (d.toList.take 8) = d[8]
    · obtain ⟨w, m, hw⟩ := State.writeTemp_frame
        { s.ran (readSpEvents k s.addr d) (crc8 (d.toList.take 8)) sh n with spbuf := d }
      refine .inr ⟨k, d, crc8 (d.toList.take 8), sh, n, w, m, hk, h, .inr ?_⟩
      rw [execGetTemperature, State.inSession_true hs, e, if_pos hc]
      simp only [if_true, hw]
    · refine .inr ⟨k, d, crc8 (d.toList.take 8), sh, n, 0#32, 0, hk, h, .inl ?_⟩
      rw [execGetTemperature, State.inSession_true hs, e, if_neg hc]
      rfl

theorem execGetResolution_outcome {s : State} (hs : s.session = true) :
    (s.family = .unknown ∧ execGetResolution s = .next (s.finish .unsupported))
    ∨ (s.family = .legacy ∧ execGetResolution s = .next ({ s with result := 9#32 }.finish .ok))
    ∨ (∃ c sh n, s.family = .modern ∧ s.phy.follows (resetEvents 24)
      ∧ execGetResolution s = .next ((s.ran (resetEvents 24) c sh n).finish .noDevice))
    ∨ ∃ k d c sh n r, s.family = .modern ∧ k < 24 ∧ s.phy.follows (readSpEvents k s.addr d)
      ∧ (execGetResolution s = .next ({ s.ran (readSpEvents k s.addr d) c sh n with spbuf := d }.finish .crcError)
        ∨ execGetResolution s
          = .next ({ s.ran (readSpEvents k s.addr d) c sh n with spbuf := d, result := r }.finish .ok)) := by
  cases hf : s.family with
  | unknown => exact .inl ⟨rfl, by rw [execGetResolution, State.inSession_true hs, hf]⟩
  | legacy => exact .inr (.inl ⟨rfl, by rw [execGetResolution, State.inSession_true hs, hf]⟩)
  | modern =>
    rcases s.readSp_outcome with ⟨c, sh, n, h, e⟩ | ⟨k, d, sh, n, hk, h, e⟩
    · refine .inr (.inr (.inl ⟨c, sh, n, rfl, h, ?_⟩))
      rw [execGetResolution, State.inSession_true hs, hf, e]
      rfl
    · refine .inr (.inr (.inr ⟨k, d, crc8 (d.toList.take 8), sh, n,
        BitVec.ofNat 32 ((d[4].extractLsb' 5 2).toNat + 9), rfl, hk, h, ?_⟩))
      rw [execGetResolution, State.inSession_true hs, hf, e]
      by_cases hc : crc8 (d.toList.take 8) = d[8]
      · exact .inr (by rw [if_pos hc]; rfl)
      · exact .inl (by rw [if_neg hc]; rfl)

/-- SET_RESOLUTION: the two refusals before the bus, a failed read, and a read with, for `j = 24`, a second reset that
no device answers, or else the write. -/
theorem execSetResolution_outcome {s : State} (hs : s.session = true) :
    (s.family ≠ .modern ∧ execSetResolution s = .next (s.finish .unsupported))
    ∨ (s.family = .modern ∧ (s.res < 9 ∨ 12 < s.res) ∧ execSetResolution s = .next (s.finish .invalidArg))
    ∨ (s.family = .modern ∧ 9 ≤ s.res ∧ s.res ≤ 12
      ∧ ((∃ c sh n, s.phy.follows (resetEvents 24)
          ∧ execSetResolution s = .next ((s.ran (resetEvents 24) c sh n).finish .noDevice))
        ∨ (∃ k d c sh n, k < 24 ∧ s.phy.follows (readSpEvents k s.addr d) ∧ execSetResolution s
          = .next ({ s.ran (readSpEvents k s.addr d) c sh n with spbuf := d }.finish .crcError))
        ∨ ∃ k j d new es c sh n, k < 24 ∧ j ≤ 24
          ∧ es = readSpEvents k s.addr d ++ (resetEvents j
            ++ (if j < 24 then selectEvents s.addr ++ writeEvents [0x4E#8, d[2], d[3], new] else []))
          ∧ s.phy.follows es ∧ new = withResolution d[4] s.res
          ∧ execSetResolution s = .next ({ s.ran es c sh n with spbuf := d.set 4 new }.finish
              (if j < 24 then .ok else .noDevice)))) := by
  by_cases hf : s.family = .modern
  · by_cases hr : s.res < 9 ∨ 12 < s.res
    · exact .inr (.inl ⟨hf, hr, by
        rw [execSetResolution, State.inSession_true hs, if_neg (not_not.mpr hf), if_pos hr]⟩)
    · refine .inr (.inr ⟨hf, by omega, by omega, ?_⟩)
      rcases s.readSp_outcome with ⟨c, sh, n, h, e⟩ | ⟨k, d, sh, n, hk, h, e⟩
      · refine .inl ⟨c, sh, n, h, ?_⟩
        rw [execSetResolution, State.inSession_true hs, if_neg (not_not.mpr hf), if_neg hr, e]
        rfl
      · by_cases hc : crc8 (d.toList.take 8) = d[8]
        · obtain ⟨c, hcc⟩ : ∃ c, c = crc8 (d.toList.take 8) := ⟨_, rfl⟩
          rw [if_pos hc, ← hcc] at e
          obtain ⟨q, hq⟩ : ∃ q, q = (s.phy.after (readSpEvents k s.addr d)).withRegs c sh n := ⟨_, rfl⟩
          rcases q.selectTarget_outcome s.addr with ⟨h2, e2⟩ | ⟨j, hj, h2, e2⟩
          · refine .inr (.inr ⟨k, 24, d, _, _, c, sh, n, hk, Nat.le_refl _, rfl, ?_, rfl, ?_⟩)
            · rw [Phy.follows_append]
              refine ⟨h, ?_⟩
              rw [hq, Phy.follows_withRegs] at h2
              simpa using h2
            · rw [execSetResolution, State.inSession_true hs, if_neg (not_not.mpr hf), if_neg hr, e]
              simp only [ne_eq, not_true, if_false, State.ran]
              rw [← hq, e2]
              simp [hq, State.withPhy, Phy.after_append]
          · refine .inr (.inr ⟨k, j, d, _, _, c, 0#8, 8#4, hk, Nat.le_of_lt hj, rfl, ?_, rfl, ?_⟩)
            · rw [Phy.follows_append]
              refine ⟨h, ?_⟩
              rw [hq, Phy.follows_withRegs] at h2
              rw [if_pos hj, ← List.append_assoc, Phy.follows_append]
              exact ⟨h2, Phy.follows_writeEvents ..⟩
            · rw [execSetResolution, State.inSession_true hs, if_neg (not_not.mpr hf), if_neg hr, e]
              simp only [ne_eq, not_true, if_false, State.ran]
              rw [← hq, e2]
              simp only [Phy.sendWire_writeBytes, Phy.after_withRegs, Phy.withRegs_withRegs, Phy.withRegs_crc, hq,
                WireCmd.byte, if_pos hj, Phy.after_append]
              simp [State.withPhy]
        · refine .inr (.inl ⟨k, d, crc8 (d.toList.take 8), sh, n, hk, h, ?_⟩)
          rw [execSetResolution, State.inSession_true hs, if_neg (not_not.mpr hf), if_neg hr, e, if_neg hc]
          rfl
  · exact .inl ⟨hf, by rw [execSetResolution, State.inSession_true hs, if_pos hf]⟩

/-! ## A pass and a search, every way -/

/-- The positions of a pass: k of them with an address found, or some and then a (1, 1) pair. -/
theorem positions_outcome (k lz : Nat) (p : Phy) (f : Search) :
    (∃ ps sr lz', ps.length = k ∧ p.follows (positionEvents ps)
      ∧ positions k lz p f = { found := some (romOf sr), phy := p.after (positionEvents ps),
                               search := { f with sr := sr }.close lz' })
    ∨ ∃ ps sr, ps.length < k ∧ p.follows (positionEvents ps ++ (readBitEvents true ++ readBitEvents true))
      ∧ positions k lz p f
        = { found := none, phy := p.after (positionEvents ps ++ (readBitEvents true ++ readBitEvents true)),
            search := { f with sr := sr }.clear } := by
  induction k generalizing lz p f with
  | zero => exact .inl ⟨[], f.sr, lz, rfl, True.intro, rfl⟩
  | succ k ih =>
    obtain ⟨a, ha⟩ := Phy.follows_bit_exists p
    obtain ⟨c, hc⟩ := Phy.follows_bit_exists (p.after (readBitEvents a))
    have hac : p.follows (readBitEvents a ++ readBitEvents c) := (Phy.follows_append ..).mpr ⟨ha, hc⟩
    by_cases h : a = true ∧ c = true
    · obtain ⟨rfl, rfl⟩ := h
      exact .inr ⟨[], f.sr, Nat.succ_pos k, hac, positions_abort hac⟩
    · have hstep (ps) (h' : (p.after (readBitEvents a ++ readBitEvents c
          ++ writeBitEvents (f.direction (64 - k) a c))).follows ps) :
          p.follows (readBitEvents a ++ readBitEvents c ++ writeBitEvents (f.direction (64 - k) a c) ++ ps) := by
        rw [Phy.follows_append, Phy.follows_append]
        exact ⟨⟨hac, Phy.follows_writeBit ..⟩, h'⟩
      rcases ih (recordZero (64 - k) lz a c (f.direction (64 - k) a c))
        (p.after (readBitEvents a ++ readBitEvents c ++ writeBitEvents (f.direction (64 - k) a c)))
        (f.setBit (64 - k) (f.direction (64 - k) a c)) with ⟨ps, sr, lz', hl, hf, e⟩ | ⟨ps, sr, hl, hf, e⟩
      · refine .inl ⟨(a, c, f.direction (64 - k) a c) :: ps, sr, lz', by simp [hl], hstep _ hf, ?_⟩
        rw [positions_step hac h, e, positionEvents_cons, Phy.after_append _ (_ ++ _) (positionEvents ps)]
        rfl
      · refine .inr ⟨(a, c, f.direction (64 - k) a c) :: ps, sr, by simpa using hl, ?_, ?_⟩
        · rw [positionEvents_cons, List.append_assoc (_ ++ writeBitEvents _)]
          exact hstep _ hf
        · rw [positions_step hac h, e, positionEvents_cons,
            List.append_assoc (_ ++ writeBitEvents _), Phy.after_append _ (_ ++ writeBitEvents _) _]
          rfl

/-- Every way a pass can go: nothing after the last device, and only there, or one transaction. -/
theorem findNext_outcome (A : Rom) (p : Phy) (f : Search) : ∃ es c sh n,
    (f.ldf = true ∧ es = [] ∨ Transaction A es ∧ quietOpening es = true)
    ∧ p.follows es
    ∧ (findNext p f).phy = (p.after es).withRegs c sh n := by
  cases hf : f.ldf with
  | true => exact ⟨[], p.crc, p.shift, p.bitcnt, .inl ⟨rfl, rfl⟩, True.intro, by simp [findNext, hf, Phy.withRegs]⟩
  | false =>
    rcases p.reset_cases with h | ⟨k, hk, h⟩
    · refine ⟨resetEvents 24, p.crc, p.shift, p.bitcnt, .inr ⟨.noPresence, rfl⟩, h, ?_⟩
      have e := Phy.withRegs_self (p.after (resetEvents 24))
      rw [Phy.after_crc, Phy.after_shift, Phy.after_bitcnt] at e
      simp only [findNext, hf, Phy.resetPresence_of_follows (Nat.le_refl _) h, Nat.lt_irrefl, decide_false, e]
      rfl
    · have e : findNext p f = positions 64 0
          ((p.after (resetEvents k ++ writeEvents [0xF0#8])).withRegs p.crc 0#8 8#4) f := by
        simp [findNext, hf, Phy.resetPresence_of_follows (Nat.le_of_lt hk) h, hk, Phy.sendWire_eq, Phy.after_append,
          WireCmd.byte]
      have hp : p.follows (resetEvents k ++ writeEvents [0xF0#8]) := by
        rw [Phy.follows_append]
        exact ⟨h, Phy.follows_writeEvents ..⟩
      rcases positions_outcome 64 0 ((p.after (resetEvents k ++ writeEvents [0xF0#8])).withRegs p.crc 0#8 8#4) f
        with ⟨ps, sr, lz', hl, hfo, e2⟩ | ⟨ps, sr, hl, hfo, e2⟩
      · refine ⟨_, p.crc, 0#8, 8#4, .inr ⟨.searchWhole k ps hk hl, ?_⟩, ?_, ?_⟩
        · simp [List.append_assoc, quietOpening_reset, List.all_append]
        · rw [Phy.follows_append]
          exact ⟨hp, by simpa using hfo⟩
        · rw [e, e2, Phy.after_append _ (_ ++ _) _, Phy.after_withRegs]
      · refine ⟨_, p.crc, 0#8, 8#4, .inr ⟨.searchAborted k ps hk hl, ?_⟩, ?_, ?_⟩
        · simp [List.append_assoc, quietOpening_reset, List.all_append]
        · rw [List.append_assoc, List.append_assoc, Phy.follows_append]
          exact ⟨hp, (Phy.follows_withRegs ..).mp hfo⟩
        · rw [e, e2, List.append_assoc, List.append_assoc (_ ++ _), Phy.after_append _ (_ ++ writeEvents _) _,
            Phy.after_withRegs]

/-- Every way the pass loop can go on from `count` addresses stored. -/
theorem searchLoop_outcome (A : Rom) (fuel count : Nat) (s : State) : ∃ txs c sh n f list result status seq,
    (∀ tx ∈ txs, Transaction A tx ∧ quietOpening tx = true) ∧ (s.search.ldf = false → 0 < fuel → txs ≠ [])
    ∧ s.phy.follows (List.flatten txs)
    ∧ (seq = .idle → status = 0x00#8 ∨ status = 0x02#8 ∨ status = 0x04#8)
    ∧ searchLoop fuel count s
      = { s.ran (List.flatten txs) c sh n with
          search := f, addrlist := list, result := result, status := status, seq := seq } := by
  induction fuel generalizing count s with
  | zero => exact ⟨[], s.phy.crc, s.phy.shift, s.phy.bitcnt, s.search, s.addrlist, s.result, s.status,
      .run (HostOp.opcode .searchRom) [.searchLoop count] .none, by simp, by simp, True.intro, by simp, by rw [searchLoop]; rfl⟩
  | succ fuel ih =>
    obtain ⟨es, c, sh, n, ht, hfo, hp⟩ := findNext_outcome A s.phy s.search
    obtain ⟨txs, htx, hne, hfl⟩ : ∃ txs, (∀ tx ∈ txs, Transaction A tx ∧ quietOpening tx = true)
        ∧ (s.search.ldf = false → 0 < fuel + 1 → txs ≠ []) ∧ List.flatten txs = es := by
      rcases ht with ⟨hl, rfl⟩ | ht
      · exact ⟨[], by simp, by simp [hl], rfl⟩
      · exact ⟨[es], by simpa using ht, by simp, by simp⟩
    have hpass : s.withPass (findNext s.phy s.search) = { s.ran es c sh n with search := (findNext s.phy s.search).search } := by
      rw [State.withPass, hp]
      rfl
    have more (t : State) (list) (ht : t = { s.ran es c sh n with search := (findNext s.phy s.search).search, addrlist := list }) (m : Nat) :
        ∃ txs c sh n f list result status seq, (∀ tx ∈ txs, Transaction A tx ∧ quietOpening tx = true)
        ∧ (s.search.ldf = false → 0 < fuel + 1 → txs ≠ []) ∧ s.phy.follows (List.flatten txs)
        ∧ (seq = .idle → status = 0x00#8 ∨ status = 0x02#8 ∨ status = 0x04#8)
        ∧ searchLoop fuel m t
          = { s.ran (List.flatten txs) c sh n with
              search := f, addrlist := list, result := result, status := status, seq := seq } := by
      obtain ⟨txs', c', sh', n', f, list', result, status, seq, h1, -, h2, h3, h4⟩ := ih m t
      refine ⟨txs ++ txs', c', sh', n', f, list', result, status, seq, ?_,
        fun a b e => hne a b (List.append_eq_nil_iff.mp e).1, ?_, h3, ?_⟩
      · intro tx h
        rcases List.mem_append.mp h with h | h
        · exact htx tx h
        · exact h1 tx h
      · rw [List.flatten_append, hfl, Phy.follows_append]
        refine ⟨hfo, ?_⟩
        rw [ht] at h2
        simpa [State.ran] using h2
      · rw [h4, List.flatten_append, hfl, ht]
        simp [State.ran, Phy.after_append]
    rw [searchLoop]
    simp only
    split
    · refine ⟨txs, c, sh, n, (findNext s.phy s.search).search, s.addrlist, BitVec.ofNat 32 count,
        statusCode (if count = 0 then .noDevice else .ok), .idle, htx, hne, by rw [hfl]; exact hfo, ?_, ?_⟩
      · intro _
        by_cases h0 : count = 0 <;> simp [h0, statusCode]
      · rw [hpass, hfl]
        rfl
    · split
      · split
        · refine ⟨txs, c, sh, n, (findNext s.phy s.search).search, s.addrlist, BitVec.ofNat 32 count,
            statusCode .tooMany, .idle, htx, hne, by rw [hfl]; exact hfo, by simp [statusCode], ?_⟩
          rw [hpass, hfl]
          rfl
        · exact more _ _ (by rw [hpass]) _
      · exact more _ s.addrlist (by rw [hpass]; rfl) _

/-- SEARCH_ROM from an active session. -/
theorem execSearchRom_outcome {s : State} (hs : s.session = true) (A : Rom) :
    (s.params.addrlistDepth < s.cap ∧ execSearchRom s = .next (s.finish .invalidArg))
    ∨ (s.cap ≤ s.params.addrlistDepth ∧ ∃ txs c sh n f list result status seq,
      (∀ tx ∈ txs, Transaction A tx ∧ quietOpening tx = true) ∧ txs ≠ [] ∧ s.phy.follows (List.flatten txs)
      ∧ (seq = .idle → status = 0x00#8 ∨ status = 0x02#8 ∨ status = 0x04#8)
      ∧ execSearchRom s = .next { s.ran (List.flatten txs) c sh n with
          search := f, addrlist := list, result := result, status := status, seq := seq }) := by
  by_cases h : s.params.addrlistDepth < s.cap
  · exact .inl ⟨h, by rw [execSearchRom, State.inSession_true hs, if_pos h]⟩
  · obtain ⟨txs, c, sh, n, f, list, result, status, seq, h1, hne, h2, h3, h4⟩ :=
      searchLoop_outcome A passBound 0 { s with search := s.search.clear }
    refine .inr ⟨by omega, txs, c, sh, n, f, list, result, status, seq, h1, hne rfl (Nat.succ_pos _), h2, h3, ?_⟩
    rw [execSearchRom, State.inSession_true hs, if_neg h, h4]
    rfl

end Sys2Proof.Machine
end

