-- ==== Sys2Proof/Laws/Engine.lean ====
section
/-! SUPPORT. The sequencer's lines against the whole operations: a line with a procedure's name, run to its end, leaves
the bus side and the result that the operation of that name gives (R34, R63). Each lemma goes backwards: what comes of
the lines after the procedure comes of the procedure's line and those lines. -/

namespace Sys2Proof.Machine

/-- From s with these lines to run, the sequencer comes to t. -/
def State.Comes (s : State) (op : Byte) (ps : List Point) (ret : Val) (t : State) : Prop :=
  ∃ n, coreRun n { s with seq := .run op ps ret } = .next t

variable {s t : State} {op : Byte} {rest : List Point} {ret : Val}

/-- One line that goes on. -/
theorem State.Comes.step {p : Point} {u : State} {new : List Point} {ret' : Val}
    (h : u.Comes op (new ++ rest) ret' t)
    (hp : p.run op rest ret { s with seq := .run op (p :: rest) ret } = u.goOn op new rest ret') :
    s.Comes op (p :: rest) ret t := by
  obtain ⟨n, hn⟩ := h
  refine ⟨n + 1, ?_⟩
  rw [coreRun]
  have : coreStep { s with seq := .run op (p :: rest) ret } = p.run op rest ret { s with seq := .run op (p :: rest) ret } := rfl
  rw [this, hp]
  exact hn

/-- One line that ends the command. -/
theorem State.Comes.done {p : Point} {u : State} {st : Status}
    (hp : p.run op rest ret { s with seq := .run op (p :: rest) ret } = u.done st) :
    s.Comes op (p :: rest) ret (u.finish st) := by
  refine ⟨1, ?_⟩
  rw [coreRun]
  have : coreStep { s with seq := .run op (p :: rest) ret } = p.run op rest ret { s with seq := .run op (p :: rest) ret } := rfl
  rw [this, hp]
  rfl

theorem comes_finish (st : Status) : s.Comes op (.finish st :: rest) ret (s.finish st) :=
  State.Comes.done (u := { s with seq := .run op (.finish st :: rest) ret }) rfl

theorem comes_acts {as : List Act} (h : (s.withPhy (s.phy.acts as)).Comes op rest ret t) :
    s.Comes op (actPoints as ++ rest) ret t := by
  induction as generalizing s with
  | nil => exact h
  | cons a as ih => exact .step (u := s.withPhy (s.phy.act a)) (new := []) (ih h) rfl

theorem comes_sample (h : (s.withPhy s.phy.sample.2).Comes op rest (.bit s.phy.sample.1) t) :
    s.Comes op (.sample :: rest) ret t := .step (new := []) h rfl

theorem comes_presence (k time : Nat) (h : (s.withPhy (s.phy.presence k time).2).Comes op rest (.bit (s.phy.presence k time).1) t) :
    s.Comes op (.presence k time :: rest) ret t := by
  induction k generalizing s time ret with
  | zero =>
    refine .step (u := s) (new := [.presencePad time false]) (ret' := .none) ?_ rfl
    exact .step (new := []) h rfl
  | succ k ih =>
    refine .step (u := s) (new := [.sample, .presenceGot k time]) (ret' := .none) ?_ rfl
    refine comes_sample ?_
    rw [Phy.presence] at h
    cases hs : s.phy.sample with
    | mk b q =>
      rw [hs] at h
      cases b with
      | false =>
        refine .step (u := s.withPhy q) (new := [.presencePad time true]) (ret' := .none) ?_ rfl
        exact .step (new := []) h rfl
      | true =>
        refine .step (u := s.withPhy q) (new := [.act (.waitUs Config.tPdpoll), .presence k (time + Config.tPdpoll)])
            (ret' := .none) ?_ rfl
        refine .step (u := s.withPhy (q.act (.waitUs Config.tPdpoll))) (new := []) (ret' := .none) ?_ rfl
        exact ih _ h

theorem comes_reset (h : (s.withPhy s.phy.resetPresence.2).Comes op rest (.bit s.phy.resetPresence.1) t) :
    s.Comes op (.resetPresence :: rest) ret t := by
  refine .step (u := s) (new := actPoints resetOpen ++ [Point.presence Config.nPdpoll Config.tPdwait])
      (ret' := .none) ?_ rfl
  rw [List.append_assoc]
  apply comes_acts
  apply comes_presence
  rw [Phy.resetPresence] at h
  exact h

theorem comes_writeBit {b : Bool} (h : (s.withPhy (s.phy.writeBit b)).Comes op rest .none t) :
    s.Comes op (.writeBit b :: rest) ret t :=
  .step (u := s) (new := actPoints (writeSlot b)) (ret' := .none) (comes_acts h) rfl

theorem comes_readBit (h : (s.withPhy s.phy.readBit.2).Comes op rest (.bit s.phy.readBit.1) t) :
    s.Comes op (.readBit :: rest) ret t := by
  refine .step (u := s) (new := actPoints readSlotOpen ++ [Point.sample] ++ actPoints readSlotClose)
      (ret' := .none) ?_ rfl
  rw [List.append_assoc, List.append_assoc]
  apply comes_acts
  apply comes_sample
  apply comes_acts
  rw [Phy.readBit] at h
  simp only [State.withPhy] at h ⊢
  generalize s.phy.acts readSlotOpen = q at *
  exact h

theorem comes_writeLoop (k : Nat) (h : (s.withPhy (s.phy.writeLoop k)).Comes op rest .none t) :
    s.Comes op (.writeLoop k :: rest) ret t := by
  induction k generalizing s ret with
  | zero => exact .step (new := []) h rfl
  | succ k ih =>
    refine .step (u := s.withPhy { s.phy with bitcnt := BitVec.ofNat 4 (8 - (k + 1)) })
        (new := [.writeBit (s.phy.shift.getLsbD 0), .writeShift k]) (ret' := .none) ?_ rfl
    apply comes_writeBit
    rw [Phy.writeLoop] at h
    simp only [State.withPhy] at h ⊢
    generalize Phy.writeBit _ _ = x at *
    exact .step (u := s.withPhy { x with shift := x.shift >>> 1 }) (new := [.writeLoop k]) (ret' := .none) (ih h) rfl

theorem comes_writeByte {v : Byte} (h : (s.withPhy (s.phy.writeByte v)).Comes op rest .none t) :
    s.Comes op (.writeByte v :: rest) ret t := by
  refine .step (u := s.withPhy { s.phy with shift := v }) (new := [.writeLoop 8]) (ret' := .none) ?_ rfl
  exact comes_writeLoop 8 h

/-- The line of a wire command byte (R98, R202). -/
theorem comes_command {c : WireCmd} (hc : c ≠ .alarmSearch) (h : (s.withPhy (s.phy.sendWire c)).Comes op rest .none t) :
    s.Comes op (.command c :: rest) ret t :=
  .step (u := s) (new := [.writeByte c.byte]) (ret' := .none) (comes_writeByte h) (if_neg hc)

theorem comes_writeBytes {bs : List Byte} (h : (s.withPhy (s.phy.writeBytes bs)).Comes op rest .none t) :
    s.Comes op (bs.map Point.writeByte ++ rest) .none t := by
  induction bs generalizing s with
  | nil => exact h
  | cons b bs ih => exact comes_writeByte (ih h)

theorem comes_readLoop (k : Nat) (h : (s.withPhy (s.phy.readLoop k)).Comes op rest (.byte (s.phy.readLoop k).shift) t) :
    s.Comes op (.readLoop k :: rest) ret t := by
  induction k generalizing s ret with
  | zero => exact .step (new := []) h rfl
  | succ k ih =>
    refine .step (u := s.withPhy { s.phy with bitcnt := BitVec.ofNat 4 (8 - (k + 1)) })
        (new := [.readBit, .readShift k]) (ret' := .none) ?_ rfl
    apply comes_readBit
    rw [Phy.readLoop] at h
    simp only [State.withPhy] at h ⊢
    generalize Phy.readBit _ = x at *
    exact .step (u := s.withPhy (x.2.shiftIn x.1)) (new := [.readLoop k]) (ret' := .none) (ih h) rfl

theorem comes_readByte (h : (s.withPhy s.phy.readByte.2).Comes op rest (.byte s.phy.readByte.1) t) :
    s.Comes op (.readByte :: rest) ret t := by
  refine .step (u := s.withPhy { s.phy with shift := 0#8 }) (new := [.readLoop 8]) (ret' := .none) ?_ rfl
  refine comes_readLoop 8 ?_
  exact h

theorem comes_framedLoop (m : Nat) (acc : List Byte)
    (h : let r := s.phy.readData m
         let x := r.2.readByte
         (s.withPhy x.2).Comes op rest (.frame (acc ++ r.1 ++ [x.1]) (x.2.crc == x.1)) t) :
    s.Comes op (.framedLoop m acc :: rest) ret t := by
  induction m generalizing s ret acc with
  | zero =>
    refine .step (u := s) (new := [.readByte, .framedCheck acc]) (ret' := .none) ?_ rfl
    apply comes_readByte
    simp only [Phy.readData] at h
    generalize s.phy.readByte = x at *
    rw [List.append_nil] at h
    exact .step (u := s.withPhy x.2) (new := []) (ret' := .frame _ _) h rfl
  | succ m ih =>
    refine .step (u := s) (new := [.readByte, .framedData m acc]) (ret' := .none) ?_ rfl
    apply comes_readByte
    simp only [Phy.readData] at h
    generalize s.phy.readByte = x at *
    refine .step (u := s.withPhy (x.2.crcByte x.1)) (new := [.framedLoop m (acc ++ [x.1])]) (ret' := .none) ?_ rfl
    apply ih
    intro r y
    rw [List.append_assoc acc [x.1]]
    exact h

theorem comes_readFramed (m : Nat) {d : List Byte} {ok : Bool} {r : Phy} (hx : s.phy.readFramed m = (d, ok, r))
    (h : (s.withPhy r).Comes op rest (.frame d ok) t) : s.Comes op (.readFramed m :: rest) ret t := by
  refine .step (u := s.withPhy { s.phy with crc := 0x00#8 }) (new := [.framedLoop m []]) (ret' := .none) ?_ rfl
  apply comes_framedLoop
  rw [Phy.readFramed] at hx
  simp only [Prod.mk.injEq] at hx
  obtain ⟨rfl, rfl, rfl⟩ := hx
  exact h

theorem comes_clearSearch (h : ({ s with search := s.search.clear } : State).Comes op rest (.found none) t) :
    s.Comes op (.clearSearch :: rest) ret t := .step (new := []) h rfl

theorem comes_positions (k lz : Nat) (h : let r := positions k lz s.phy s.search
      ({ s with phy := r.phy, search := r.search }).Comes op rest (.found r.found) t) :
    s.Comes op (.position k lz :: rest) ret t := by
  induction k generalizing s ret lz with
  | zero =>
    refine .step (u := s) (new := [.setLd lz]) (ret' := .none) ?_ rfl
    refine .step (u := { s with search := s.search.setLd lz }) (new := [.setLdf]) (ret' := .none) ?_ rfl
    exact .step (u := { s with search := s.search.close lz }) (new := []) h rfl
  | succ k ih =>
    refine .step (u := s) (new := [.readBit, .positionA k lz]) (ret' := .none) ?_ rfl
    apply comes_readBit
    rw [positions] at h
    rcases hr1 : s.phy.readBit with ⟨a, p1⟩
    rw [hr1] at h
    refine .step (u := s.withPhy p1) (new := [.readBit, .positionC k lz a]) (ret' := .none) ?_ rfl
    apply comes_readBit
    have hw : (s.withPhy p1).phy = p1 := rfl
    rw [hw]
    rcases hr2 : p1.readBit with ⟨c, p2⟩
    simp only [hr2] at h
    refine .step (u := s.withPhy p2) (new := if a && c then [.clearSearch] else [.direction k lz a c]) (ret' := .none)
      ?_ rfl
    split at h
    · next hac =>
      rw [if_pos hac]
      exact comes_clearSearch h
    · next hac =>
      rw [if_neg hac]
      refine .step (u := s.withPhy p2) (new := [.setSr (64 - k) (s.search.direction (64 - k) a c),
        .writeBit (s.search.direction (64 - k) a c),
        .position k (recordZero (64 - k) lz a c (s.search.direction (64 - k) a c))]) (ret' := .none) ?_ rfl
      refine .step (u := { s with phy := p2, search := s.search.setBit (64 - k) (s.search.direction (64 - k) a c) })
        (new := []) (ret' := .none) ?_ rfl
      apply comes_writeBit
      exact ih _ h

theorem comes_findNext (h : let r := findNext s.phy s.search
      ({ s with phy := r.phy, search := r.search }).Comes op rest (.found r.found) t) :
    s.Comes op (.findNext :: rest) ret t := by
  rw [findNext] at h
  refine .step (u := s) (new := if s.search.ldf then [.clearSearch] else [.resetPresence, .findNextReset])
    (ret' := .none) ?_ rfl
  cases hl : s.search.ldf with
  | true =>
    simp only [hl, if_true] at h
    exact comes_clearSearch h
  | false =>
    simp only [hl, Bool.false_eq_true, if_false] at h
    apply comes_reset
    rcases hr : s.phy.resetPresence with ⟨b, q⟩
    cases b with
    | false =>
      simp only [hr] at h
      refine .step (u := s.withPhy q) (new := [.clearSearch]) (ret' := .none) ?_ rfl
      exact comes_clearSearch h
    | true =>
      simp only [hr] at h
      refine .step (u := s.withPhy q) (new := [.command .searchRom, .position 64 0]) (ret' := .none) ?_ rfl
      apply comes_command (by decide)
      apply comes_positions
      exact h

theorem comes_select {A : Rom} (h : (s.withPhy (s.phy.selectTarget A).2).Comes op rest (.bit (s.phy.selectTarget A).1) t) :
    s.Comes op (.selectTarget A :: rest) ret t := by
  refine .step (u := s) (new := [.resetPresence, .selectReset A]) (ret' := .none) ?_ rfl
  apply comes_reset
  rw [Phy.selectTarget] at h
  rcases hr : s.phy.resetPresence with ⟨b, q⟩
  rw [hr] at h
  cases b with
  | false => exact .step (u := s.withPhy q) (new := []) (ret' := .bit false) h rfl
  | true =>
    refine .step (u := s.withPhy q) (new := [.selectRom A]) (ret' := .none) ?_ rfl
    refine .step (u := s.withPhy q) (new := if A = sentinel then [.command .skipRom, .selectDone]
      else .command .matchRom :: (A.toList.map .writeByte ++ [.selectDone])) (ret' := .none) ?_ rfl
    simp only [Phy.selectRom] at h
    by_cases hA : A = sentinel
    · rw [if_pos hA] at h ⊢
      apply comes_command (by decide)
      exact .step (u := s.withPhy _) (new := []) (ret' := .bit true) h rfl
    · rw [if_neg hA] at h ⊢
      rw [List.cons_append, List.append_assoc]
      apply comes_command (by decide)
      apply comes_writeBytes
      exact .step (u := s.withPhy _) (new := []) (ret' := .bit true) h rfl

theorem comes_query {A : Rom} (h : (s.powerQuery A).2.Comes op rest (.power (s.powerQuery A).1) t) :
    s.Comes op (.powerQuery A :: rest) ret t := by
  refine .step (u := s) (new := [.selectTarget A, .powerSelected]) (ret' := .none) ?_ rfl
  apply comes_select
  rw [State.powerQuery] at h
  rcases hr : s.phy.selectTarget A with ⟨b, q⟩
  rw [hr] at h
  cases b with
  | false => exact .step (u := s.withPhy q) (new := []) (ret' := .power none) h rfl
  | true =>
    refine .step (u := s.withPhy q) (new := [.command .readPowerSupply, .readBit, .powerBit]) (ret' := .none) ?_ rfl
    apply comes_command (by decide)
    apply comes_readBit
    exact .step (new := []) h rfl

theorem comes_readSp (h : s.readSp.2.Comes op rest (.status s.readSp.1) t) :
    s.Comes op (.readSp :: rest) ret t := by
  refine .step (u := s) (new := [.selectTarget s.addr, .readSpSelected]) (ret' := .none) ?_ rfl
  apply comes_select
  rw [State.readSp] at h
  rcases hr : s.phy.selectTarget s.addr with ⟨b, q⟩
  rw [hr] at h
  cases b with
  | false => exact .step (u := s.withPhy q) (new := []) (ret' := .status .noDevice) h rfl
  | true =>
    refine .step (u := s.withPhy q) (new := [.command .readScratchpad, .readFramed 8, .readSpFrame])
        (ret' := .none) ?_ rfl
    apply comes_command (by decide)
    obtain ⟨d, ok, r, hx⟩ : ∃ d ok r, (q.sendWire .readScratchpad).readFramed 8 = (d, ok, r) := ⟨_, _, _, rfl⟩
    simp only [hx] at h
    refine comes_readFramed 8 hx ?_
    refine .step (u := { s with phy := r, spbuf := spOfBytes d }) (new := [.readSpCheck ok]) (ret' := .none) ?_ rfl
    exact .step (u := { s with phy := r, spbuf := spOfBytes d }) (new := []) h rfl

theorem comes_setResult {w : Word} (h : ({ s with result := w } : State).Comes op rest .none t) :
    s.Comes op (.setResult w :: rest) ret t := .step (new := []) h rfl

/-- The pass loop of SEARCH_ROM (R180), for any number of passes. -/
theorem comes_search (fuel count : Nat) (h0 : fuel = 0 → ret = .none) :
    s.Comes (HostOp.opcode .searchRom) [.searchLoop count] ret (searchLoop fuel count s) := by
  induction fuel generalizing s count ret with
  | zero =>
    obtain rfl := h0 rfl
    exact ⟨0, rfl⟩
  | succ fuel ih =>
    refine .step (u := s) (new := [.findNext, .searchGot count]) (ret' := .none) ?_ rfl
    apply comes_findNext
    rw [searchLoop]
    simp only
    rcases hr : findNext s.phy s.search with ⟨found, p, f⟩
    cases found with
    | none =>
      refine .step (u := { s with phy := p, search := f })
          (new := [.setResult (BitVec.ofNat 32 count), .searchEnd count]) (ret' := .none) ?_ rfl
      apply comes_setResult
      by_cases hc : count = 0
      · rw [if_pos hc]
        exact .done (u := { s with phy := p, search := f, result := BitVec.ofNat 32 count }) (if_pos hc)
      · rw [if_neg hc]
        refine .step (u := { s with phy := p, search := f, result := BitVec.ofNat 32 count }) (new := [.finish .ok])
          (ret' := .none) (comes_finish _) (if_neg hc)
    | some rom =>
      simp only
      refine .step (u := { s with phy := p, search := f }) (new := [.searchCrc count rom]) (ret' := .none) ?_ rfl
      refine .step (u := { s with phy := p, search := f })
        (new := [if romValid rom then .searchRoom count rom else .searchLoop count]) (ret' := .none) ?_ rfl
      cases hv : romValid rom with
      | false => exact ih (s := { s with phy := p, search := f }) _ (fun _ => rfl)
      | true =>
        simp only [if_true]
        refine .step (u := { s with phy := p, search := f }) (new := if count = s.cap
          then [.setResult (BitVec.ofNat 32 count), .finish .tooMany] else [.searchStore count rom])
          (ret' := .none) ?_ rfl
        by_cases hc : count = s.cap
        · rw [if_pos hc, if_pos (by exact hc)]
          apply comes_setResult
          exact comes_finish _
        · rw [if_neg hc, if_neg (by exact hc)]
          refine .step (u := { s with phy := p, search := f, addrlist := s.addrlist.set count rom })
            (new := [.searchLoop (count + 1)]) (ret' := .none) ?_ rfl
          exact ih (s := { s with phy := p, search := f, addrlist := s.addrlist.set count rom }) _ (fun _ => rfl)

/-- The prologue (R121). -/
theorem comes_prologue {cmd : HostOp} (hop : decodeOp op = some cmd)
    (h : ¬(cmd ≠ .init ∧ cmd ≠ .crc8 ∧ s.session = false)) (hb : s.Comes op [.body cmd] .none t) :
    s.Comes op [.prologue] .none t := by
  refine .step (u := s) (new := [.prologueSession cmd]) (rest := []) (ret' := .none) ?_ ?_
  · exact .step (u := s) (new := [.body cmd]) (rest := []) (ret' := .none) hb (if_neg h)
  · simp only [Point.run, hop]; rfl

/-- The prologue of a command that needs a session (R121). -/
theorem comes_session {cmd : HostOp} (hop : decodeOp op = some cmd)
    (h1 : cmd ≠ .init) (h2 : cmd ≠ .crc8) {b : State → State}
    (h : s.session = true → s.Comes op [.body cmd] .none (b s)) : s.Comes op [.prologue] .none (s.inSession b) := by
  unfold State.inSession
  split
  · next hs => exact comes_prologue hop (by simp [hs]) (h hs)
  · next hs =>
    refine .step (u := s) (new := [.prologueSession cmd]) (rest := []) (ret' := .none) ?_ ?_
    · exact .done (u := s) (rest := []) (if_pos ⟨h1, h2, by simpa using hs⟩)
    · simp only [Point.run, hop]; rfl

end Sys2Proof.Machine
end

