-- ==== Sys2Proof/Laws/Host.lean ====
section
/-! SUPPORT. The HOST's accesses as steps: which step fetches, what a write and a read of an idle or a busy block are,
and the bytes and bits of the words a read returns (R41, R45, R46, R61, R62, R72). -/

namespace Sys2Proof.Machine

theorem State.busy_idle {s : State} (h : s.seq = .idle) : s.busy = false := by simp [State.busy, h]
theorem State.busy_run {s : State} {op : Byte} {ps : List Point} {ret : Val} (h : s.seq = .run op ps ret) :
    s.busy = true := by simp [State.busy, h]
theorem State.idle_of_busy_false {s : State} (h : s.busy = false) : s.seq = .idle := by simpa [State.busy] using h

/-! ## Which input a step takes -/

theorem step_cmd {s : State} {w : Word} {rest : List Input} (hq : s.seq = .idle) (h : s.inputs = .cmd w :: rest) :
    step s = match decode (.host w) with
      | .ok i => exec i { s with inputs := rest }
      | .error r => ({ s with inputs := rest } : State).rejected r := by
  have hf : s.fetch = some (.host w, { s with inputs := rest }) := by simp [State.fetch, State.busy_idle hq, h]
  cases hd : decode (.host w) <;> simp only [step, hf, hd]

theorem Seq.nextCommand_command (op : Byte) (c : WireCmd) (ps : List Point) (ret : Val) :
    (Seq.run op (.command c :: ps) ret).nextCommand = some c := rfl

/-- A whole wire command byte as one step: the wire row's instruction, at the line that sends it. -/
theorem step_tickByte {s : State} {c : WireCmd} {op : Byte} {ps : List Point} {ret : Val} {rest : List Input}
    (hq : s.seq = .run op (.command c :: ps) ret) (h : s.inputs = .tickByte :: rest) :
    step s = exec c.instr { s with inputs := rest } := by
  have hf : s.fetch = some (.wire c.byte, { s with inputs := rest }) := by
    simp only [State.fetch, h, hq, Seq.nextCommand_command]
  have hd : decode (.wire c.byte) = .ok c.instr := by cases c <;> rfl
  simp only [step, hf, hd]

/-- Elsewhere it is a line like any other. -/
theorem step_tickByte_line {s : State} {rest : List Input} (hq : s.seq.nextCommand = none)
    (h : s.inputs = .tickByte :: rest) : step s = coreStep { s with inputs := rest } := by
  simp [step, State.fetch, State.otherStep, h, hq]

theorem step_nothing {s : State} (h : s.inputs = []) : step s = coreStep s := by
  simp [step, State.fetch, State.otherStep, h]

theorem step_tick {s : State} {rest : List Input} (h : s.inputs = .tick :: rest) :
    step s = coreStep { s with inputs := rest } := by
  simp [step, State.fetch, State.otherStep, h]

theorem step_reset {s : State} {rest : List Input} (h : s.inputs = .reset :: rest) :
    step s = .next ({ s with inputs := rest } : State).hardReset := by
  simp [step, State.fetch, State.otherStep, h]

theorem step_poll {s : State} {rest : List Input} (h : s.inputs = .poll :: rest) :
    step s = ({ s with inputs := rest } : State).poll := by
  simp [step, State.fetch, State.otherStep, h]

theorem step_write {s : State} {o wd : Nat} {w : Word} {rest : List Input} (h : s.inputs = .write o wd w :: rest) :
    step s = ({ s with inputs := rest } : State).hostWrite o wd w := by
  simp [step, State.fetch, State.otherStep, h]

theorem step_read {s : State} {o wd : Nat} {rest : List Input} (h : s.inputs = .read o wd :: rest) :
    step s = ({ s with inputs := rest } : State).hostRead o wd := by
  simp [step, State.fetch, State.otherStep, h]

/-- A command for the block to run waits while it is busy. -/
theorem step_waiting {s : State} {w : Word} {rest : List Input} (hb : s.busy = true) (h : s.inputs = .cmd w :: rest) :
    step s = coreStep s := by
  simp [step, State.fetch, State.otherStep, hb, h]

/-! ## Accesses -/

theorem step_write_idle {s : State} {o : Nat} {w : Word} {rest : List Input} (hq : s.seq = .idle)
    (h : s.inputs = .write o 32 w :: rest) (ho : o % 4 = 0) :
    step s = .next (({ s with inputs := rest } : State).writeReg (regAt s.params.addrlistDepth o) w) := by
  rw [step_write h, State.hostWrite, if_pos (by simp [accessWf, ho]),
    if_neg (by simp [State.busy_idle (s := { s with inputs := rest }) hq])]

theorem step_write_busy {s : State} {o : Nat} {w : Word} {rest : List Input} (hb : s.busy = true)
    (h : s.inputs = .write o 32 w :: rest) (ho : o % 4 = 0) : step s = .next { s with inputs := rest } := by
  have hb' : ({ s with inputs := rest } : State).busy = true := hb
  rw [step_write h, State.hostWrite, if_pos (by simp [accessWf, ho]), if_pos hb']

theorem step_read_aligned {s : State} {o : Nat} {rest : List Input} (h : s.inputs = .read o 32 :: rest)
    (ho : o % 4 = 0) :
    step s = .next (({ s with inputs := rest } : State).readReg (regAt s.params.addrlistDepth o)) := by
  rw [step_read h, State.hostRead, if_pos (by simp [accessWf, ho])]

theorem State.readReg_quiet {s : State} {r : Reg} (h : s.changing r = false) :
    s.readReg r = { s with rdata := s.regValue r } := by
  simp [State.readReg, h]

theorem State.changing_idle {s : State} (r : Reg) (h : s.seq = .idle) : s.changing r = false := by
  simp [State.changing, h]

/-! ## Which register an offset names (R39) -/

theorem regAt_addrlistLo {depth j : Nat} (h : j < depth) : regAt depth (0x100 + 8 * j) = .addrlistLo j := by
  unfold regAt
  split <;> first
    | omega
    | (rw [if_neg (by omega), if_neg (by omega), if_pos (by omega)]; congr; omega)

theorem regAt_addrlistHi {depth j : Nat} (h : j < depth) : regAt depth (0x104 + 8 * j) = .addrlistHi j := by
  unfold regAt
  split <;> first
    | omega
    | (rw [if_neg (by omega), if_neg (by omega), if_neg (by omega), if_pos (by omega)]; congr; omega)

theorem regAt_low {depth o : Nat} (h1 : 0x034 ≤ o) (h2 : o < 0x100) : regAt depth o = .reserved := by
  unfold regAt
  split <;> first | omega | rw [if_pos h2]

theorem regAt_high {depth o : Nat} (h : 0x100 + 8 * depth ≤ o) : regAt depth o = .reserved := by
  unfold regAt
  split <;> first | omega | rw [if_neg (by omega), if_pos (by omega)]

/-! ## Bytes and bits of words -/

theorem wordOf_byte (a b c d : Byte) (k : Fin 4) : (wordOf a b c d).extractLsb' (8 * k.val) 8 = #v[a, b, c, d][k.val] := by
  match k with
  | 0 | 1 | 2 | 3 =>
    apply BitVec.eq_of_getLsbD_eq
    intro i hi
    simp only [wordOf, BitVec.getLsbD_extractLsb', BitVec.getLsbD_append]
    simp
    grind

theorem romLo_byte (r : Rom) (k : Fin 4) : (romLo r).extractLsb' (8 * k.val) 8 = r[k.val] := by
  rw [romLo, wordOf_byte]
  match k with
  | 0 | 1 | 2 | 3 => rfl

theorem romHi_byte (r : Rom) (k : Fin 4) : (romHi r).extractLsb' (8 * k.val) 8 = r[k.val + 4] := by
  rw [romHi, wordOf_byte]
  match k with
  | 0 | 1 | 2 | 3 => rfl

theorem sp0_byte (b : Scratchpad) (k : Fin 4) : (sp0 b).extractLsb' (8 * k.val) 8 = b[k.val] := by
  rw [sp0, wordOf_byte]
  match k with
  | 0 | 1 | 2 | 3 => rfl

theorem sp1_byte (b : Scratchpad) (k : Fin 4) : (sp1 b).extractLsb' (8 * k.val) 8 = b[k.val + 4] := by
  rw [sp1, wordOf_byte]
  match k with
  | 0 | 1 | 2 | 3 => rfl

/-- The low byte of `STAT`, bit by bit. -/
theorem statLow_bits : ∀ busy session avail pol act pwr : Bool,
    let v := statLow busy session avail pol act pwr
    v.getLsbD 0 = busy ∧ v.getLsbD 1 = session ∧ v.getLsbD 2 = avail ∧ v.getLsbD 3 = pol ∧ v.getLsbD 4 = act
    ∧ v.getLsbD 5 = pwr ∧ v.extractLsb' 6 2 = 0#2 := by
  decide

/-- The parts of a word put together as `STAT` is. -/
theorem stat_parts (st lo : Byte) : let v : Word := 0#16 ++ st ++ lo
    (∀ i, i < 8 → v.getLsbD i = lo.getLsbD i) ∧ v.extractLsb' 6 2 = lo.extractLsb' 6 2 ∧ v.extractLsb' 8 8 = st
    ∧ v.extractLsb' 16 16 = 0#16 := by
  refine ⟨?_, ?_, ?_, ?_⟩
  · intro i hi
    rw [BitVec.getLsbD_append, if_pos hi]
  all_goals
    apply BitVec.eq_of_getLsbD_eq
    intro i hi
    simp only [BitVec.getLsbD_extractLsb', BitVec.getLsbD_append]
    grind

end Sys2Proof.Machine
end

