-- ==== Sys2Proof/Laws/Inputs.lean ====
section
/-! SUPPORT. What the outside world will give next plays no part in an instruction's effect. -/

namespace Sys2Proof.Machine

/-- The state with other inputs still to come. -/
def State.withInputs (s : State) (x : List Input) : State := { s with inputs := x }

@[simp] theorem State.powerQuery_withInputs (s : State) (x : List Input) (A : Rom) :
    (s.withInputs x).powerQuery A = ((s.powerQuery A).1, (s.powerQuery A).2.withInputs x) := by
  have h : (s.withInputs x).phy = s.phy := rfl
  simp only [State.powerQuery, h]
  rcases s.phy.selectTarget A with ⟨b, q⟩
  cases b <;> rfl

@[simp] theorem State.readSp_withInputs (s : State) (x : List Input) :
    (s.withInputs x).readSp = (s.readSp.1, s.readSp.2.withInputs x) := by
  have h : (s.withInputs x).phy = s.phy := rfl
  have h' : (s.withInputs x).addr = s.addr := rfl
  simp only [State.readSp, h, h']
  rcases s.phy.selectTarget s.addr with ⟨b, q⟩
  cases b <;> rfl

theorem searchLoop_withInputs (fuel count : Nat) (s : State) (x : List Input) :
    searchLoop fuel count (s.withInputs x) = (searchLoop fuel count s).withInputs x := by
  induction fuel generalizing count s with
  | zero => rfl
  | succ fuel ih =>
    have h : (s.withInputs x).phy = s.phy := rfl
    have h' : (s.withInputs x).search = s.search := rfl
    have h'' : (s.withInputs x).cap = s.cap := rfl
    rw [searchLoop, searchLoop, h, h']
    simp only [h'']
    split
    · rfl
    · split
      · split
        · rfl
        · exact ih _ { s.withPass (findNext s.phy s.search) with addrlist := s.addrlist.set count _ }
      · exact ih _ (s.withPass (findNext s.phy s.search))

theorem State.writeTemp_withInputs (s : State) (x : List Input) : (s.withInputs x).writeTemp = s.writeTemp.withInputs x := by
  unfold State.writeTemp State.family State.withInputs
  dsimp only
  split
  · split <;> rfl
  · rfl

theorem State.sendCommand_withInputs (s : State) (x : List Input) (c : WireCmd) :
    (s.withInputs x).sendCommand c = (s.sendCommand c).withInputs x := by
  rcases s.sendCommand_cases c with ⟨op, rest, ret, h, e⟩ | ⟨h, e⟩ <;>
    rcases (s.withInputs x).sendCommand_cases c with ⟨op', rest', ret', h', e'⟩ | ⟨h', e'⟩ <;> rw [e, e']
  · have : Seq.run op' (.command c :: rest') ret' = .run op (.command c :: rest) ret := h'.symm.trans h
    simp only [Seq.run.injEq, List.cons.injEq, true_and] at this
    obtain ⟨rfl, rfl, -⟩ := this
    rfl
  · exact absurd h (h' _ _ _)
  · exact absurd h' (h _ _ _)

theorem State.inSession_withInputs (s : State) (x : List Input) {b : State → State} (h : b (s.withInputs x) = (b s).withInputs x) :
    (s.withInputs x).inSession b = (s.inSession b).withInputs x := by
  unfold State.inSession
  have : (s.withInputs x).session = s.session := rfl
  rw [this, h]
  split <;> rfl

/-- What the outside world will give next plays no part in an instruction: its result is the same, with those inputs. -/
theorem exec_withInputs (i : Instr) (s : State) (x : List Input) :
    exec i (s.withInputs x) = match exec i s with
      | .next t => .next (t.withInputs x)
      | .fault r => .fault r
      | .refused r => .refused r := by
  have hphy : (s.withInputs x).phy = s.phy := rfl
  have haddr : (s.withInputs x).addr = s.addr := rfl
  have hfam : (s.withInputs x).family = s.family := rfl
  cases i <;> simp only [exec]
  case init =>
    simp only [execInit]
    have h1 : (s.withInputs x).session = s.session := rfl
    have h2 : (s.withInputs x).initSetup = s.initSetup.withInputs x := rfl
    rw [h1, h2, State.powerQuery_withInputs]
    split <;> rfl
  case crc8 =>
    simp only [execCrc8]
    have h1 : (s.withInputs x).len = s.len := rfl
    rw [h1]
    split <;> rfl
  all_goals try simp only [execDestroy, execResetBus, execReadRom, execSearchRom, execReadPowerSupply,
    execReadScratchpad, execWriteScratchpad, execConvertDuration, execConvertTemperature, execGetTemperature,
    execGetResolution, execSetResolution]
  case destroy => congr 1; apply State.inSession_withInputs; rfl
  case resetBus => congr 1; apply State.inSession_withInputs; rfl
  case readRom =>
    congr 1; apply State.inSession_withInputs
    simp only [hphy]
    rcases s.phy.resetPresence with ⟨b, q⟩
    cases b <;> rfl
  case searchRom =>
    congr 1; apply State.inSession_withInputs
    have h1 : (s.withInputs x).cap = s.cap := rfl
    have h2 : (s.withInputs x).params = s.params := rfl
    simp only [h1, h2]
    split
    · rfl
    · exact searchLoop_withInputs passBound 0 { s with search := s.search.clear } x
  case readPowerSupply =>
    congr 1; apply State.inSession_withInputs
    simp only [haddr, State.powerQuery_withInputs]
    rcases s.powerQuery s.addr with ⟨b, q⟩
    cases b <;> rfl
  case readScratchpad => congr 1; apply State.inSession_withInputs; simp only [State.readSp_withInputs]; rfl
  case writeScratchpad =>
    congr 1; apply State.inSession_withInputs
    simp only [haddr, hphy]
    rcases s.phy.selectTarget s.addr with ⟨b, q⟩
    cases b <;> rfl
  case convertDuration =>
    congr 1; apply State.inSession_withInputs
    simp only [hfam, State.readSp_withInputs]
    split <;> rfl
  case convertTemperature =>
    congr 1; apply State.inSession_withInputs
    simp only [haddr, hphy]
    rcases s.phy.selectTarget s.addr with ⟨b, q⟩
    cases b <;> rfl
  case getTemperature =>
    congr 1; apply State.inSession_withInputs
    simp only [hfam, State.readSp_withInputs, State.writeTemp_withInputs]
    split <;> rfl
  case getResolution =>
    congr 1; apply State.inSession_withInputs
    simp only [hfam, State.readSp_withInputs]
    split
    · rfl
    · rfl
    · split <;> rfl
  case setResolution =>
    congr 1; apply State.inSession_withInputs
    have h1 : (s.withInputs x).res = s.res := rfl
    simp only [hfam, h1, State.readSp_withInputs]
    split
    · rfl
    · split
      · rfl
      · split
        · rfl
        · have e : (s.readSp.2.withInputs x).phy = s.readSp.2.phy := rfl
          have e' : (s.readSp.2.withInputs x).addr = s.readSp.2.addr := rfl
          simp only [e, e']
          rcases s.readSp.2.phy.selectTarget s.readSp.2.addr with ⟨b, r⟩
          cases b <;> rfl
  case wAlarmSearch => rfl
  all_goals
    simp only [execWSearchRom, execWReadRom, execWMatchRom, execWSkipRom, execWConvertT, execWWriteScratchpad,
      execWReadScratchpad, execWReadPowerSupply, State.sendCommand_withInputs]

end Sys2Proof.Machine
end

