-- ==== Sys2Proof/Laws/Lines.lean ====
section
/-! SUPPORT. The sequencer's lines: how `linesSound` goes through a list of them, which results have which kind, and
that a line's range depends on the parameters and `CFG` alone. -/

namespace Sys2Proof.Machine

theorem linesSound_acts (k : Kind) (as : List Act) (ps : List Point) :
    linesSound k (actPoints as ++ ps) = linesSound k ps := by
  induction as with
  | nil => rfl
  | cons a as ih => exact ih

theorem linesSound_writes (bs : List Byte) (ps : List Point) (h : linesSound .none ps = true) (k : Kind) (hk : bs ≠ [] ∨ k = .none) :
    linesSound k (bs.map Point.writeByte ++ ps) = true := by
  induction bs generalizing k with
  | nil => simp at hk; subst hk; exact h
  | cons a as ih => exact ih _ (.inr rfl)

theorem linesSound_cons (k : Kind) (p : Point) (ps : List Point) : linesSound k (p :: ps) = ((match p.takes with | none => true | some need => need == k)
      && (match p.leaves k with | none => true | some k' => linesSound k' ps)) := rfl

theorem Val.kind_bit {v : Val} (h : (Kind.bit == v.kind) = true) : ∃ b, v = .bit b := by cases v <;> first | exact ⟨_, rfl⟩ | cases h
theorem Val.kind_byte {v : Val} (h : (Kind.byte == v.kind) = true) : ∃ b, v = .byte b := by cases v <;> first | exact ⟨_, rfl⟩ | cases h
theorem Val.kind_frame {v : Val} (h : (Kind.frame == v.kind) = true) : ∃ b c, v = .frame b c := by cases v <;> first | exact ⟨_, _, rfl⟩ | cases h
theorem Val.kind_found {v : Val} (h : (Kind.found == v.kind) = true) : ∃ b, v = .found b := by cases v <;> first | exact ⟨_, rfl⟩ | cases h
theorem Val.kind_power {v : Val} (h : (Kind.power == v.kind) = true) : ∃ b, v = .power b := by cases v <;> first | exact ⟨_, rfl⟩ | cases h
theorem Val.kind_status {v : Val} (h : (Kind.status == v.kind) = true) : ∃ b, v = .status b := by cases v <;> first | exact ⟨_, rfl⟩ | cases h

/-- What a line's counters must be depends on the parameters and `CFG` only. -/
theorem Point.inRange_congr {s t : State} (hp : t.params = s.params) (hc : t.cfg = s.cfg) (p : Point) :
    p.inRange t = p.inRange s := by
  have e : t.cap = s.cap := by simp only [State.cap, hc]
  cases p <;> first
    | rfl
    | (simp only [Point.inRange]; congr 1 <;> congr 1 <;> simp only [e, hp])

theorem exec_no_fault (i : Instr) (s : State) (r : Fault) : exec i s ≠ .fault r := by
  cases i <;> intro h <;> cases h

end Sys2Proof.Machine
end

