-- ==== Sys2Proof/Laws/Outcomes.lean ====
section
/-! SUPPORT. `Outcome`: every way an instruction can end, as one inductive, so that a claim over all instructions is a
case analysis over events and register updates, with no meaning unfolded. -/

namespace Sys2Proof.Machine

/-- Every way an instruction can end from s: the events it makes, what the bus answered among them, and the state it
leaves. c, sh and n are the datapath registers it leaves. -/
inductive Outcome (s : State) : Instr → State → Prop where
  | wire (i : Instr) (cmd : WireCmd) (op : Byte) (rest : List Point) (ret : Val) (c sh : Byte) (n : BitVec 4)
      (hi : i.hostOp = none) (hq : s.seq = .run op (.command cmd :: rest) ret) :
      Outcome s i { s.ran (writeEvents [cmd.byte]) c sh n with seq := .run op rest .none }
  | wireElsewhere (i : Instr) (hi : i.hostOp = none) : Outcome s i s
  | early (i : Instr) (cm : HostOp) (st : Status) (hi : i.hostOp = some cm) (ho : s.opensWithReset cm = false) :
      Outcome s i (s.finish st)
  | destroy (x : BitVec 24) (hs : s.session = true) :
      Outcome s (.destroy x) ({ s.withPhy (s.phy.act .release) with session := false }.finish .ok)
  | crc (x : BitVec 24) (c : Byte) :
      Outcome s (.crc8 x) ({ s.withPhy { s.phy with crc := c } with result := zextByte c }.finish .ok)
  | initF (x : BitVec 24) (c sh : Byte) (n : BitVec 4) (hs : s.session = false)
      (hfo : s.initSetup.phy.follows (resetEvents 24)) :
      Outcome s (.init x) ((s.initSetup.ran (resetEvents 24) c sh n).finish .ok)
  | initT (x : BitVec 24) (k : Nat) (b : Bool) (c sh : Byte) (n : BitVec 4) (hs : s.session = false) (hk : k < 24)
      (hfo : s.initSetup.phy.follows
        (resetEvents k ++ selectEvents sentinel ++ writeEvents [0xB4#8] ++ readBitEvents b)) :
      Outcome s (.init x)
        ({ s.initSetup.ran (resetEvents k ++ selectEvents sentinel ++ writeEvents [0xB4#8] ++ readBitEvents b) c sh n with
            pwr := b }.finish .ok)
  | reset (x : BitVec 24) (k : Nat) (c sh : Byte) (n : BitVec 4) (hk : k ≤ 24) (hs : s.session = true)
      (hfo : s.phy.follows (resetEvents k)) :
      Outcome s (.resetBus x) ({ s.ran (resetEvents k) c sh n with result := zextBit (decide (k < 24)) }.finish .ok)
  | noDev (i : Instr) (cm : HostOp) (c sh : Byte) (n : BitVec 4) (hi : i.hostOp = some cm)
      (hcm : cm ∉ [.init, .destroy, .crc8, .resetBus, .searchRom, .convertDuration])
      (hs : s.session = true) (ho : s.opensWithReset cm = true) (hfo : s.phy.follows (resetEvents 24)) :
      Outcome s i ((s.ran (resetEvents 24) c sh n).finish .noDevice)
  | readRom (x : BitVec 24) (k : Nat) (d : Rom) (c sh : Byte) (n : BitVec 4) (st : Status) (hk : k < 24)
      (hs : s.session = true)
      (hfo : s.phy.follows (resetEvents k ++ writeEvents [0x33#8] ++ readEvents (Vector.toList d))) :
      Outcome s (.readRom x)
        ({ s.ran (resetEvents k ++ writeEvents [0x33#8] ++ readEvents (Vector.toList d)) c sh n with
            romid := d }.finish st)
  | search (x : BitVec 24) (txs : List (List Event)) (c sh : Byte) (n : BitVec 4) (f : Search) (list : List Rom)
      (result : Word) (status : Byte) (seq : Seq) (hs : s.session = true) (hcap : s.cap ≤ s.params.addrlistDepth)
      (hne : txs ≠ []) (htx : ∀ tx ∈ txs, Transaction s.addr tx ∧ quietOpening tx = true)
      (hfo : s.phy.follows (List.flatten txs)) :
      Outcome s (.searchRom x)
        { s.ran (List.flatten txs) c sh n with
          search := f, addrlist := list, result := result, status := status, seq := seq }
  | power (x : BitVec 24) (k : Nat) (b : Bool) (c sh : Byte) (n : BitVec 4) (hk : k < 24) (hs : s.session = true)
      (hfo : s.phy.follows (resetEvents k ++ selectEvents s.addr ++ writeEvents [0xB4#8] ++ readBitEvents b)) :
      Outcome s (.readPowerSupply x)
        ({ s.ran (resetEvents k ++ selectEvents s.addr ++ writeEvents [0xB4#8] ++ readBitEvents b) c sh n with
            pwr := b, result := zextBit b }.finish .ok)
  | readSp (i : Instr) (cm : HostOp) (k : Nat) (d : Scratchpad) (c sh : Byte) (n : BitVec 4) (r w : Word) (m : Nat)
      (sp : Scratchpad) (st : Status) (hi : i.hostOp = some cm)
      (hcm : cm ∈ [.readScratchpad, .convertDuration, .getTemperature, .getResolution, .setResolution])
      (hr : cm ∉ [.convertDuration, .getResolution] → r = s.result)
      (hw : cm ≠ .getTemperature → w = s.temp ∧ m = s.free) (hk : k < 24) (hs : s.session = true)
      (ho : s.opensWithReset cm = true) (hst : cm = .setResolution → st = .crcError)
      (hfo : s.phy.follows (readSpEvents k s.addr d)) :
      Outcome s i
        ({ s.ran (readSpEvents k s.addr d) c sh n with spbuf := sp, result := r, temp := w, free := m }.finish st)
  | writeSp (x : BitVec 24) (k : Nat) (c sh : Byte) (n : BitVec 4) (hk : k < 24) (hs : s.session = true)
      (hfo : s.phy.follows (resetEvents k ++ selectEvents s.addr ++ writeEvents (0x4E#8 :: s.spOperands))) :
      Outcome s (.writeScratchpad x)
        ((s.ran (resetEvents k ++ selectEvents s.addr ++ writeEvents (0x4E#8 :: s.spOperands)) c sh n).finish .ok)
  | convert (x : BitVec 24) (k : Nat) (c sh : Byte) (n : BitVec 4) (hk : k < 24) (hs : s.session = true)
      (hfo : s.phy.follows
        (resetEvents k ++ selectEvents s.addr ++ writeEvents [0x44#8] ++ s.convertActs.map .act)) :
      Outcome s (.convertTemperature x)
        ((s.ran (resetEvents k ++ selectEvents s.addr ++ writeEvents [0x44#8] ++ s.convertActs.map .act) c sh n).finish
          .ok)
  | durQuick (x : BitVec 24) (hf : s.family ≠ .modern) (hs : s.session = true) :
      Outcome s (.convertDuration x) ({ s with result := BitVec.ofNat 32 (convEst 12) }.finish .ok)
  | durNone (x : BitVec 24) (c sh : Byte) (n : BitVec 4) (hf : s.family = .modern) (hs : s.session = true)
      (hfo : s.phy.follows (resetEvents 24)) :
      Outcome s (.convertDuration x)
        ({ s.ran (resetEvents 24) c sh n with result := BitVec.ofNat 32 (convEst 12) }.finish .ok)
  | resQuick (x : BitVec 24) (hf : s.family = .legacy) (hs : s.session = true) :
      Outcome s (.getResolution x) ({ s with result := 9#32 }.finish .ok)
  | setRes (x : BitVec 24) (k j : Nat) (d : Scratchpad) (new : Byte) (sp : Scratchpad) (c sh : Byte) (n : BitVec 4)
      (hk : k < 24) (hj : j ≤ 24) (hs : s.session = true) (ho : s.opensWithReset .setResolution = true)
      (hfo : s.phy.follows (readSpEvents k s.addr d ++ (resetEvents j
        ++ (if j < 24 then selectEvents s.addr ++ writeEvents [0x4E#8, d[2], d[3], new] else [])))) :
      Outcome s (.setResolution x)
        ({ s.ran (readSpEvents k s.addr d ++ (resetEvents j
            ++ (if j < 24 then selectEvents s.addr ++ writeEvents [0x4E#8, d[2], d[3], new] else []))) c sh n with
            spbuf := sp }.finish (if j < 24 then .ok else .noDevice))

/-- A command that needs a session and has none only ends (R121). -/
theorem exec_no_session {i : Instr} {s : State} (hs : s.session = false) (hc : i.hostOp.isSome = true)
    (h1 : i.hostOp ≠ some .init) (h2 : i.hostOp ≠ some .crc8) : exec i s = .next (s.finish .invalidArg) := by
  cases i <;> first
    | (simp only [Instr.hostOp, Option.isSome_none, Bool.false_eq_true] at hc; done)
    | exact absurd rfl h1
    | exact absurd rfl h2
    | simp [exec, execDestroy, execResetBus, execReadRom, execSearchRom, execReadPowerSupply, execReadScratchpad,
        execWriteScratchpad, execConvertDuration, execConvertTemperature, execGetTemperature, execGetResolution,
        execSetResolution, State.inSession, hs]

/-- Every next state of `exec` is one of the ends that `Outcome` lists. -/
theorem exec_outcome {i : Instr} {s t : State} (he : exec i s = .next t) : Outcome s i t := by
  have wire' (c : WireCmd) (hi : i.hostOp = none)
      (h : Host.Outcome.next (s.sendCommand c) = (Host.Outcome.next t : Host.Outcome State Fault Refusal)) :
      Outcome s i t := by
    obtain rfl := Host.Outcome.next.inj h
    rcases s.sendCommand_cases c with ⟨op, rest, ret, hq, e⟩ | ⟨-, e⟩ <;> rw [e]
    · have := Outcome.wire (s := s) i c op rest ret s.phy.crc 0#8 8#4 hi hq
      rw [State.ran, ← Phy.sendWire_eq] at this
      exact this
    · exact .wireElsewhere _ hi
  by_cases hcrc : i.hostOp = some .crc8
  · cases i <;> simp only [Instr.hostOp, Option.some.injEq, reduceCtorEq] at hcrc
    simp only [exec, execCrc8] at he
    split at he <;> cases he
    · exact .early _ _ _ rfl rfl
    · exact .crc _ _
  by_cases hin : i.hostOp = some .init
  · cases i <;> simp only [Instr.hostOp, Option.some.injEq, reduceCtorEq] at hin
    simp only [exec] at he
    cases hs : s.session with
    | true => simp only [execInit, hs, if_true] at he; cases he; exact .early _ _ _ rfl (by simp [State.opensWithReset, hs])
    | false =>
      rcases execInit_outcome hs rfl with ⟨c, sh, n, h, e⟩ | ⟨k, b, es, c, sh, n, hk, rfl, h, e⟩ <;> rw [e] at he <;> cases he
      · exact .initF _ _ _ _ hs h
      · exact .initT _ _ _ _ _ _ hs hk h
  cases hs : s.session with
  | false =>
    cases hc : i.hostOp with
    | none =>
      cases i <;> simp only [Instr.hostOp, reduceCtorEq] at hc <;> simp only [exec, execWSearchRom, execWReadRom, execWMatchRom, execWSkipRom, execWAlarmSearch, execWConvertT, execWWriteScratchpad, execWReadScratchpad, execWReadPowerSupply] at he
      · exact wire' .searchRom rfl he
      · exact wire' .readRom rfl he
      · exact wire' .matchRom rfl he
      · exact wire' .skipRom rfl he
      · cases he
      · exact wire' .convertT rfl he
      · exact wire' .writeScratchpad rfl he
      · exact wire' .readScratchpad rfl he
      · exact wire' .readPowerSupply rfl he
    | some c =>
      rw [exec_no_session hs (by rw [hc]; rfl) hin hcrc] at he
      cases he
      refine .early _ c .invalidArg hc ?_
      cases c <;> first | rfl | (simp [State.opensWithReset, hs]; done) | exact absurd hc hin
  | true =>
    cases i <;> simp only [exec, execWSearchRom, execWReadRom, execWMatchRom, execWSkipRom, execWAlarmSearch, execWConvertT, execWWriteScratchpad, execWReadScratchpad, execWReadPowerSupply] at he
    · exact absurd rfl hin
    · rw [execDestroy, State.inSession_true hs] at he; cases he; exact .destroy _ hs
    · obtain ⟨k, c, sh, n, hk, h, e⟩ := execResetBus_outcome hs
      rw [e] at he; cases he; exact .reset _ _ _ _ _ hk hs h
    · rcases execReadRom_outcome hs with ⟨c, sh, n, h, e⟩ | ⟨k, d, es, c, sh, n, hk, rfl, h, e⟩ <;> rw [e] at he <;> cases he
      · exact .noDev _ _ _ _ _ rfl (by decide) hs (by simp [State.opensWithReset, *]) h
      · exact .readRom _ _ _ _ _ _ _ hk hs h
    · rcases execSearchRom_outcome hs s.addr with ⟨h, e⟩ | ⟨h, txs, c, sh, n, f, list, result, status, seq, h1, hne, h2, h3, e⟩ <;> rw [e] at he <;> cases he
      · exact .early _ _ _ rfl (by simp [State.opensWithReset]; omega)
      · exact .search _ _ _ _ _ _ _ _ _ _ hs h hne h1 h2
    · rcases execReadPowerSupply_outcome hs with ⟨c, sh, n, h, e⟩ | ⟨k, b, es, c, sh, n, hk, rfl, h, e⟩ <;> rw [e] at he <;> cases he
      · exact .noDev _ _ _ _ _ rfl (by decide) hs (by simp [State.opensWithReset, *]) h
      · exact .power _ _ _ _ _ _ hk hs h
    · rcases execReadScratchpad_outcome hs with ⟨c, sh, n, h, e⟩ | ⟨k, d, c, sh, n, hk, h, e⟩ <;> rw [e] at he <;> cases he
      · exact .noDev _ _ _ _ _ rfl (by decide) hs (by simp [State.opensWithReset, *]) h
      · exact .readSp _ _ k d c sh n s.result s.temp s.free _ _ rfl (by decide) (fun _ => rfl) (fun _ => ⟨rfl, rfl⟩) hk hs (by simp [State.opensWithReset, *]) (by simp) h
    · rcases execWriteScratchpad_outcome hs with ⟨c, sh, n, h, e⟩ | ⟨k, es, c, sh, n, hk, rfl, h, e⟩ <;> rw [e] at he <;> cases he
      · exact .noDev _ _ _ _ _ rfl (by decide) hs (by simp [State.opensWithReset, *]) h
      · exact .writeSp _ _ _ _ _ hk hs h
    · rcases execConvertDuration_outcome hs with ⟨hf, e⟩ | ⟨c, sh, n, hf, h, e⟩ | ⟨k, d, c, sh, n, r, hf, hk, h, e⟩ <;> rw [e] at he <;> cases he
      · exact .durQuick _ hf hs
      · exact .durNone _ _ _ _ hf hs h
      · exact .readSp _ _ k d c sh n r s.temp s.free _ _ rfl (by decide) (by simp) (fun _ => ⟨rfl, rfl⟩) hk hs (by simp [State.opensWithReset, *]) (by simp) h
    · rcases execConvertTemperature_outcome hs with ⟨c, sh, n, h, e⟩ | ⟨k, es, c, sh, n, hk, rfl, h, e⟩ <;> rw [e] at he <;> cases he
      · exact .noDev _ _ _ _ _ rfl (by decide) hs (by simp [State.opensWithReset, *]) h
      · exact .convert _ _ _ _ _ hk hs h
    · rcases execGetTemperature_outcome hs with ⟨c, sh, n, h, e⟩ | ⟨k, d, c, sh, n, w, m, hk, h, e | e⟩ <;> rw [e] at he <;> cases he
      · exact .noDev _ _ _ _ _ rfl (by decide) hs (by simp [State.opensWithReset, *]) h
      · exact .readSp _ _ k d c sh n s.result s.temp s.free _ _ rfl (by decide) (fun _ => rfl) (by simp) hk hs (by simp [State.opensWithReset, *]) (by simp) h
      · exact .readSp _ _ k d c sh n s.result w m _ _ rfl (by decide) (fun _ => rfl) (by simp) hk hs (by simp [State.opensWithReset, *]) (by simp) h
    · rcases execGetResolution_outcome hs with ⟨hf, e⟩ | ⟨hf, e⟩ | ⟨c, sh, n, hf, h, e⟩ | ⟨k, d, c, sh, n, r, hf, hk, h, e | e⟩ <;> rw [e] at he <;> cases he
      · exact .early _ _ _ rfl (by simp [State.opensWithReset, hf])
      · exact .resQuick _ hf hs
      · exact .noDev _ _ _ _ _ rfl (by decide) hs (by simp [State.opensWithReset, *]) h
      · exact .readSp _ _ k d c sh n s.result s.temp s.free _ _ rfl (by decide) (by simp) (fun _ => ⟨rfl, rfl⟩) hk hs (by simp [State.opensWithReset, *]) (by simp) h
      · exact .readSp _ _ k d c sh n r s.temp s.free _ _ rfl (by decide) (by simp) (fun _ => ⟨rfl, rfl⟩) hk hs (by simp [State.opensWithReset, *]) (by simp) h
    · rcases execSetResolution_outcome hs with ⟨hf, e⟩ | ⟨hf, hr, e⟩ | ⟨hf, h9, h12, ⟨c, sh, n, h, e⟩ | ⟨k, d, c, sh, n, hk, h, e⟩ | ⟨k, j, d, new, es, c, sh, n, hk, hj, rfl, h, hn, e⟩⟩ <;> rw [e] at he <;> cases he
      · exact .early _ _ _ rfl (by simp [State.opensWithReset, hf])
      · exact .early _ _ _ rfl (by simp [State.opensWithReset]; omega)
      · exact .noDev _ _ _ _ _ rfl (by decide) hs (by simp [State.opensWithReset, *]) h
      · exact .readSp _ _ k d c sh n s.result s.temp s.free _ _ rfl (by decide) (fun _ => rfl) (fun _ => ⟨rfl, rfl⟩) hk hs (by simp [State.opensWithReset, *]) (fun _ => rfl) h
      · exact .setRes _ _ _ _ _ _ _ _ _ hk hj hs (by simp [State.opensWithReset, *]) h
    · exact absurd rfl hcrc
    · exact wire' .searchRom rfl he
    · exact wire' .readRom rfl he
    · exact wire' .matchRom rfl he
    · exact wire' .skipRom rfl he
    · cases he
    · exact wire' .convertT rfl he
    · exact wire' .writeScratchpad rfl he
    · exact wire' .readScratchpad rfl he
    · exact wire' .readPowerSupply rfl he

end Sys2Proof.Machine
end

