-- ==== Sys2Proof/Laws/PerInstr.lean ====
section
/-! SUPPORT. A statement about every instruction as syntax, one lemma per constructor: it is well formed; its code is
a `CMD` word whose OP lies in the assigned range of R91, or one of the nine bytes of R98; and it is a host command
exactly when its code is a `CMD` word. -/

namespace Sys2Proof.Laws.Coded

open Sys2Proof Sys2Proof.Machine

/-- `OP` of an encoded host command is the command's opcode, whatever the ignored bits are (R90). -/
theorem cmdOp_encoded (x : BitVec 24) (op : Byte) : cmdOp (x ++ op) = op := by
  apply BitVec.eq_of_getLsbD_eq
  intro i hi
  rw [cmdOp, BitVec.getLsbD_extractLsb', BitVec.getLsbD_append]
  simp [hi]

/-- What is said of each instruction. -/
def Statement (i : Instr) : Prop :=
  i.wf = true
    ∧ match encode i with
      | .host w => 1 ≤ (cmdOp w).toNat ∧ (cmdOp w).toNat ≤ 14 ∧ i.hostOp.map HostOp.opcode = some (cmdOp w)
      | .wire b => (decodeWire b).isSome = true ∧ i.hostOp = none

theorem hosted (i : Instr) (op : HostOp) (x : BitVec 24) (hw : i.wf = true) (he : encode i = hostWord op x)
    (hop : i.hostOp = some op) (h1 : 1 ≤ op.opcode.toNat) (h14 : op.opcode.toNat ≤ 14) : Statement i := by
  refine ⟨hw, ?_⟩
  rw [he, hostWord]
  simp only [cmdOp_encoded, hop, Option.map_some]
  exact ⟨h1, h14, trivial⟩

theorem init (ignored : BitVec 24) : Statement (.init ignored) :=
  hosted _ .init ignored rfl rfl rfl (by decide) (by decide)
theorem destroy (ignored : BitVec 24) : Statement (.destroy ignored) :=
  hosted _ .destroy ignored rfl rfl rfl (by decide) (by decide)
theorem resetBus (ignored : BitVec 24) : Statement (.resetBus ignored) :=
  hosted _ .resetBus ignored rfl rfl rfl (by decide) (by decide)
theorem readRom (ignored : BitVec 24) : Statement (.readRom ignored) :=
  hosted _ .readRom ignored rfl rfl rfl (by decide) (by decide)
theorem searchRom (ignored : BitVec 24) : Statement (.searchRom ignored) :=
  hosted _ .searchRom ignored rfl rfl rfl (by decide) (by decide)
theorem readPowerSupply (ignored : BitVec 24) : Statement (.readPowerSupply ignored) :=
  hosted _ .readPowerSupply ignored rfl rfl rfl (by decide) (by decide)
theorem readScratchpad (ignored : BitVec 24) : Statement (.readScratchpad ignored) :=
  hosted _ .readScratchpad ignored rfl rfl rfl (by decide) (by decide)
theorem writeScratchpad (ignored : BitVec 24) : Statement (.writeScratchpad ignored) :=
  hosted _ .writeScratchpad ignored rfl rfl rfl (by decide) (by decide)
theorem convertDuration (ignored : BitVec 24) : Statement (.convertDuration ignored) :=
  hosted _ .convertDuration ignored rfl rfl rfl (by decide) (by decide)
theorem convertTemperature (ignored : BitVec 24) : Statement (.convertTemperature ignored) :=
  hosted _ .convertTemperature ignored rfl rfl rfl (by decide) (by decide)
theorem getTemperature (ignored : BitVec 24) : Statement (.getTemperature ignored) :=
  hosted _ .getTemperature ignored rfl rfl rfl (by decide) (by decide)
theorem getResolution (ignored : BitVec 24) : Statement (.getResolution ignored) :=
  hosted _ .getResolution ignored rfl rfl rfl (by decide) (by decide)
theorem setResolution (ignored : BitVec 24) : Statement (.setResolution ignored) :=
  hosted _ .setResolution ignored rfl rfl rfl (by decide) (by decide)
theorem crc8 (ignored : BitVec 24) : Statement (.crc8 ignored) :=
  hosted _ .crc8 ignored rfl rfl rfl (by decide) (by decide)
theorem wSearchRom : Statement .wSearchRom := ⟨rfl, by decide, rfl⟩
theorem wReadRom : Statement .wReadRom := ⟨rfl, by decide, rfl⟩
theorem wMatchRom : Statement .wMatchRom := ⟨rfl, by decide, rfl⟩
theorem wSkipRom : Statement .wSkipRom := ⟨rfl, by decide, rfl⟩
theorem wAlarmSearch : Statement .wAlarmSearch := ⟨rfl, by decide, rfl⟩
theorem wConvertT : Statement .wConvertT := ⟨rfl, by decide, rfl⟩
theorem wWriteScratchpad : Statement .wWriteScratchpad := ⟨rfl, by decide, rfl⟩
theorem wReadScratchpad : Statement .wReadScratchpad := ⟨rfl, by decide, rfl⟩
theorem wReadPowerSupply : Statement .wReadPowerSupply := ⟨rfl, by decide, rfl⟩

end Sys2Proof.Laws.Coded
end

