-- ==== Sys2Proof/Laws/StaticBus.lean ====
section
/-! SUPPORT. The reference static bus (R67) along events: what it becomes and what it answers over a reset, a write
slot and a read slot, and how `onRefBus` reads on a history that has grown by events. -/

namespace Sys2Proof.Machine

/-- The bus after events, oldest first. -/
def RefBus.along (u : RefBus) (es : List Event) : RefBus := es.foldl RefBus.event u

/-- Every sample of the events, oldest first, is what the bus gives there. -/
def RefBus.gives (u : RefBus) : List Event → Prop
  | [] => True
  | .act a :: es => (u.event (.act a)).gives es
  | .sample b :: es => b = u.level ∧ u.gives es

@[simp] theorem RefBus.along_nil (u : RefBus) : u.along [] = u := rfl
@[simp] theorem RefBus.along_cons (u : RefBus) (e : Event) (es : List Event) :
    u.along (e :: es) = (u.event e).along es := rfl
theorem RefBus.along_append (u : RefBus) (es fs : List Event) : u.along (es ++ fs) = (u.along es).along fs :=
  List.foldl_append ..
@[simp] theorem RefBus.event_sample (u : RefBus) (b : Bool) : u.event (.sample b) = u := rfl

theorem RefBus.gives_append (u : RefBus) (es fs : List Event) :
    u.gives (es ++ fs) ↔ u.gives es ∧ (u.along es).gives fs := by
  induction es generalizing u with
  | nil => simp [RefBus.gives]
  | cons e es ih => cases e <;> simp [RefBus.gives, ih, and_assoc]

theorem RefBus.after_reverse (ds : List Device) (es tr : List Event) :
    RefBus.after ds (es.reverse ++ tr) = (RefBus.after ds tr).along es := by
  induction es generalizing tr with
  | nil => rfl
  | cons e es ih =>
    rw [List.reverse_cons, List.append_assoc, List.singleton_append, ih]
    rfl

/-- A history that has grown by events is on the bus when the bus gives those events from where it was, and the older
part is. -/
theorem onRefBus_reverse (ds : List Device) (past : Nat) (es tr : List Event) (h : past ≤ tr.length) :
    onRefBus ds past (es.reverse ++ tr) = true ↔ onRefBus ds past tr = true ∧ (RefBus.after ds tr).gives es := by
  induction es generalizing tr with
  | nil => simp [RefBus.gives]
  | cons e es ih =>
    rw [List.reverse_cons, List.append_assoc, List.singleton_append, ih _ (by simp; omega)]
    cases e with
    | act a => rfl
    | sample b =>
      have hn : ¬ tr.length < past := by omega
      simp only [onRefBus, RefBus.gives, RefBus.answer, RefBus.after, RefBus.event_sample, hn, decide_false,
        Bool.false_or, Bool.and_eq_true, beq_iff_eq]
      constructor
      · rintro ⟨⟨h1, h2⟩, h3⟩; exact ⟨h2, h1, h3⟩
      · rintro ⟨h2, h1, h3⟩; exact ⟨⟨h1, h2⟩, h3⟩

/-- Of the events before `past` the bus is asked nothing. -/
theorem onRefBus_past (ds : List Device) (tr : List Event) : ∀ past, tr.length ≤ past → onRefBus ds past tr = true := by
  induction tr with
  | nil => intro _ _; rfl
  | cons e es ih =>
    intro past h
    cases e with
    | act a => exact ih past (by simp at h; omega)
    | sample b =>
      have : es.length < past := by simpa using h
      simp [onRefBus, this, ih past (by omega)]

/-! ## Slots and resets -/

/-- A slot does not depend on the master's low, nor on a device's earlier one. -/
theorem RefBus.slot_low (u : RefBus) (l : Option Nat) (x b : Bool) :
    ({ u with low := l, pull := x } : RefBus).slot b = { u.slot b with low := l } := by
  obtain ⟨ds, ph, lf, lv⟩ := u
  cases ph <;> first | rfl | (simp only [RefBus.slot]; split <;> rfl)

theorem RefBus.along_writeBit (u : RefBus) (b : Bool) :
    u.along (writeBitEvents b) = { u.slot b with low := none } := by
  cases b
  · have h : u.along (writeBitEvents false) = (({ u with low := none, pull := false } : RefBus).slot false).event (.act (.waitUs 1)) := rfl
    rw [h, RefBus.slot_low]
    rfl
  · have h : u.along (writeBitEvents true)
        = ((({ u with low := none, pull := false } : RefBus).slot true).event (.act (.waitUs 57))).event (.act (.waitUs 1)) := rfl
    rw [h, RefBus.slot_low]
    rfl

@[simp] theorem RefBus.gives_writeBit (u : RefBus) (b : Bool) : u.gives (writeBitEvents b) := by
  cases b <;> exact True.intro

theorem RefBus.along_readBit (u : RefBus) (b : Bool) :
    u.along (readBitEvents b) = { u.slot true with low := none } := by
  have h : u.along (readBitEvents b)
      = (((({ u with low := none, pull := false } : RefBus).slot true).event (.act (.waitUs 7))).event
          (.act (.waitUs 50))).event (.act (.waitUs 1)) := rfl
  rw [h, RefBus.slot_low]
  rfl

/-- A read slot's sample is 0 when a device pulls the line low in that slot. -/
theorem RefBus.gives_readBit (u : RefBus) (b : Bool) : u.gives (readBitEvents b) ↔ b = !(u.slot true).pull := by
  have h : u.gives (readBitEvents b)
      ↔ b = ((({ u with low := none, pull := false } : RefBus).slot true).event (.act (.waitUs 7))).level ∧ True := Iff.rfl
  rw [h, RefBus.slot_low]
  simp [RefBus.event, RefBus.level, lineLow]

theorem RefBus.along_resetPulse (u : RefBus) :
    u.along [.act .spuOff, .act .driveLow, .act (.waitUs 480), .act .release, .act (.waitUs 15)] = u.fresh := rfl

theorem RefBus.event_waitUs {u : RefBus} (h : u.low = none) (d : Nat) : u.event (.act (.waitUs d)) = u := by
  obtain ⟨ds, ph, lf, lv⟩ := u
  cases h
  rfl

theorem RefBus.along_polls {u : RefBus} (h : u.low = none) (k : Nat) :
    u.along (List.replicate k [Event.sample true, .act (.waitUs 10)]).flatten = u := by
  induction k with
  | zero => rfl
  | succ k ih =>
    rw [List.replicate_succ, List.flatten_cons, RefBus.along_append]
    simp only [RefBus.along_cons, RefBus.event_sample, RefBus.event_waitUs h, RefBus.along_nil]
    exact ih

/-- The bus after a reset: every device awaits a ROM command. -/
theorem RefBus.along_reset (u : RefBus) (k : Nat) : u.along (resetEvents k) = u.fresh := by
  rw [resetEvents, List.append_assoc, RefBus.along_append, RefBus.along_resetPulse, RefBus.along_append,
    RefBus.along_polls rfl]
  split <;> rfl

theorem RefBus.gives_polls {u : RefBus} (h : u.low = none) (k : Nat) :
    u.gives (List.replicate k [Event.sample true, .act (.waitUs 10)]).flatten ↔ k = 0 ∨ u.level = true := by
  induction k with
  | zero => simp [RefBus.gives]
  | succ k ih =>
    rw [List.replicate_succ, List.flatten_cons, RefBus.gives_append]
    simp only [RefBus.along_cons, RefBus.event_sample, RefBus.event_waitUs h, RefBus.along_nil, ih]
    cases hl : u.level <;> simp [RefBus.gives, hl]

/-- A reset finds presence at its first sample when there is a device, and never when there is none. -/
theorem RefBus.gives_reset (u : RefBus) {k : Nat} (hk : k ≤ 24) :
    u.gives (resetEvents k) ↔ k = if u.devices.isEmpty then 24 else 0 := by
  have hl : u.fresh.level = u.devices.isEmpty := by
    simp [RefBus.level, RefBus.fresh, lineLow]
  rw [resetEvents, List.append_assoc, RefBus.gives_append, RefBus.along_resetPulse, RefBus.gives_append,
    RefBus.along_polls rfl, RefBus.gives_polls rfl, hl]
  cases he : u.devices.isEmpty
  · split
    · simp [RefBus.gives, hl, he]
    · have : k = 24 := by omega
      simp [this]
  · split
    · simp [RefBus.gives, hl, he]
      omega
    · have : k = 24 := by omega
      simp [this, RefBus.gives]

/-! ## Command bytes -/

theorem byteOfBits_bitsOf : ∀ v : Byte, byteOfBits (bitsOf v) = v := by decide

theorem RefBus.along_writes (u : RefBus) (bs : List Bool) :
    u.along (bs.flatMap writeBitEvents) = bs.foldl (fun u b => { u.slot b with low := none }) u := by
  induction bs generalizing u with
  | nil => rfl
  | cons b bs ih => rw [List.flatMap_cons, RefBus.along_append, RefBus.along_writeBit, ih]; rfl

/-- A ROM command byte after a reset. -/
theorem RefBus.along_romCommand (u : RefBus) (v : Byte) (h : u.phase = .romCommand []) :
    u.along (writeEvents [v]) = { devices := u.devices, phase := romPhase v, low := none, pull := false } := by
  obtain ⟨ds, ph, lf, lv⟩ := u
  subst h
  rw [writeEvents, List.flatMap_cons, List.flatMap_nil, List.append_nil, RefBus.along_writes]
  simp only [bitsOf, List.foldl_cons, List.foldl_nil, RefBus.slot, List.length_nil, List.length_cons, List.nil_append,
    List.cons_append, Nat.reduceAdd, Nat.reduceEqDiff, if_true, if_false]
  rw [show [v.getLsbD 0, v.getLsbD 1, v.getLsbD 2, v.getLsbD 3, v.getLsbD 4, v.getLsbD 5, v.getLsbD 6, v.getLsbD 7]
    = bitsOf v from rfl, byteOfBits_bitsOf]

/-- A function command byte after ROM addressing. -/
theorem RefBus.along_functionCommand (u : RefBus) (v : Byte) (h : u.phase = .functionCommand []) :
    u.along (writeEvents [v]) = { devices := u.devices, phase := functionPhase v, low := none, pull := false } := by
  obtain ⟨ds, ph, lf, lv⟩ := u
  subst h
  rw [writeEvents, List.flatMap_cons, List.flatMap_nil, List.append_nil, RefBus.along_writes]
  simp only [bitsOf, List.foldl_cons, List.foldl_nil, RefBus.slot, List.length_nil, List.length_cons, List.nil_append,
    List.cons_append, Nat.reduceAdd, Nat.reduceEqDiff, if_true, if_false]
  rw [show [v.getLsbD 0, v.getLsbD 1, v.getLsbD 2, v.getLsbD 3, v.getLsbD 4, v.getLsbD 5, v.getLsbD 6, v.getLsbD 7]
    = bitsOf v from rfl, byteOfBits_bitsOf]

end Sys2Proof.Machine
end

