-- ==== Sys2Proof/Tests/Slice0.lean ====
section
/-! SUPPORT. The model's own tests: the WellFormed smoke tests, words written out from the spec's encodings, at most two
small tests per instruction with the expected results of 95_test_vectors.md (V, E), and for each statement with
hypotheses a witness that meets them. -/

namespace Sys2Proof.Tests

/-! One theorem after the other: the kernel's evaluations side by side ask for too many threads. -/

set_option Elab.async false

open Sys2Proof.Machine

/-! ## Helpers -/

/-- The parameters of these tests: the OPEN ones at the values of 95_test_vectors.md's conventions, with a short list. -/
def demoParams : Params where
  fClk := 1000000
  owBase := 0
  addrlistDepth := 4
  pwrDefault := false
  halfMode := .exact
  families := Config.defaultFamilies

/-- An idle block after reset whose bus answers the next samples so. -/
def fresh (draws : List Bool) : State := State.afterReset demoParams [] draws [] 0#32 0

/-- The same with a session. -/
def demo (draws : List Bool) : State := { fresh draws with session := true }

/-- The same where the events given come next. -/
def ready (es : List Event) : State := demo (sampleBits es)

theorem ready_follows (es : List Event) : (ready es).phy.follows es :=
  Phy.follows_of_draws (rest := []) (List.append_nil _).symm

/-- What is seen of the state a step answers. -/
def sees {α : Type} (o : Host.Outcome State Fault Refusal) (f : State → α) : Option α :=
  match o with
  | .next t => some (f t)
  | .fault _ => none
  | .refused _ => none

theorem next_of_sees {α : Type} {o : Host.Outcome State Fault Refusal} {f : State → α} {a : α}
    (h : sees o f = some a) : ∃ t, o = .next t ∧ f t = a := by
  cases o <;> simp [sees] at h
  exact ⟨_, rfl, h⟩

/-- A block at the line of a host command that sends this wire command byte. -/
def atLine (c : WireCmd) : State := { demo [] with seq := (demo []).seqAt c }

/-- Whether a wire row, at its line, makes these write slots, oldest first, and no other event. -/
def sentBy (i : Instr) (c : WireCmd) (bits : List Bool) : Option Bool :=
  sees (exec i (atLine c)) fun t => t.phy.trace.reverse == bits.flatMap writeBitEvents

/-- The test devices of 95_test_vectors.md. -/
def d1 : Rom := #v[0x28#8, 0x01#8, 0x00#8, 0x00#8, 0x00#8, 0x00#8, 0x00#8, 0x29#8]
def d3 : Rom := #v[0x10#8, 0xAA#8, 0x00#8, 0x00#8, 0x00#8, 0x00#8, 0x00#8, 0x68#8]
def unknownRom : Rom := #v[0x77#8, 0x01#8, 0x02#8, 0x03#8, 0x04#8, 0x05#8, 0x06#8, 0xE0#8]
def sp1 : Scratchpad := #v[0x91#8, 0x01#8, 0x4B#8, 0x46#8, 0x7F#8, 0xFF#8, 0x0F#8, 0x10#8, 0x25#8]
def sp2 : Scratchpad := #v[0x00#8, 0xFE#8, 0x4B#8, 0x46#8, 0x7F#8, 0xFF#8, 0x0C#8, 0x10#8, 0xF3#8]
def sp3 : Scratchpad := #v[0x50#8, 0x00#8, 0x4B#8, 0x46#8, 0xFF#8, 0xFF#8, 0x04#8, 0x10#8, 0x7A#8]
/-- V2.24: a legacy scratchpad with COUNT_PER_C = 0. -/
def spZero : Scratchpad := #v[0x50#8, 0x00#8, 0x4B#8, 0x46#8, 0xFF#8, 0xFF#8, 0x04#8, 0x00#8, 0xE7#8]
/-- V7.1 (c): a scratchpad whose check byte is wrong. -/
def spBad : Scratchpad := #v[0x00#8, 0x00#8, 0x4B#8, 0x46#8, 0x7F#8, 0xFF#8, 0x0C#8, 0x10#8, 0x21#8]
/-- V2.19: sp1 after a write of 0x5F. -/
def sp5F : Scratchpad := #v[0x91#8, 0x01#8, 0x4B#8, 0x46#8, 0x5F#8, 0xFF#8, 0x0F#8, 0x10#8, 0x55#8]

/-- A block with a target where a read of its scratchpad comes next. -/
def readingFrom (A : Rom) (k : Nat) (d : Scratchpad) : State := { ready (readSpEvents k A d) with addr := A }

theorem readingFrom_follows (A : Rom) (k : Nat) (d : Scratchpad) :
    (readingFrom A k d).phy.follows (readSpEvents k A d) := ready_follows _

/-! ## WellFormed: what the checks refuse -/

theorem test_misaligned_write_is_ill_formed : (Input.write 0x002 32 1#32).wf = false := by decide
theorem test_narrow_read_is_ill_formed : (Input.read 0x004 16).wf = false := by decide
theorem test_aligned_word_is_well_formed : (Input.write 0x008 32 1#32).wf = true := by decide
theorem test_empty_list_is_ill_formed : Params.wf { demoParams with addrlistDepth := 0 } = false := by decide
theorem test_demo_params_are_well_formed : demoParams.wf = true := by decide
theorem test_instructions_are_well_formed : (Instr.init 0xFFFFFF#24).wf = true ∧ Instr.wf .wSkipRom = true := by decide

/-! ## Decoding: words written out from R90, R91 and R98 -/

theorem test_decode_init : decode (.host 0x00000001#32) = .ok (.init 0#24) := by decide
theorem test_decode_destroy : decode (.host 0x00000002#32) = .ok (.destroy 0#24) := by decide
theorem test_decode_resetBus : decode (.host 0x00000003#32) = .ok (.resetBus 0#24) := by decide
theorem test_decode_readRom : decode (.host 0x00000004#32) = .ok (.readRom 0#24) := by decide
theorem test_decode_searchRom : decode (.host 0xABCDEF05#32) = .ok (.searchRom 0xABCDEF#24) := by decide
theorem test_decode_readPowerSupply : decode (.host 0x00000006#32) = .ok (.readPowerSupply 0#24) := by decide
theorem test_decode_readScratchpad : decode (.host 0x00000007#32) = .ok (.readScratchpad 0#24) := by decide
theorem test_decode_writeScratchpad : decode (.host 0x00000008#32) = .ok (.writeScratchpad 0#24) := by decide
theorem test_decode_convertDuration : decode (.host 0x00000009#32) = .ok (.convertDuration 0#24) := by decide
theorem test_decode_convertTemperature : decode (.host 0x0000000A#32) = .ok (.convertTemperature 0#24) := by decide
theorem test_decode_getTemperature : decode (.host 0x0000000B#32) = .ok (.getTemperature 0#24) := by decide
theorem test_decode_getResolution : decode (.host 0x0000000C#32) = .ok (.getResolution 0#24) := by decide
theorem test_decode_setResolution : decode (.host 0x0000000D#32) = .ok (.setResolution 0#24) := by decide
theorem test_decode_crc8 : decode (.host 0x0000000E#32) = .ok (.crc8 0#24) := by decide
theorem test_decode_wire :
    decode (.wire 0xF0#8) = .ok .wSearchRom ∧ decode (.wire 0x33#8) = .ok .wReadRom
    ∧ decode (.wire 0x55#8) = .ok .wMatchRom ∧ decode (.wire 0xCC#8) = .ok .wSkipRom
    ∧ decode (.wire 0xEC#8) = .ok .wAlarmSearch ∧ decode (.wire 0x44#8) = .ok .wConvertT
    ∧ decode (.wire 0x4E#8) = .ok .wWriteScratchpad ∧ decode (.wire 0xBE#8) = .ok .wReadScratchpad
    ∧ decode (.wire 0xB4#8) = .ok .wReadPowerSupply := by decide
theorem test_decode_reserved :
    decode (.host 0x00000000#32) = .error (.reservedOpcode 0x00#8)
    ∧ decode (.host 0x0000000F#32) = .error (.reservedOpcode 0x0F#8)
    ∧ decode (.host 0x123456FF#32) = .error (.reservedOpcode 0xFF#8)
    ∧ decode (.wire 0x3C#8) = .error (.notAWireCommand 0x3C#8) := by decide
theorem test_decodeTableWord :
    decodeTableWord 32 0x105 = some (.searchRom 1#24) ∧ decodeTableWord 8 0xCC = some .wSkipRom
    ∧ decodeTableWord 32 0xFF = none := by decide

/-! ## Operations -/

/-- V2.6, V2.7 and E1. -/
theorem test_crc8_vectors :
    crc8 [0x31#8, 0x32#8, 0x33#8, 0x34#8, 0x35#8, 0x36#8, 0x37#8, 0x38#8, 0x39#8] = 0xA1#8
    ∧ crc8 [0x02#8, 0x1C#8, 0xB8#8, 0x01#8, 0x00#8, 0x00#8, 0x00#8] = 0xA2#8 ∧ crc8 sp1.toList = 0x00#8 := by decide
/-- V4.2. -/
theorem test_reset_presence_at_the_third_sample :
    (demo [true, true, false]).phy.resetPresence.1 = true
    ∧ busTime (demo [true, true, false]).phy.resetPresence.2.trace = 960 := by decide
/-- V4.7: samples 1, 0, 0, 0, 1, 0, 0, 1 read as 0x91. -/
theorem test_read_byte_order :
    (demo [true, false, false, false, true, false, false, true]).phy.readByte.1 = 0x91#8 := by decide +kernel
/-- V4.7's byte 0x91 and then its complement: the first byte read is the first element (R137). -/
theorem test_read_bytes_order :
    ((demo [true, false, false, false, true, false, false, true, false, true, true, true, false, true, true,
      false]).phy.readBytes 2).1 = [0x91#8, 0x6E#8] := by decide +kernel
/-- R241's worked examples (E5), in binary32. -/
theorem test_modern_temperatures :
    toBinary32 (modernTemp 401) = 0x41C88000#32 ∧ toBinary32 (modernTemp (-512)) = 0xC2000000#32 := by decide +kernel
/-- E6: 40.5. -/
theorem test_legacy_temperature :
    (legacyTemp .trunc 0x50 4#8 16#8).map toBinary32 = some 0x42220000#32
    ∧ (legacyTemp .floor 0x50 4#8 16#8).map toBinary32 = some 0x42220000#32 := by decide +kernel

/-! ## Instructions, one step each -/

/-- V6.1: the pull-up and its polarity from CFG, PWR from the bit read. -/
theorem test_init : sees (exec (.init 0) { fresh [false, true] with cfg := 0x00000001#32 })
    (fun t => (t.session, t.pwr, t.stat, busTime t.phy.trace)) = some (true, true, 0x00000026#32, 1997) := by
  decide +kernel
/-- V6.4. -/
theorem test_init_twice : exec (.init 0) (demo []) = .next { demo [] with status := 0x01#8 } := rfl
/-- V6.5: the pull-up stays on. -/
theorem test_destroy : sees (exec (.destroy 0) { demo [] with phy := { (demo []).phy with spuAct := true } })
    (fun t => (t.session, t.phy.spuAct, t.status)) = some (false, true, 0x00#8) := by decide
/-- V6.7, and V6.8 with all 24 samples 1. -/
theorem test_resetBus : sees (exec (.resetBus 0) (demo [false])) (fun t => (t.result, t.status)) = some (1#32, 0x00#8) := by
  decide
theorem test_resetBus_empty : sees (exec (.resetBus 0) (demo (List.replicate 24 true)))
    (fun t => (t.result, t.status)) = some (0#32, 0x00#8) := by decide +kernel
/-- V6.10. -/
theorem test_readRom : sees (exec (.readRom 0) (demo (false :: sampleBits (readEvents d1.toList))))
    (fun t => (romLo t.romid, romHi t.romid, t.status)) = some (0x00000128#32, 0x29000000#32, 0x00#8) := by
  decide +kernel
/-- V6.13: a shorted bus reads as the all-zero address, with a right CRC. -/
theorem test_readRom_short : sees (exec (.readRom 0) (demo (List.replicate 65 false)))
    (fun t => (romLo t.romid, t.status)) = some (0#32, 0x00#8) := by decide +kernel
/-- V5.8: (1, 1) at position 1. -/
theorem test_searchRom_abort :
    sees (exec (.searchRom 0) { demo [false, true, true] with cfg := 0x00010000#32, search := ⟨5#7, false, 9#64⟩ })
      (fun t => (t.status, t.result, t.search, busTime t.phy.trace))
    = some (0x02#8, 0#32, ⟨0#7, false, 9#64⟩, 1570) := by decide +kernel
/-- V5.7's shape with d3: one pass finds the only device, and LDF ends the search. -/
theorem test_searchRom_one : sees
    (exec (.searchRom 0)
      { demo (false :: (d3.toList.flatMap bitsOf).flatMap fun b => [b, !b]) with cfg := 0x00010000#32 })
      (fun t => (t.status, t.result, t.addrlist[0]?, t.search.ld)) = some (0x00#8, 1#32, some d3, 0#7) := by
  decide +kernel
/-- V6.15. -/
theorem test_readPowerSupply : sees (exec (.readPowerSupply 0) { demo [false, false] with pwr := true })
    (fun t => (t.pwr, t.result, t.status, busTime t.phy.trace)) = some (false, 0#32, 0x00#8, 1997) := by decide +kernel
/-- V7.1 (b) and (c). -/
theorem test_readScratchpad : sees (exec (.readScratchpad 0) (demo (false :: sampleBits (readEvents sp1.toList))))
    (fun t => (t.spbuf, t.status, busTime t.phy.trace)) = some (sp1, 0x00#8, 6328) := by decide +kernel
theorem test_readScratchpad_crc : sees (exec (.readScratchpad 0) (demo (false :: sampleBits (readEvents spBad.toList))))
    (fun t => (t.spbuf, t.status)) = some (spBad, 0x03#8) := by decide +kernel
/-- V7.2 (a) and (b): two bytes to a LEGACY target, three to a MODERN one. -/
theorem test_writeScratchpad : sees (exec (.writeScratchpad 0) { demo [false] with addr := d1, spbuf := sp5F })
    (fun t => (t.status, busTime t.phy.trace)) = some (0x00#8, 7304) := by decide +kernel
theorem test_writeScratchpad_legacy : sees (exec (.writeScratchpad 0) { demo [false] with addr := d3, spbuf := sp5F })
    (fun t => (t.status, busTime t.phy.trace)) = some (0x00#8, 6816) := by decide +kernel
/-- V7.3 (c) and (e). -/
theorem test_convertDuration : sees (exec (.convertDuration 0) (readingFrom d1 0 sp5F))
    (fun t => (t.result, t.status)) = some (375#32, 0x00#8) := by decide +kernel
theorem test_convertDuration_legacy : sees (exec (.convertDuration 0) { demo [] with addr := d3 })
    (fun t => (t.result, t.status, t.phy.trace)) = some (750#32, 0x00#8, []) := by decide +kernel
/-- V7.4 (b) and (c). -/
theorem test_convertTemperature : sees
    (exec (.convertTemperature 0)
      { demo [false] with cfg := 0x00000004#32, phy := { (demo [false]).phy with spuAvail := true } })
    (fun t => (t.phy.spuAct, t.status, busTime t.phy.trace)) = some (false, 0x00#8, 751936) := by decide +kernel
theorem test_convertTemperature_nonblocking : sees
    (exec (.convertTemperature 0) { demo [false] with phy := { (demo [false]).phy with spuAvail := true } })
    (fun t => (t.phy.spuAct, t.status, busTime t.phy.trace)) = some (true, 0x00#8, 1936) := by decide +kernel
/-- V7.5 (a): 25.0625; and E6: 40.5. -/
theorem test_getTemperature : sees (exec (.getTemperature 0) (readingFrom d1 0 sp1))
    (fun t => (t.temp, t.status)) = some (0x41C88000#32, 0x00#8) := by decide +kernel
theorem test_getTemperature_legacy : sees (exec (.getTemperature 0) (readingFrom d3 0 sp3))
    (fun t => (t.temp, t.status)) = some (0x42220000#32, 0x00#8) := by decide +kernel
/-- R245: config 0x5F is 11 bits (E12); R244: a LEGACY target is not read. -/
theorem test_getResolution : sees (exec (.getResolution 0) (readingFrom d1 0 sp5F))
    (fun t => (t.result, t.status)) = some (11#32, 0x00#8) := by decide +kernel
theorem test_getResolution_legacy : sees (exec (.getResolution 0) { demo [] with addr := d3 })
    (fun t => (t.result, t.status, t.phy.trace)) = some (9#32, 0x00#8, []) := by decide +kernel
/-- R246: 0x7F with resolution 11 is written as 0x5F; and a resolution of 13 is refused. -/
theorem test_setResolution : sees
    (exec (.setResolution 0)
      { demo (sampleBits (readSpEvents 0 d1 sp1) ++ [false]) with addr := d1, cfg := 0x00000B00#32 })
    (fun t => (t.spbuf[4], t.status)) = some (0x5F#8, 0x00#8) := by decide +kernel
theorem test_setResolution_range : sees (exec (.setResolution 0) { demo [] with addr := d1, cfg := 0x00000D00#32 })
    (fun t => (t.status, t.phy.trace)) = some (0x01#8, []) := by decide +kernel
/-- V3.3 and V3.6. -/
theorem test_crc8 : sees
    (exec (.crc8 0) { fresh [] with
      spbuf := #v[0x02#8, 0x1C#8, 0xB8#8, 0x01#8, 0x00#8, 0x00#8, 0x00#8, 0xA2#8, 0x00#8], cfg := 0x07000000#32 })
    (fun t => (t.result, t.status)) = some (0xA2#32, 0x00#8) := by decide +kernel
theorem test_crc8_length : sees (exec (.crc8 0) { fresh [] with result := 0xEE#32, cfg := 0x0A000000#32 })
    (fun t => (t.result, t.status)) = some (0xEE#32, 0x01#8) := by decide +kernel
/-- V4.7: the slots of 0xF0 and of 0x55, oldest first, by the events of WriteBit; and those of the other bytes of R98. -/
theorem test_wSearchRom : sentBy .wSearchRom .searchRom
    [false, false, false, false, true, true, true, true] = some true := by decide +kernel
theorem test_wReadRom : sentBy .wReadRom .readRom
    [true, true, false, false, true, true, false, false] = some true := by decide +kernel
theorem test_wMatchRom : sentBy .wMatchRom .matchRom
    [true, false, true, false, true, false, true, false] = some true := by decide +kernel
theorem test_wSkipRom : sentBy .wSkipRom .skipRom
    [false, false, true, true, false, false, true, true] = some true := by decide +kernel
theorem test_wConvertT : sentBy .wConvertT .convertT
    [false, false, true, false, false, false, true, false] = some true := by decide +kernel
theorem test_wWriteScratchpad : sentBy .wWriteScratchpad .writeScratchpad
    [false, true, true, true, false, false, true, false] = some true := by decide +kernel
theorem test_wReadScratchpad : sentBy .wReadScratchpad .readScratchpad
    [false, true, true, true, true, true, false, true] = some true := by decide +kernel
theorem test_wReadPowerSupply : sentBy .wReadPowerSupply .readPowerSupply
    [false, false, true, false, true, true, false, true] = some true := by decide +kernel
/-- R64, R282: where the block sends no such byte, an idle block included, nothing happens. -/
theorem test_wire_elsewhere : exec .wSkipRom (demo []) = .next (demo [])
    ∧ exec .wSkipRom (atLine .matchRom) = .next (atLine .matchRom) := ⟨rfl, rfl⟩
theorem test_wAlarmSearch : exec .wAlarmSearch (demo []) = .refused .alarmSearchNeverSent := rfl

/-! ## Steps -/

theorem test_step_runs_the_fetched_word :
    step ((demo []).withFetchWord 32 0x02) = exec (.destroy 0#24) (demo []) := rfl
theorem test_step_sends_the_fetched_byte :
    step ((demo []).withFetchWord 8 0xCC) = exec .wSkipRom (atLine .skipRom) := rfl
/-- From reset, with the OPEN parameters as they are. -/
theorem test_step_from_reset :
    step (State.reset.withFetchWord 32 0x02) = .next { State.reset with status := 0x01#8 } := rfl
/-- R108's EXEC of DESTROY: the write starts it, and polling runs its lines to the end. -/
theorem test_host_program : sees (Sys2Proof.core.run 8 { demo [] with inputs := progExec .destroy })
    (fun t => (t.session, t.busy, t.rdata, t.inputs)) = some (false, false, 0#32, []) := by decide +kernel

/-- R34, R203: the lines of INIT one by one; `SPU_AVAIL` is written, and `SPU_POL` not yet. -/
theorem test_init_line_by_line : sees (coreRun 4 (({ fresh [] with cfg := 0x00000003#32 } : State).start 0x01#8))
    (fun t => (t.phy.spuAvail, t.phy.spuPol, t.session, t.busy)) = some (true, false, false, true) := by decide +kernel

/-! ## Witnesses: for each statement with hypotheses, a state and operands that meet them all -/

theorem witness_DecodeAndEncodeAgree : decode (.host 0x00000105#32) = .ok (.searchRom 1#24) := by decide
/-- At both ends of the two reserved ranges. -/
theorem witness_ReservedOpcode : ∀ w ∈ [0x00000000#32, 0x0000000F#32, 0xABCDEFFF#32],
    (demo []).seq = .idle ∧ ({ demo [] with inputs := [.cmd w] } : State).inputs = .cmd w :: []
    ∧ (w &&& 0xFF#32 = 0#32 ∨ 0x0F#32 ≤ w &&& 0xFF#32) := by
  intro w hw
  refine ⟨rfl, rfl, ?_⟩
  simp only [List.mem_cons, List.not_mem_nil, or_false] at hw
  rcases hw with rfl | rfl | rfl <;> decide
theorem witness_IgnoredBits : (0x00000105#32 : Word) &&& 0xFF#32 = 0xABCDEF05#32 &&& 0xFF#32 := by decide
theorem witness_StepRunsTheDecoded :
    (demo []).seq = .idle ∧ ({ demo [] with inputs := [.cmd 0x105#32] } : State).inputs = .cmd 0x105#32 :: []
    ∧ decode (.host 0x105#32) = .ok (.searchRom 1#24)
    ∧ (∃ ps, (atLine .skipRom).seq = .run 0x07#8 (.command .skipRom :: ps) .none)
    ∧ ({ atLine .skipRom with inputs := [.tickByte] } : State).inputs = .tickByte :: []
    ∧ decode (.wire WireCmd.skipRom.byte) = .ok .wSkipRom :=
  ⟨rfl, rfl, by decide, ⟨_, rfl⟩, rfl, by decide⟩
/-- Every wire command at its line, and an idle block, which is at none. -/
theorem witness_WireCommands (c : WireCmd) : (∃ op ps, (atLine c).seq = .run op (.command c :: ps) .none)
    ∧ ∀ op ps ret, (demo []).seq ≠ .run op (.command c :: ps) ret :=
  ⟨by cases c <;> exact ⟨_, _, rfl⟩, fun _ _ _ h => by cases h⟩
theorem witness_ResetPresence : ∀ k ∈ [0, 23, 24], k ≤ 24 ∧ (ready (resetEvents k)).phy.follows (resetEvents k) := by
  intro k hk
  refine ⟨?_, ready_follows _⟩
  simp at hk
  omega
theorem witness_Slots : ∀ b, (ready (readBitEvents b)).phy.follows (readBitEvents b) := fun _ => ready_follows _
theorem witness_ReadByte : ∀ v ∈ [0x00#8, 0x91#8, 0xFF#8], (ready (readEvents [v])).phy.follows (readEvents [v]) :=
  fun _ _ => ready_follows _
/-- LEN 9 and LEN 10. -/
theorem witness_Crc8Command :
    (({ fresh [] with cfg := 0x09000000#32 } : State).cfg.extractLsb' 24 4).toNat ≤ 9
    ∧ 9 < (({ fresh [] with cfg := 0x0A000000#32 } : State).cfg.extractLsb' 24 4).toNat := by decide
theorem witness_Init (k : Nat) (b : Bool) : (demo []).session = true ∧ (fresh []).session = false
    ∧ ({ (fresh []).phy with draws := sampleBits (resetEvents 24) } : Phy).follows (resetEvents 24)
    ∧ ({ (fresh []).phy with
          draws := sampleBits (resetEvents k ++ writeEvents [0xCC#8, 0xB4#8] ++ readBitEvents b) } : Phy).follows
        (resetEvents k ++ writeEvents [0xCC#8, 0xB4#8] ++ readBitEvents b) :=
  ⟨rfl, rfl, Phy.follows_of_draws (rest := []) (List.append_nil _).symm,
    Phy.follows_of_draws (rest := []) (List.append_nil _).symm⟩
theorem witness_Destroy : (demo []).session = true ∧ (fresh []).session = false := by decide
theorem witness_ResetBus : ∀ k ∈ [0, 23, 24], (ready (resetEvents k)).session = true ∧ k ≤ 24
    ∧ (ready (resetEvents k)).phy.follows (resetEvents k) := by
  intro k hk
  exact ⟨rfl, (witness_ResetPresence k hk).1, ready_follows _⟩
/-- Both cases of READ_ROM: no presence, and presence at the last of 24 samples. -/
theorem witness_ReadRom : (ready (resetEvents 24)).phy.follows (resetEvents 24)
    ∧ (ready (resetEvents 23 ++ writeEvents [0x33#8] ++ readEvents d1.toList)).session = true
    ∧ (ready (resetEvents 23 ++ writeEvents [0x33#8] ++ readEvents d1.toList)).phy.follows
        (resetEvents 23 ++ writeEvents [0x33#8] ++ readEvents d1.toList) :=
  ⟨ready_follows _, rfl, ready_follows _⟩
theorem witness_ReadPowerSupply : (ready (resetEvents 24)).phy.follows (resetEvents 24)
    ∧ ∃ s : State, s.session = true ∧ s.addr = d1
      ∧ s.phy.follows (resetEvents 0 ++ selectEvents d1 ++ writeEvents [0xB4#8] ++ readBitEvents false) :=
  ⟨ready_follows _,
    { ready (resetEvents 0 ++ selectEvents d1 ++ writeEvents [0xB4#8] ++ readBitEvents false) with addr := d1 },
    rfl, rfl, ready_follows _⟩
/-- A right and a wrong check byte. -/
theorem witness_ReadScratchpad : (ready (resetEvents 24)).phy.follows (resetEvents 24)
    ∧ (∀ d : Scratchpad, (readingFrom d1 0 d).session = true
        ∧ (readingFrom d1 0 d).phy.follows (readSpEvents 0 (readingFrom d1 0 d).addr d))
    ∧ crc8 (sp1.toList.take 8) = sp1[8] ∧ crc8 (spBad.toList.take 8) ≠ spBad[8] :=
  ⟨ready_follows _, fun d => ⟨rfl, readingFrom_follows d1 0 d⟩, by decide, by decide⟩
theorem witness_WriteScratchpad : (ready (resetEvents 24)).phy.follows (resetEvents 24)
    ∧ familyClass demoParams d1[0] = .modern ∧ familyClass demoParams d3[0] = .legacy
    ∧ ∀ (A : Rom) (es : List Event), ({ ready es with addr := A } : State).session = true
        ∧ ({ ready es with addr := A } : State).phy.follows es :=
  ⟨ready_follows _, by decide, by decide, fun _ es => ⟨rfl, ready_follows es⟩⟩
/-- The three kinds of target of a command that looks at the family. -/
theorem witness_families :
    familyClass demoParams d1[0] = .modern ∧ familyClass demoParams d3[0] = .legacy
    ∧ familyClass demoParams unknownRom[0] = .unknown := by decide
/-- Each class; no presence; and a MODERN target read with a right and a wrong check byte. -/
theorem witness_GetResolution : (ready (resetEvents 24)).phy.follows (resetEvents 24)
    ∧ (∀ d : Scratchpad, (readingFrom d1 23 d).session = true
        ∧ familyClass (readingFrom d1 23 d).params (readingFrom d1 23 d).addr[0] = .modern
        ∧ (readingFrom d1 23 d).phy.follows (readSpEvents 23 (readingFrom d1 23 d).addr d))
    ∧ crc8 (sp1.toList.take 8) = sp1[8] ∧ crc8 (spBad.toList.take 8) ≠ spBad[8] :=
  ⟨ready_follows _, fun d => ⟨rfl, show familyClass demoParams d1[0] = .modern by decide, readingFrom_follows d1 23 d⟩,
    by decide, by decide⟩
theorem witness_ConvertDuration : (demo []).session = true
    ∧ familyClass ({ demo [] with addr := d3 } : State).params d3[0] ≠ .modern
    ∧ ({ ready (resetEvents 24) with addr := d1 } : State).phy.follows (resetEvents 24)
    ∧ familyClass (readingFrom d1 23 sp1).params (readingFrom d1 23 sp1).addr[0] = .modern
    ∧ (readingFrom d1 23 sp1).phy.follows (readSpEvents 23 (readingFrom d1 23 sp1).addr sp1) :=
  ⟨rfl, by decide, ready_follows _, by decide, readingFrom_follows _ _ _⟩
theorem witness_ConvertTemperature : (ready (resetEvents 24)).phy.follows (resetEvents 24)
    ∧ ∀ (c : Word) (es : List Event), ({ ready es with cfg := c } : State).session = true
        ∧ ({ ready es with cfg := c } : State).phy.follows es :=
  ⟨ready_follows _, fun _ es => ⟨rfl, ready_follows es⟩⟩
/-- A non-blocking conversion on parasitic power leaves the pull-up on. -/
theorem witness_PullUp : ∃ s t : State, s.session = true ∧ s.phy.follows (resetEvents 0) ∧ s.pwr = false
    ∧ s.cfg.getLsbD 2 = false ∧ s.phy.spuAvail = true ∧ exec (.convertTemperature 0) s = .next t
    ∧ t.phy.spuAct = true := by
  have h : sees (exec (.convertTemperature 0)
      { demo [false] with phy := { (demo [false]).phy with spuAvail := true } }) (fun t => t.phy.spuAct) = some true := by
    decide +kernel
  obtain ⟨t, ht, ha⟩ := next_of_sees h
  exact ⟨_, t, rfl, Phy.follows_of_draws (rest := []) rfl, rfl, rfl, rfl, ht, ha⟩
/-- Parasitic power with the pull-up on, and the HOST's next access. -/
def pulled (x : Input) : State :=
  { demo [] with phy := { (demo []).phy with spuAvail := true, spuAct := true }, inputs := [x] }
/-- Before the conversion time, at both its forms, the HOST may poll and may compute a CRC but start no reset; from it on
it may, and must. -/
theorem witness_HostObeys :
    (∀ x ∈ [(749, none), (94, some 95#32)],
      (∀ i ∈ [Input.poll, .cmd 0x0E#32, .write 0x000 32 0x02#32], (pulled i).hostObeys x.1 x.2 = true
        ∧ (pulled i).inputs.head? ≠ some .reset)
      ∧ (pulled (.cmd 0x03#32)).hostObeys x.1 x.2 = false ∧ (pulled .poll).hostMustEnd x.1 x.2 = false)
    ∧ (pulled .poll).seq = .idle ∧ (pulled .poll).phy.spuAct = true
    ∧ (∃ t, step (pulled .poll) = .next t)
    ∧ ∀ x ∈ [(750, none), (95, some 95#32)], (pulled .poll).hostMustEnd x.1 x.2 = true
      ∧ (pulled (.cmd 0x03#32)).hostObeys x.1 x.2 = true :=
  ⟨by decide, rfl, rfl, ⟨_, rfl⟩, by decide⟩
/-- Every case of GET_TEMPERATURE: a wrong CRC, each class, and a legacy target with and without a divisor. -/
theorem witness_GetTemperature :
    (∀ (A : Rom) (d : Scratchpad), (readingFrom A 0 d).session = true
      ∧ (readingFrom A 0 d).phy.follows (readSpEvents 0 (readingFrom A 0 d).addr d))
    ∧ crc8 (spBad.toList.take 8) ≠ spBad[8] ∧ crc8 (sp2.toList.take 8) = sp2[8]
    ∧ crc8 (sp3.toList.take 8) = sp3[8] ∧ (legacyTemp .exact 0x50 sp3[6] sp3[7]).isSome = true
    ∧ crc8 (spZero.toList.take 8) = spZero[8] ∧ spZero[7] = 0x00#8 :=
  ⟨fun A d => ⟨rfl, readingFrom_follows A 0 d⟩, by decide, by decide, by decide, by decide, by decide, by decide⟩
/-- RES 8, 9, 12 and 13. -/
theorem witness_SetResolution :
    (∀ res ∈ [9, 12], 9 ≤ ((BitVec.ofNat 32 (res * 256)).extractLsb' 8 8).toNat
      ∧ ((BitVec.ofNat 32 (res * 256)).extractLsb' 8 8).toNat ≤ 12)
    ∧ (∀ res ∈ [8, 13], ((BitVec.ofNat 32 (res * 256)).extractLsb' 8 8).toNat < 9
      ∨ 12 < ((BitVec.ofNat 32 (res * 256)).extractLsb' 8 8).toNat)
    ∧ ∀ es, ({ ready es with addr := d1, cfg := 0x00000900#32 } : State).session = true
      ∧ ({ ready es with addr := d1, cfg := 0x00000900#32 } : State).phy.follows es :=
  ⟨by decide, by decide, fun es => ⟨rfl, ready_follows es⟩⟩
theorem witness_LegacyFormula : sp3[7] ≠ 0x00#8 := by decide
theorem witness_ToBinary32 : ∃ v : Frac, 0 < v.den ∧ v.num ≠ 0 ∧ (2 : ℚ) ^ (-126 : ℤ) ≤ |v.value| ∧ |v.value| ≤ 2 ^ 127 :=
  ⟨⟨1, 1⟩, by decide, by decide, by norm_num [Frac.value], by norm_num [Frac.value]⟩
theorem witness_ToBinary32_temperatures :
    (∃ v, v = modernTemp (0x0191#16 : BitVec 16).toInt)
    ∧ ∀ m, (legacyTemp m (0x8000#16 : BitVec 16).toInt 0xFF#8 0x01#8).isSome = true :=
  ⟨⟨_, rfl⟩, fun m => by cases m <;> decide⟩

/-- A pass with no discrepancy, and one with a discrepancy at position 1 where 0 is taken (LD 0). -/
theorem witness_PassFollows :
    (∀ n, 1 ≤ n → n ≤ 64 → ¬((fun _ => false : Nat → Bool) n = true ∧ (fun n => n != 1 : Nat → Bool) n = true)
      ∧ (0#64).getLsbD (n - 1)
        = (if (fun _ => false : Nat → Bool) n ≠ (fun n => n != 1 : Nat → Bool) n then (fun _ => false : Nat → Bool) n
            else if n = (0#7).toNat then true else if (0#7).toNat < n then false else (0#64).getLsbD (n - 1)))
    ∧ (∀ es, (ready es).phy.follows es) ∧ (demo []).search.ldf = false := by
  refine ⟨?_, fun es => ready_follows es, rfl⟩
  intro n h1 h2
  refine ⟨by simp, ?_⟩
  by_cases hn : n = 1 <;> simp [hn]
theorem witness_PassEnds : (demo []).search.ldf = false
    ∧ ({ (demo []).search with ldf := true } : Search).ldf = true
    ∧ (ready (resetEvents 24)).phy.follows (resetEvents 24) := ⟨rfl, rfl, ready_follows _⟩
/-- A pass that reads (1, 1) at position 1, and one that reads it at position 64. -/
theorem witness_PassAborts :
    (∀ m ∈ [1, 64], 1 ≤ m ∧ m ≤ 64
      ∧ (∀ n, 1 ≤ n → n < m → ¬((fun _ => false : Nat → Bool) n = true ∧ (fun _ => true : Nat → Bool) n = true)
        ∧ (0#64).getLsbD (n - 1) = (if (fun _ => false : Nat → Bool) n ≠ (fun _ => true : Nat → Bool) n
            then (fun _ => false : Nat → Bool) n else if n = (0#7).toNat then true
            else if (0#7).toNat < n then false else (0#64).getLsbD (n - 1)))
      ∧ ∀ n, m ≤ n → n ≤ 64 → (0#64).getLsbD (n - 1) = (demo []).search.sr.getLsbD (n - 1))
    ∧ ∀ es, (ready es).phy.follows es := by
  refine ⟨?_, fun es => ready_follows es⟩
  intro m hm
  refine ⟨by simp at hm; omega, by simp at hm; omega, fun n _ _ => by simp, fun n _ _ => rfl⟩
/-- CAP above the depth, at it, and 0; and a rom with the right CRC. -/
theorem witness_SearchRom :
    (demo []).session = true
    ∧ demoParams.addrlistDepth < (((0x00050000#32 : Word)).extractLsb' 16 8).toNat
    ∧ ((0x00040000#32 : Word).extractLsb' 16 8).toNat ≤ demoParams.addrlistDepth
    ∧ ((0x00000000#32 : Word).extractLsb' 16 8).toNat = 0
    ∧ crc8 ((romOf 0x680000000000AA10#64).toList.take 7) = (romOf 0x680000000000AA10#64)[7]
    ∧ crc8 ((romOf 0x690000000000AA10#64).toList.take 7) ≠ (romOf 0x690000000000AA10#64)[7]
    ∧ ∀ es, (ready es).phy.follows es :=
  ⟨rfl, by decide, by decide, by decide, by decide +kernel, by decide +kernel, ready_follows⟩
/-- A first pass that reads (1, 1) at position 1, and one that reads it at position 64. -/
theorem witness_SearchRomAborts : ∀ m ∈ [1, 64], 1 ≤ m ∧ m ≤ 64
    ∧ (∀ n, 1 ≤ n → n < m → ¬((fun _ => false : Nat → Bool) n = true ∧ (fun _ => true : Nat → Bool) n = true)
      ∧ (0#64).getLsbD (n - 1) = (fun _ => false : Nat → Bool) n)
    ∧ (∀ n, m ≤ n → n ≤ 64 → (0#64).getLsbD (n - 1) = (demo []).search.sr.getLsbD (n - 1))
    ∧ ∀ es, (ready es).phy.follows es := by
  intro m hm
  exact ⟨by simp at hm; omega, by simp at hm; omega, fun n _ _ => by simp, fun n _ _ => rfl, ready_follows⟩
theorem witness_SearchResult : ∃ t : State, (demo []).session = true
    ∧ (demo []).addrlist.length = (demo []).params.addrlistDepth
    ∧ exec (.searchRom 0) { demo [false, true, true] with cfg := 0x00010000#32 } = .next t ∧ t.seq = .idle := by
  have h : sees (exec (.searchRom 0) { demo [false, true, true] with cfg := 0x00010000#32 }) (fun t => t.seq)
      = some .idle := by decide +kernel
  obtain ⟨t, ht, hq⟩ := next_of_sees h
  exact ⟨t, rfl, by decide, ht, hq⟩

/-- The one device of the static bus of these witnesses. -/
def demoDevice : Device where
  rom := d1
  sp := sp1
  parasitic := false
  legacy := false
  active := false

/-- Whether a bus gives every sample of these events. -/
def gives (u : RefBus) : List Event → Bool
  | [] => true
  | .act a :: es => gives (u.event (.act a)) es
  | .sample b :: es => b == u.level && gives u es

theorem onRefBus_of_gives {ds : List Device} {tr : List Event} (h : gives (RefBus.start ds) tr.reverse = true) :
    onRefBus ds 0 tr = true := by
  have hg : ∀ (es : List Event) (u : RefBus), gives u es = true → u.gives es := by
    intro es
    induction es with
    | nil => intro _ _; exact True.intro
    | cons e es ih =>
      intro u h
      cases e with
      | act a => exact ih _ h
      | sample b =>
        simp only [gives, Bool.and_eq_true, beq_iff_eq] at h
        exact ⟨h.1, ih _ h.2⟩
  have := (onRefBus_reverse ds 0 tr.reverse [] (Nat.zero_le _)).mpr ⟨rfl, hg _ _ h⟩
  simpa using this

/-- The answers of a bus with d1 alone: presence, and each bit of its address with its complement. -/
def searchDraws : List Bool := false :: (d1.toList.flatMap bitsOf).flatMap fun b => [b, !b]

theorem witness_SearchIsComplete : ∃ t : State,
    (demo []).session = true ∧ ([demoDevice].map Device.rom).Nodup
    ∧ validDevices [demoDevice] = [demoDevice] ∧ validDevices [{ demoDevice with rom := d1.set 7 0x00#8 }] = []
    ∧ (validDevices [demoDevice]).length ≤ ((0x00010000#32 : Word).extractLsb' 16 8).toNat
    ∧ (demo searchDraws).addrlist.length = demoParams.addrlistDepth
    ∧ ((0x00010000#32 : Word).extractLsb' 16 8).toNat ≤ demoParams.addrlistDepth
    ∧ exec (.searchRom 0) { demo searchDraws with cfg := 0x00010000#32 } = .next t
    ∧ onRefBus [demoDevice] (demo searchDraws).phy.trace.length t.phy.trace = true := by
  have h : sees (exec (.searchRom 0) { demo searchDraws with cfg := 0x00010000#32 })
      (fun t => gives (RefBus.start [demoDevice]) t.phy.trace.reverse) = some true := by decide +kernel
  obtain ⟨t, ht, hg⟩ := next_of_sees h
  exact ⟨t, rfl, by decide, by decide +kernel, by decide +kernel, by decide +kernel, by decide, by decide, ht,
    onRefBus_of_gives hg⟩
theorem witness_SearchReportsTooMany : ∃ t : State,
    ((0#32 : Word).extractLsb' 16 8).toNat < (validDevices [demoDevice]).length
    ∧ exec (.searchRom 0) (demo searchDraws) = .next t
    ∧ onRefBus [demoDevice] (demo searchDraws).phy.trace.length t.phy.trace = true := by
  have h : sees (exec (.searchRom 0) (demo searchDraws))
      (fun t => gives (RefBus.start [demoDevice]) t.phy.trace.reverse) = some true := by decide +kernel
  obtain ⟨t, ht, hg⟩ := next_of_sees h
  exact ⟨t, by decide +kernel, ht, onRefBus_of_gives hg⟩

theorem witness_NoSession : (fresh []).session = false ∧ Instr.hostOp (.destroy 0) = some .destroy := by decide
/-- Each cause of INVALID_ARG, and a command that ends otherwise. -/
theorem witness_InvalidArg :
    (∀ x ∈ [(Instr.destroy 0, fresh []), (.init 0, demo []), (.searchRom 0, { demo [] with cfg := 0x00050000#32 }),
        (.setResolution 0, { demo [] with addr := d1, cfg := 0x00000800#32 }),
        (.setResolution 0, { demo [] with addr := d1, cfg := 0x00000D00#32 }),
        (.crc8 0, { fresh [] with cfg := 0x0A000000#32 })],
      sees (exec x.1 x.2) (fun t => (t.seq, t.status)) = some (.idle, 0x01#8))
    ∧ sees (exec (.crc8 0) (fresh [])) (fun t => (t.seq, t.status)) = some (.idle, 0x00#8) := by decide +kernel
theorem witness_EveryCommandEnds : Instr.hostOp (.crc8 0) = some .crc8 := rfl
theorem witness_StatusCodes : Instr.hostOp (.readRom 0) = some .readRom
    ∧ sees (exec (.readRom 0) (demo (List.replicate 24 true))) (fun t => (t.seq, t.status)) = some (.idle, 0x02#8) := by
  decide +kernel
theorem witness_OnlyTheNamed : ∃ t, exec (.crc8 0) (fresh []) = .next t := ⟨_, rfl⟩
theorem witness_LineReleased :
    ∃ t, exec .wSkipRom (atLine .skipRom) = .next t ∧ (atLine .skipRom).phy.dqDrv = false := ⟨_, rfl, rfl⟩
/-- R65: the line is low when the block or a device drives it so, else high, actively so under the strong pull-up. -/
theorem test_line_level :
    ({ (demo []).phy with dqDrv := true } : Phy).lineLevel false = .low ∧ (demo []).phy.lineLevel true = .low
    ∧ (demo []).phy.lineLevel false = .pulledHigh ∧ (pulled .poll).phy.lineLevel false = .heldHigh := by decide
/-- R67: INIT's RELEASE is no slot; a slot's release is one. -/
theorem test_bare_release_is_no_slot :
    let u : RefBus := { devices := [], phase := .matchRom [true], low := none, pull := false }
    (u.event (.act .release)).phase = .matchRom [true]
    ∧ ((writeBitEvents false).foldl RefBus.event u).phase = .matchRom [true, false] := by decide
theorem witness_Framed : ∃ t, Instr.hostOp (.destroy 0) = some .destroy ∧ exec (.destroy 0) (demo []) = .next t :=
  ⟨_, rfl, rfl⟩
/-- The times of each command at its longest, and of a reset that no device answers. -/
theorem witness_CommandDurations :
    (∀ x ∈ [(Instr.init 0, fresh [false, true], 1997), (.destroy 0, demo [], 0), (.resetBus 0, demo [false], 960),
        (.readRom 0, ready (resetEvents 0 ++ writeEvents [0x33#8] ++ readEvents d1.toList), 5352),
        (.readPowerSupply 0, { demo [false, true] with addr := d1 }, 5352 + 549),
        (.readScratchpad 0, readingFrom d1 0 sp1, 5352 + 4880),
        (.writeScratchpad 0, { demo [false] with addr := d1 }, 5352 + 1952),
        (.convertDuration 0, readingFrom d1 0 sp1, 5352 + 4880),
        (.convertTemperature 0, { demo [false] with cfg := 0x00000004#32 }, 1448 + 488 + 750000),
        (.getTemperature 0, { ready (resetEvents 24) with addr := d1 }, 960),
        (.setResolution 0,
          { demo (sampleBits (readSpEvents 0 d1 sp1) ++ [false]) with addr := d1, cfg := 0x00000900#32 },
          2 * 5352 + 4880 + 1952)],
      sees (exec x.1 x.2.1) (fun t => busTime t.phy.trace) = some x.2.2) := by decide +kernel

/-- And a search with one address found: its pass, and the call after the last device, which waits no more. -/
theorem witness_SearchDurations :
    sees (exec (.searchRom 0) { demo searchDraws with cfg := 0x00010000#32 }) (fun t => (t.seq, busTime t.phy.trace))
      = some (.idle, 13160)
    ∧ (State.opensWithReset { demo searchDraws with cfg := 0x00010000#32 } .searchRom) = true := by decide +kernel

theorem witness_SequencerRuns : decode (.host 0x00000002#32) = .ok (.destroy 0#24)
    ∧ (∃ t, exec (.destroy 0#24) (demo []) = .next t)
    ∧ (0x00000000#32 &&& 0xFF#32 = 0#32 ∨ 0x0F#32 ≤ 0x00000000#32 &&& 0xFF#32)
    ∧ (0xABCDEFFF#32 &&& 0xFF#32 = 0#32 ∨ 0x0F#32 ≤ 0xABCDEFFF#32 &&& 0xFF#32)
    ∧ (∃ op ps, (atLine .skipRom).seq = .run op (.command .skipRom :: ps) .none)
    ∧ ∃ t, exec WireCmd.skipRom.instr (atLine .skipRom) = .next t :=
  ⟨by decide, ⟨_, rfl⟩, by decide, by decide, ⟨_, _, rfl⟩, _, rfl⟩
theorem witness_WriteAndPoll : ∃ t, (demo []).seq = .idle ∧ decode (.host 0x00000002#32) = .ok (.destroy 0#24)
    ∧ exec (.destroy 0#24) { { demo [] with inputs := [.write 0x000 32 0x02#32, .poll] } with inputs := [] } = .next t
    ∧ t.seq = .idle := ⟨_, rfl, by decide, rfl, rfl⟩
/-- Idle, and in the middle of a search. -/
theorem witness_SequenceSound : (demo []).SequenceSound
    ∧ ({ demo [] with seq := .run 0x05#8 [.positionA 3 2, .searchGot 1] (.bit true) } : State).SequenceSound :=
  ⟨True.intro, rfl⟩
/-- What it shuts out: a line that reads a bit where no bit came. -/
theorem witness_SequenceUnsound (s : State) (h : s.seq = .run 0x05#8 [.positionA 3 2, .searchGot 1] .none) :
    ¬ s.SequenceSound := by
  have hn : linesSound .none [.positionA 3 2, .searchGot 1] = false := by decide
  simp only [State.SequenceSound, h]
  show ¬ (linesSound .none _ = true)
  rw [hn]
  exact Bool.false_ne_true
theorem witness_Invariant : (demo []).Inv ∧ ∃ t, step { demo [] with inputs := [.poll] } = .next t :=
  ⟨by unfold State.Inv; decide, _, step_poll (rest := []) rfl⟩
theorem witness_Reset : ({ demo [] with inputs := [.reset] } : State).inputs = .reset :: [] := rfl
theorem witness_CmdWrite : (demo []).seq = .idle
    ∧ ({ demo [] with inputs := [.write 0x000 32 5#32] } : State).inputs = .write 0x000 32 5#32 :: [] := ⟨rfl, rfl⟩
theorem witness_WriteWhileBusy : ((demo []).start 0x05#8).busy = true
    ∧ ({ (demo []).start 0x05#8 with inputs := [.write 0x008 32 5#32] } : State).inputs = .write 0x008 32 5#32 :: [] := by
  decide
theorem witness_BadAccess : (0x002 % 4 ≠ 0 ∨ 32 ≠ 32) ∧ (0x004 % 4 ≠ 0 ∨ 16 ≠ 32) := by decide
/-- A register of each kind, an offset beyond the table and one of a register that ignores writes. -/
theorem witness_OperandWrites : ∀ o ∈ [0x008, 0x014, 0x018, 0x024, 0x028, 0x02C, 0x004, 0x034, 0x100], o % 4 = 0
    ∧ ({ demo [] with inputs := [.write o 32 1#32] } : State).inputs = .write o 32 1#32 :: [] := by decide
/-- The registers, the offsets around 0x100, and the entries of the list at both its ends. -/
theorem witness_Reads : (∀ o ∈ [0x000, 0x004, 0x030, 0x034, 0x0FC, 0x100, 0x104, 0x118, 0x11C, 0x120], o % 4 = 0
      ∧ ({ demo [] with inputs := [.read o 32] } : State).inputs = .read o 32 :: [])
    ∧ (demo []).addrlist[3]? = some sentinel ∧ 3 < (demo []).params.addrlistDepth := by decide
theorem witness_ReadsWhileBusy : ((demo []).start 0x05#8).seq = .run 0x05#8 [.prologue] .none
    ∧ (0x05#8 : Byte) ≠ 0x0B#8 ∧ (0x01#8 : Byte) ∉ [0x03#8, 0x05#8, 0x06#8, 0x09#8, 0x0C#8, 0x0E#8] := by decide
/-- With no input, with one that starts a command and with one that does not. -/
theorem witness_IdleBlock : (demo []).seq = .idle ∧ (demo []).inputs = []
    ∧ (∀ w, Input.tickByte ≠ .cmd w) ∧ (∃ t, step { demo [] with inputs := [.tickByte] } = .next t)
    ∧ ∃ t, step { demo [] with inputs := [.write 0x000 32 5#32] } = .next t :=
  ⟨rfl, rfl, nofun, ⟨_, rfl⟩, ⟨_, rfl⟩⟩

/-- The answers of a SET_RESOLUTION(11) on d1 and then a GET_RESOLUTION. -/
def resolutionDraws : List Bool :=
  sampleBits (readSpEvents 0 d1 sp1) ++ [false] ++ sampleBits (readSpEvents 0 d1 sp5F)

theorem witness_ResolutionRoundTrip : ∃ s t u : State, s.session = true ∧ ([demoDevice].map Device.rom).Nodup
    ∧ familyClass s.params s.addr[0] = .modern ∧ (∃ d ∈ [demoDevice], d.rom = s.addr ∧ d.legacy = false)
    ∧ (s.addr = Vector.replicate 8 0x00#8 → [demoDevice].length = 1)
    ∧ 9 ≤ (s.cfg.extractLsb' 8 8).toNat ∧ (s.cfg.extractLsb' 8 8).toNat ≤ 12
    ∧ exec (.setResolution 0) s = .next t
    ∧ (t.status = 0x00#8 ∨ ∀ d ∈ [demoDevice], d.rom = s.addr → crc8 (d.sp.toList.take 8) = d.sp[8])
    ∧ exec (.getResolution 0) t = .next u
    ∧ onRefBus [demoDevice] s.phy.trace.length u.phy.trace = true := by
  have h : sees (exec (.setResolution 0) { demo resolutionDraws with addr := d1, cfg := 0x00000B00#32 })
      (fun t => (t.status, (sees (exec (.getResolution 0) t)
        fun u => gives (RefBus.start [demoDevice]) u.phy.trace.reverse))) = some (0x00#8, some true) := by decide +kernel
  obtain ⟨t, ht, hs⟩ := next_of_sees h
  obtain ⟨hs, hu⟩ := Prod.mk.inj hs
  obtain ⟨u, hu, hg⟩ := next_of_sees hu
  exact ⟨_, t, u, rfl, by decide, by decide, ⟨demoDevice, by simp, rfl, rfl⟩, fun _ => rfl, by decide, by decide, ht, .inl hs,
    hu, onRefBus_of_gives hg⟩

end Sys2Proof.Tests
end

section
/-! The rules that keep `State.Inv`: what it reads of a state, and that each line of the sequencer keeps it. -/

namespace Sys2Proof.Machine

/-- The registers that `State.Inv` speaks of beside `SEQ`. -/
def State.held (s : State) : Params × Word × Byte × List Rom × BitVec 4 × Search :=
  (s.params, s.cfg, s.status, s.addrlist, s.phy.bitcnt, s.search)

/-- The part of `State.Inv` that each register meets by itself. -/
structure State.Registers (s : State) : Prop where
  params : s.params.wf = true
  ld : s.search.ld.toNat ≤ 64
  bitcnt : s.phy.bitcnt.toNat ≤ 8
  addrlist : s.addrlist.length = s.params.addrlistDepth
  cfg : s.cfg &&& 0xF00000F8#32 = 0#32
  status : s.status.toNat ≤ 5

theorem State.held_eq_iff {s u : State} : u.held = s.held ↔ u.params = s.params ∧ u.cfg = s.cfg
    ∧ u.status = s.status ∧ u.addrlist = s.addrlist ∧ u.phy.bitcnt = s.phy.bitcnt ∧ u.search = s.search := by
  simp only [State.held, Prod.mk.injEq]

theorem State.inv_iff (s : State) : s.Inv ↔ s.Registers
    ∧ (s.search.ldf = true → s.search.ld = 0#7 ∨ s.seq.points.head? = some .setLdf)
    ∧ s.seq.points.all (Point.inRange s) = true :=
  ⟨fun ⟨hp, hld, hldf, hb, ha, hc, hs, hr⟩ => ⟨⟨hp, hld, hb, ha, hc, hs⟩, hldf, hr⟩,
    fun ⟨⟨hp, hld, hb, ha, hc, hs⟩, hldf, hr⟩ => ⟨hp, hld, hldf, hb, ha, hc, hs, hr⟩⟩

theorem Point.inRange_congr_params_cfg {s t : State} (hp : t.params = s.params) (hc : t.cfg = s.cfg) :
    Point.inRange t = Point.inRange s := funext (Point.inRange_congr hp hc)

theorem State.Registers.of_held {s u : State} (h : s.Registers) (e : u.held = s.held) : u.Registers := by
  obtain ⟨hp, hc, hs, ha, hb, hf⟩ := State.held_eq_iff.mp e
  constructor
  · exact hp ▸ h.params
  · exact hf ▸ h.ld
  · exact hb ▸ h.bitcnt
  · rw [ha, hp]; exact h.addrlist
  · exact hc ▸ h.cfg
  · exact hs ▸ h.status

/-- `State.Inv` reads only the held registers and `SEQ`. -/
theorem State.Inv.of_held {s u : State} (h : s.Inv) (e : u.held = s.held) (hq : u.seq = s.seq) : u.Inv := by
  obtain ⟨hreg, hldf, hrange⟩ := s.inv_iff.mp h
  obtain ⟨hp, hc, -, -, -, hf⟩ := State.held_eq_iff.mp e
  refine u.inv_iff.mpr ⟨hreg.of_held e, ?_, ?_⟩
  · rwa [hf, hq]
  · rwa [hq, Point.inRange_congr_params_cfg hp hc]

/-- `LDF = 1` only with `LD = 0`: so everywhere but between the two writes of step 5 (R178). -/
def State.Settled (s : State) : Prop := s.search.ldf = true → s.search.ld = 0#7

theorem State.Settled.of_held {s u : State} (h : s.Settled) (e : u.held = s.held) : u.Settled := by
  obtain ⟨-, -, -, -, -, hf⟩ := State.held_eq_iff.mp e
  rwa [State.Settled, hf]

/-- In a block that runs nothing, `State.Inv` is the registers' part and `LDF`'s. -/
theorem State.inv_idle {s : State} (hq : s.seq = .idle) : s.Inv ↔ s.Registers ∧ s.Settled := by
  simp [State.inv_iff, hq, Seq.points, State.Settled]

theorem statusCode_le (st : Status) : (statusCode st).toNat ≤ 5 := by cases st <;> decide

theorem State.finish_inv {s : State} (hreg : s.Registers) (hl : s.Settled) (st : Status) : (s.finish st).Inv :=
  (State.inv_idle (s.finish_seq st)).mpr ⟨{ hreg with status := statusCode_le st }, hl⟩

/-- The rule for a line that goes on. -/
theorem State.run_inv {s u : State} {op : Byte} {new rest : List Point} {ret : Val} (hreg : u.Registers)
    (hp : u.params = s.params) (hc : u.cfg = s.cfg) (hl : u.Settled ∨ (new ++ rest).head? = some .setLdf)
    (hnew : new.all (Point.inRange s) = true) (hrest : rest.all (Point.inRange s) = true) :
    ({ u with seq := .run op (new ++ rest) ret } : State).Inv := by
  have hr : Point.inRange { u with seq := .run op (new ++ rest) ret } = Point.inRange s :=
    Point.inRange_congr_params_cfg hp hc
  refine (State.inv_iff _).mpr ⟨{ hreg with }, fun h => hl.imp_left (· h), ?_⟩
  rw [hr, Seq.points, List.all_append, hnew, hrest, Bool.and_self]

/-- Every way a line can end that writes none of the held registers but, at the end of its command, `STATUS`. -/
inductive QuietEnd (s : State) (op : Byte) (rest : List Point) : Host.Outcome State Fault Refusal → Prop where
  | fault (r : Fault) : QuietEnd s op rest (.fault r)
  | refused (r : Refusal) : QuietEnd s op rest (.refused r)
  | done (st : Status) : QuietEnd s op rest (s.done st)
  | goOn {u : State} {new : List Point} {ret : Val} (hu : u.held = s.held)
      (hnew : new.all (Point.inRange s) = true) : QuietEnd s op rest (u.goOn op new rest ret)

theorem QuietEnd.inv {s t : State} {op : Byte} {rest : List Point} {o : Host.Outcome State Fault Refusal}
    (hreg : s.Registers) (hl : s.Settled) (hrest : rest.all (Point.inRange s) = true) (h : QuietEnd s op rest o)
    (e : o = .next t) : t.Inv := by
  cases h with
  | fault r => cases e
  | refused r => cases e
  | done st => cases e; exact s.finish_inv hreg hl st
  | goOn hu hnew =>
    cases e
    obtain ⟨hp, hc, -⟩ := State.held_eq_iff.mp hu
    exact State.run_inv (hreg.of_held hu) hp hc (.inl (hl.of_held hu)) hnew hrest

/-- The lines that write a held register other than `STATUS`. -/
def Point.writesHeld : Point → Bool
  | .writeLoop _ | .readLoop _ | .clearSearch | .setSr _ _ | .setLd _ | .setLdf | .searchStore _ _ => true
  | _ => false

@[simp] theorem actPoints_inRange (s : State) (as : List Act) : (actPoints as).all (Point.inRange s) = true := by
  simp [actPoints, Point.inRange]

theorem bodyLine_quiet (cmd : HostOp) (op : Byte) (rest : List Point) (s : State) :
    QuietEnd s op rest (bodyLine cmd op rest s) := by
  cases cmd with
  | destroy | resetBus | readRom | readPowerSupply | readScratchpad | writeScratchpad | convertTemperature
  | getTemperature => exact .goOn rfl rfl
  | convertDuration => exact .goOn rfl (by split <;> rfl)
  | searchRom =>
    simp only [bodyLine]
    split
    · exact .done _
    · next hcap => exact .goOn rfl (by simp [Point.inRange]; omega)
  | init | getResolution | setResolution | crc8 =>
    simp only [bodyLine]
    split
    · exact .done _
    · exact .goOn rfl rfl

theorem recordZero_le {n lz : Nat} {a c dir : Bool} : recordZero n lz a c dir ≤ max n lz := by
  unfold recordZero
  split
  · exact Nat.le_max_right ..
  · split
    · exact Nat.le_max_right ..
    · exact Nat.le_max_left ..

/-- Every other line leaves the held registers, and the counters of the lines it puts before the rest are in range. -/
theorem Point.run_quiet {p : Point} {op : Byte} {rest : List Point} {ret : Val} {s : State}
    (hw : p.writesHeld = false) (hp : p.inRange s = true) : QuietEnd s op rest (p.run op rest ret s) := by
  cases p with
  | writeLoop | readLoop | clearSearch | setSr | setLd | setLdf | searchStore => cases hw
  | body cmd => exact bodyLine_quiet cmd op rest s
  | finish st => exact .done st
  -- lines that go on in one way
  | sample | presencePad | writeByte | readByte | readFramed | selectTarget | selectDone | powerQuery
  | readSp | readSpCheck | initAvail | initPol | initOe | initSession | initPwr | destroySession | setResult
  | durationRead | resolutionRead | setResolutionModify | crcStart | crcDone => exact .goOn rfl rfl
  | act | setTemp => exact .goOn (by simp [State.held]) rfl
  | resetPresence | writeBit | readBit => exact .goOn rfl (by simp [Point.inRange, Config.nPdpoll, Config.tPdwait])
  -- lines that test
  | findNext | writeSpConfig | convertPower | convertBlocking | resolutionFamily => exact .goOn rfl (by split <;> rfl)
  | selectRom A => exact .goOn rfl (by split <;> simp [Point.inRange])
  | prologue | prologueSession | command | readRomCheck | searchEnd | temperatureFamily | setResolutionRange =>
    simp only [Point.run]
    split <;> constructor <;> rfl
  -- lines that take a result
  | framedData | framedCheck | selectReset | powerSelected | powerBit | readSpSelected | readSpFrame | resultBit
  | readRomReset | readRomStore | powerResult | finishRet | writeSpSelected | convertSelected | setResolutionSelected
  | findNextReset =>
    simp only [Point.run]
    split <;> constructor <;> rfl
  | durationGot =>
    simp only [Point.run]
    split
    · exact .goOn rfl (by split <;> rfl)
    · exact .fault _
  | temperatureGot | resolutionGot | setResolutionGot =>
    simp only [Point.run]
    split
    · split <;> constructor <;> rfl
    · exact .fault _
  -- lines with a loop's counter
  | framedLoop m acc => cases m <;> exact .goOn rfl rfl
  | crcLoop k => cases k <;> exact .goOn rfl rfl
  | presence k t =>
    simp only [Point.inRange, beq_iff_eq] at hp
    cases k <;> refine .goOn rfl ?_ <;> simp [Point.inRange] <;> omega
  | presenceGot k t =>
    simp only [Point.inRange, beq_iff_eq] at hp
    simp only [Point.run]
    split
    · exact .goOn rfl (by simp [Point.inRange]; omega)
    · exact .goOn rfl (by simp [Point.inRange, Config.tPdpoll]; omega)
    · exact .fault _
  | writeShift k =>
    simp only [Point.inRange, decide_eq_true_eq] at hp
    exact .goOn rfl (by simp [Point.inRange]; omega)
  | readShift k =>
    simp only [Point.inRange, decide_eq_true_eq] at hp
    simp only [Point.run]
    split
    · exact .goOn rfl (by simp [Point.inRange]; omega)
    · exact .fault _
  | position k lz =>
    simp only [Point.inRange, Bool.and_eq_true, decide_eq_true_eq] at hp
    cases k <;> refine .goOn rfl ?_ <;> simp [Point.inRange] <;> omega
  | positionA k lz =>
    simp only [Point.run]
    split
    · exact .goOn rfl (by simpa [Point.inRange] using hp)
    · exact .fault _
  | positionC k lz a =>
    simp only [Point.run]
    split
    · exact .goOn rfl (by split <;> simp_all [Point.inRange])
    · exact .fault _
  | direction k lz a c =>
    have hlz := recordZero_le (n := 64 - k) (lz := lz) (a := a) (c := c) (dir := s.search.direction (64 - k) a c)
    simp only [Point.inRange, Bool.and_eq_true, decide_eq_true_eq] at hp
    exact .goOn rfl (by simp [Point.inRange]; omega)
  | searchLoop count => exact .goOn rfl (by simpa [Point.inRange] using hp)
  | searchGot count =>
    simp only [Point.run]
    split
    · exact .goOn rfl (by simpa [Point.inRange] using hp)
    · exact .goOn rfl (by simpa [Point.inRange] using hp)
    · exact .fault _
  | searchCrc count rom => exact .goOn rfl (by split <;> simpa [Point.inRange] using hp)
  | searchRoom count rom =>
    simp only [Point.inRange, Bool.and_eq_true, decide_eq_true_eq] at hp
    refine .goOn rfl ?_
    split
    · rfl
    · simp [Point.inRange]; omega

/-- The lines that write a held register write a value in its range; only `setLd` may leave `LDF = 1` with another `LD`,
and it puts `setLdf` next (R178). -/
theorem Point.run_inv_of_writesHeld {p : Point} {op : Byte} {rest : List Point} {ret : Val} {s t : State}
    (hw : p.writesHeld = true) (hreg : s.Registers) (hl : p ≠ .setLdf → s.Settled) (hp : p.inRange s = true)
    (hrest : rest.all (Point.inRange s) = true) (e : p.run op rest ret s = .next t) : t.Inv := by
  cases p with
  | writeLoop k | readLoop k =>
    have hset : s.Settled := hl nofun
    simp only [Point.inRange, decide_eq_true_eq] at hp
    cases k <;> cases e
    · exact State.run_inv { hreg with bitcnt := by simp } rfl rfl (.inl hset) rfl hrest
    · exact State.run_inv { hreg with bitcnt := by simp; omega } rfl rfl (.inl hset)
        (by simp [Point.inRange]; omega) hrest
  | clearSearch =>
    cases e
    exact State.run_inv { hreg with ld := by simp } rfl rfl (.inl nofun) rfl hrest
  | setSr n dir =>
    have hset : s.Settled := hl nofun
    cases e
    exact State.run_inv { hreg with } rfl rfl (.inl hset) rfl hrest
  | setLd lz =>
    simp only [Point.inRange, decide_eq_true_eq] at hp
    cases e
    exact State.run_inv { hreg with ld := by simp; omega } rfl rfl (.inr rfl) rfl hrest
  | setLdf =>
    cases e
    exact State.run_inv { hreg with } rfl rfl (.inl (by simp [State.Settled])) rfl hrest
  | searchStore count rom =>
    have hset : s.Settled := hl nofun
    simp only [Point.inRange, Bool.and_eq_true, decide_eq_true_eq] at hp
    cases e
    exact State.run_inv (s := s) { hreg with addrlist := by simpa using hreg.addrlist } rfl rfl (.inl hset)
      (by simp [Point.inRange]; omega) hrest
  | _ => cases hw

theorem State.coreStep_inv {s t : State} (h : s.Inv) (e : coreStep s = .next t) : t.Inv := by
  obtain ⟨hreg, hldf, hrange⟩ := s.inv_iff.mp h
  unfold coreStep at e
  split at e
  · cases e; exact h
  · next op p rest ret hq =>
    simp only [hq, Seq.points, List.all_cons, Bool.and_eq_true, List.head?_cons, Option.some.injEq] at hldf hrange
    obtain ⟨hp, hrest⟩ := hrange
    have hl : p ≠ .setLdf → s.Settled := fun hne h => (hldf h).resolve_right hne
    cases hw : p.writesHeld with
    | true => exact Point.run_inv_of_writesHeld hw hreg hl hp hrest e
    | false => exact (Point.run_quiet hw hp).inv hreg (hl (by rintro rfl; cases hw)) hrest e
  · cases e

theorem State.coreRun_inv {n : Nat} {s t : State} (h : s.Inv) (e : coreRun n s = .next t) : t.Inv := by
  induction n generalizing s with
  | zero => cases e; exact h
  | succ n ih =>
    rw [coreRun] at e
    split at e
    · next u hu => exact ih (State.coreStep_inv h hu) e
    · cases e
    · cases e

/-- What the lines of a command come to meets the invariant. -/
theorem State.Comes.inv {s t : State} {op : Byte} {ps : List Point} {ret : Val} (h : s.Comes op ps ret t)
    (hi : ({ s with seq := .run op ps ret } : State).Inv) : t.Inv := by
  obtain ⟨n, hn⟩ := h
  exact State.coreRun_inv hi hn

/-- A started command meets it: the prologue has no counter. -/
theorem State.start_inv {s : State} (hreg : s.Registers) (hl : s.Settled) (op : Byte) : (s.start op).Inv :=
  State.run_inv (new := [.prologue]) (rest := []) hreg rfl rfl (.inl hl) rfl rfl

end Sys2Proof.Machine
end

section
/-! Every host command, and every wire command row at its line, is a run of the sequencer's lines (R34, R63). -/

namespace Sys2Proof.Machine

variable {s t : State}

/-- A line that leaves every register as it is and only puts new lines before those still to run. -/
theorem State.Comes.call {op : Byte} {p : Point} {rest : List Point} {ret ret' : Val} (new : List Point)
    (hp : p.run op rest ret { s with seq := .run op (p :: rest) ret } = s.goOn op new rest ret')
    (h : s.Comes op (new ++ rest) ret' t) : s.Comes op (p :: rest) ret t := .step h hp

/-- The same, where a test has chosen the new lines. -/
theorem State.Comes.branch {op : Byte} {p : Point} {new new' rest : List Point} {ret ret' : Val}
    (hn : new = new')
    (hp : p.run op rest ret { s with seq := .run op (p :: rest) ret } = s.goOn op new rest ret')
    (h : s.Comes op (new' ++ rest) ret' t) : s.Comes op (p :: rest) ret t := .call new' (hn ▸ hp) h

theorem Phy.acts_append (p : Phy) (as bs : List Act) : p.acts (as ++ bs) = (p.acts as).acts bs := List.foldl_append

theorem Phy.writeBytes_append (p : Phy) (as bs : List Byte) :
    p.writeBytes (as ++ bs) = (p.writeBytes as).writeBytes bs := List.foldl_append

/-- `ReadSp` writes only the bus side and `SPBUF` (R230). -/
theorem State.readSp_frame (s : State) : ∃ st q sp, s.readSp = (st, { s with phy := q, spbuf := sp }) := by
  rcases s.readSp_outcome with ⟨c, sh, n, -, e⟩ | ⟨k, d, sh, n, -, -, e⟩
  · exact ⟨_, _, s.spbuf, e⟩
  · exact ⟨_, _, d, e⟩

@[simp] theorem State.writeTemp_family (s : State) : s.writeTemp.family = s.family := by
  simp [State.family]

theorem State.writeTemp_withSeq (s : State) (q : Seq) :
    ({ s with seq := q } : State).writeTemp = { s.writeTemp with seq := q } := by
  unfold State.writeTemp State.family
  dsimp only
  split
  · split <;> rfl
  · rfl

theorem comes_setTemp {op : Byte} {rest : List Point} {ret : Val} (h : s.writeTemp.Comes op rest .none t) :
    s.Comes op (.setTemp :: rest) ret t := by
  refine .step (u := s.writeTemp) (new := []) h ?_
  simp only [Point.run, State.writeTemp_withSeq]
  rfl

/-- The loop of CRC8 with k bytes left (R151, R156). -/
theorem comes_crcLoop {op : Byte} {rest : List Point} {ret : Val} (k : Nat) (hk : k ≤ s.len) (hlen : s.len ≤ 9)
    (h : (s.withPhy { s.phy with
        crc := ((s.spbuf.toList.take s.len).drop (s.len - k)).foldl (fun c b => crcTable (c ^^^ b)) s.phy.crc
      }).Comes op (.crcDone :: rest) .none t) :
    s.Comes op (.crcLoop k :: rest) ret t := by
  induction k generalizing s ret with
  | zero =>
    rw [Nat.sub_zero, List.drop_of_length_le (List.length_take_le ..)] at h
    exact .call [.crcDone] rfl h
  | succ k ih =>
    have hi : s.len - (k + 1) < (s.spbuf.toList.take s.len).length := by simp; omega
    rw [List.drop_eq_getElem_cons hi, List.foldl_cons, List.getElem_take,
      show s.len - (k + 1) + 1 = s.len - k by omega] at h
    refine .step (u := s.withPhy (s.phy.crcByte (s.spbuf.toList.getD (s.len - (k + 1)) 0#8))) (new := [.crcLoop k])
      (ih (Nat.le_of_succ_le hk) hlen ?_) rfl
    rw [List.getD_eq_getElem _ _ (by simp; omega)]
    exact h

theorem execInit_comes (e : execInit s = .next t) : s.Comes (HostOp.opcode .init) [.prologue] .none t := by
  cases e
  refine comes_prologue (cmd := .init) rfl (by simp) ?_
  split
  · next hs => exact .done (u := s) (if_pos hs)
  · next hs =>
    refine .call _ (if_neg hs) ?_
    refine .step (u := s.withPhy { s.phy with spuAvail := s.initSpu }) (new := []) ?_ rfl
    refine .step (u := s.withPhy { s.phy with spuAvail := s.initSpu, spuPol := s.initPol }) (new := []) ?_ rfl
    refine .step (u := s.withPhy (Phy.act { s.phy with spuAvail := s.initSpu, spuPol := s.initPol } .release))
      (new := []) ?_ rfl
    refine .step (u := s.withPhy { Phy.act { s.phy with spuAvail := s.initSpu, spuPol := s.initPol } .release with
      spuOe := s.initSpu }) (new := []) ?_ rfl
    refine .step (u := s.withPhy s.initSetup.phy) (new := []) ?_ rfl
    refine .step (u := { s.withPhy s.initSetup.phy with session := true }) (new := []) ?_ rfl
    refine .step (u := s.initSetup) (new := []) (comes_query ?_) rfl
    exact comes_finish _

theorem execDestroy_comes (e : execDestroy s = .next t) : s.Comes (HostOp.opcode .destroy) [.prologue] .none t := by
  cases e
  refine comes_session (cmd := .destroy) rfl nofun nofun fun _ => .call _ rfl ?_
  refine .step (u := s.withPhy (s.phy.act .release)) (new := []) ?_ rfl
  exact .step (u := { s.withPhy (s.phy.act .release) with session := false }) (new := []) (comes_finish _) rfl

theorem execResetBus_comes (e : execResetBus s = .next t) : s.Comes (HostOp.opcode .resetBus) [.prologue] .none t := by
  cases e
  refine comes_session (cmd := .resetBus) rfl nofun nofun fun _ => .call _ rfl (comes_reset ?_)
  rcases s.phy.resetPresence with ⟨b, q⟩
  exact .step (u := { s.withPhy q with result := zextBit b }) (new := []) (comes_finish _) rfl

theorem execReadRom_comes (e : execReadRom s = .next t) : s.Comes (HostOp.opcode .readRom) [.prologue] .none t := by
  cases e
  refine comes_session (cmd := .readRom) rfl nofun nofun fun _ => .call _ rfl (comes_reset ?_)
  rcases s.phy.resetPresence with ⟨_ | _, q⟩
  · exact .done (u := s.withPhy q) rfl
  · refine .call _ rfl (comes_command (by decide) ?_)
    obtain ⟨d, ok, r, hx⟩ : ∃ d ok r, (q.sendWire .readRom).readFramed 7 = (d, ok, r) := ⟨_, _, _, rfl⟩
    simp only [hx]
    refine comes_readFramed 7 hx ?_
    refine .step (u := { s.withPhy r with romid := romOfBytes d }) (new := [.readRomCheck ok]) ?_ rfl
    cases ok
    · exact .done (u := { s.withPhy r with romid := romOfBytes d }) rfl
    · exact .call [.finish .ok] rfl (comes_finish _)

theorem execSearchRom_comes (e : execSearchRom s = .next t) :
    s.Comes (HostOp.opcode .searchRom) [.prologue] .none t := by
  cases e
  refine comes_session (cmd := .searchRom) rfl nofun nofun fun _ => ?_
  have hpos : passBound ≠ 0 := Nat.succ_ne_zero _
  generalize passBound = fuel at hpos
  by_cases hcap : s.params.addrlistDepth < s.cap
  · rw [if_pos hcap]
    exact .done (u := s) (if_pos hcap)
  · rw [if_neg hcap]
    exact .call _ (if_neg hcap) (comes_clearSearch (comes_search fuel 0 (absurd · hpos)))

theorem execReadPowerSupply_comes (e : execReadPowerSupply s = .next t) :
    s.Comes (HostOp.opcode .readPowerSupply) [.prologue] .none t := by
  cases e
  refine comes_session (cmd := .readPowerSupply) rfl nofun nofun fun _ => .call _ rfl (comes_query ?_)
  rcases s.powerQuery s.addr with ⟨_ | b, u⟩
  · exact .done (u := u) rfl
  · exact .call _ rfl (comes_setResult (comes_finish _))

theorem execReadScratchpad_comes (e : execReadScratchpad s = .next t) :
    s.Comes (HostOp.opcode .readScratchpad) [.prologue] .none t := by
  cases e
  refine comes_session (cmd := .readScratchpad) rfl nofun nofun fun _ => .call _ rfl (comes_readSp ?_)
  rcases s.readSp with ⟨st, u⟩
  exact .done (u := u) rfl

theorem execWriteScratchpad_comes (e : execWriteScratchpad s = .next t) :
    s.Comes (HostOp.opcode .writeScratchpad) [.prologue] .none t := by
  cases e
  refine comes_session (cmd := .writeScratchpad) rfl nofun nofun fun _ => .call _ rfl (comes_select ?_)
  rcases s.phy.selectTarget s.addr with ⟨_ | _, q⟩
  · exact .done (u := s.withPhy q) rfl
  · have hconfig : (if s.family = .modern then [.writeByte s.spbuf[4], .finish .ok] else [.finish .ok])
        = (if s.family = .modern then [s.spbuf[4]] else []).map Point.writeByte ++ [.finish .ok] := by split <;> rfl
    simp only [State.spOperands, Phy.writeBytes_append]
    refine .call _ rfl (comes_command (by decide) (comes_writeBytes (bs := [s.spbuf[2], s.spbuf[3]]) ?_))
    refine .branch hconfig rfl ?_
    rw [List.append_assoc]
    exact comes_writeBytes (comes_finish _)

theorem execConvertDuration_comes (e : execConvertDuration s = .next t) :
    s.Comes (HostOp.opcode .convertDuration) [.prologue] .none t := by
  cases e
  refine comes_session (cmd := .convertDuration) rfl nofun nofun fun _ => ?_
  by_cases hf : s.family = .modern
  · rw [if_pos hf]
    refine .branch (if_pos hf) rfl (comes_readSp ?_)
    rcases s.readSp with ⟨st, u⟩
    dsimp only
    by_cases hst : st = .ok
    · rw [if_pos hst]
      exact .branch (if_pos hst) rfl (.call _ rfl (comes_setResult (comes_finish _)))
    · rw [if_neg hst]
      exact .branch (if_neg hst) rfl (comes_setResult (comes_finish _))
  · rw [if_neg hf]
    exact .branch (if_neg hf) rfl (comes_setResult (comes_finish _))

theorem execConvertTemperature_comes (e : execConvertTemperature s = .next t) :
    s.Comes (HostOp.opcode .convertTemperature) [.prologue] .none t := by
  cases e
  refine comes_session (cmd := .convertTemperature) rfl nofun nofun fun _ => .call _ rfl (comes_select ?_)
  rcases s.phy.selectTarget s.addr with ⟨_ | _, q⟩
  · exact .done (u := s.withPhy q) rfl
  · have hpower : (if s.pwr then [.convertBlocking] else [.act .spuOn, .convertBlocking])
        = actPoints (if s.pwr then [] else [.spuOn]) ++ [.convertBlocking] := by cases s.pwr <;> rfl
    have hwait : (if s.blocking then [.act (.waitMs Config.tConv), .act .spuOff, .finish .ok] else [.finish .ok])
        = actPoints (if s.blocking then [.waitMs Config.tConv, .spuOff] else []) ++ [.finish .ok] := by
      cases s.blocking <;> rfl
    simp only [State.convertActs, Phy.acts_append]
    refine .call _ rfl (comes_command (by decide) (.branch hpower rfl ?_))
    rw [List.append_assoc]
    refine comes_acts (.branch hwait rfl ?_)
    rw [List.append_assoc]
    exact comes_acts (comes_finish _)

theorem execGetTemperature_comes (e : execGetTemperature s = .next t) :
    s.Comes (HostOp.opcode .getTemperature) [.prologue] .none t := by
  cases e
  refine comes_session (cmd := .getTemperature) rfl nofun nofun fun _ => .call _ rfl (comes_readSp ?_)
  obtain ⟨st, q, sp, hx⟩ := s.readSp_frame
  rw [hx]
  dsimp only
  by_cases hst : st = .ok
  · rw [if_pos hst]
    refine .call _ (if_pos hst) (comes_setTemp ?_)
    have hfam := ({ s with phy := q, spbuf := sp } : State).writeTemp_family
    generalize ({ s with phy := q, spbuf := sp } : State).writeTemp = u at hfam
    by_cases hf : s.family = .unknown
    · rw [if_pos hf]
      exact .done (u := u) (if_pos (hfam.trans hf))
    · rw [if_neg hf]
      exact .call [.finish .ok] (if_neg fun h => hf (hfam.symm.trans h)) (comes_finish _)
  · rw [if_neg hst]
    exact .done (u := { s with phy := q, spbuf := sp }) (if_neg hst)

theorem execGetResolution_comes (e : execGetResolution s = .next t) :
    s.Comes (HostOp.opcode .getResolution) [.prologue] .none t := by
  cases e
  refine comes_session (cmd := .getResolution) rfl nofun nofun fun _ => ?_
  cases hf : s.family with
  | unknown => exact .done (u := s) (if_pos hf)
  | legacy =>
    have hne : s.family ≠ .unknown := hf ▸ nofun
    refine .call [.resolutionFamily] (if_neg hne) ?_
    exact .branch (if_pos hf) rfl (comes_setResult (comes_finish _))
  | modern =>
    have hne : s.family ≠ .unknown ∧ s.family ≠ .legacy := hf ▸ ⟨nofun, nofun⟩
    refine .call [.resolutionFamily] (if_neg hne.1) ?_
    refine .branch (if_neg hne.2) rfl (comes_readSp ?_)
    rcases s.readSp with ⟨st, u⟩
    dsimp only
    by_cases hst : st = .ok
    · rw [if_pos hst]
      exact .call _ (if_pos hst) (.call _ rfl (comes_setResult (comes_finish _)))
    · rw [if_neg hst]
      exact .done (u := u) (if_neg hst)

theorem execSetResolution_comes (e : execSetResolution s = .next t) :
    s.Comes (HostOp.opcode .setResolution) [.prologue] .none t := by
  cases e
  refine comes_session (cmd := .setResolution) rfl nofun nofun fun _ => ?_
  by_cases hf : s.family = .modern
  · rw [if_neg (not_not.mpr hf)]
    refine .call _ (if_neg (not_not.mpr hf)) ?_
    by_cases hres : s.res < 9 ∨ 12 < s.res
    · rw [if_pos hres]
      exact .done (u := s) (if_pos hres)
    · rw [if_neg hres]
      refine .call _ (if_neg hres) (comes_readSp ?_)
      obtain ⟨st, q, sp, hx⟩ := s.readSp_frame
      rw [hx]
      dsimp only
      by_cases hst : st = .ok
      · rw [if_neg (not_not.mpr hst)]
        refine .call _ (if_pos hst) ?_
        refine .step (u := { s with phy := q, spbuf := sp.set 4 (withResolution sp[4] s.res) })
          (new := [.selectTarget s.addr, .setResolutionSelected]) (comes_select ?_) rfl
        dsimp only
        rcases q.selectTarget s.addr with ⟨_ | _, q'⟩
        · exact .done (u := { s with phy := q', spbuf := sp.set 4 (withResolution sp[4] s.res) }) rfl
        · refine .call _ rfl (comes_command (by decide) ?_)
          exact comes_writeByte (comes_writeByte (comes_writeByte (comes_finish _)))
      · rw [if_pos hst]
        exact .done (u := { s with phy := q, spbuf := sp }) (if_neg hst)
  · rw [if_pos hf]
    exact .done (u := s) (if_pos hf)

theorem execCrc8_comes (e : execCrc8 s = .next t) : s.Comes (HostOp.opcode .crc8) [.prologue] .none t := by
  cases e
  refine comes_prologue (cmd := .crc8) rfl (by simp) ?_
  split
  · next hlen => exact .done (u := s) (if_pos hlen)
  · next hlen =>
    refine .call _ (if_neg hlen) ?_
    refine .step (u := s.withPhy { s.phy with crc := 0x00#8 }) (new := [.crcLoop s.len]) (rest := [])
      (comes_crcLoop s.len (Nat.le_refl _) (Nat.le_of_not_lt hlen) ?_) rfl
    rw [show (s.withPhy { s.phy with crc := 0x00#8 }).len - s.len = 0 from Nat.sub_self _, List.drop_zero]
    exact .step (u := { s.withPhy { s.phy with crc := crc8 (s.spbuf.toList.take s.len) } with
      result := zextByte (crc8 (s.spbuf.toList.take s.len)) }) (new := [.finish .ok]) (comes_finish _) rfl

/-- The lines of a host command come to what its meaning gives (R34, R63). -/
theorem exec_comes {cmd : HostOp} {x : BitVec 24} {s t : State} (e : exec (cmd.instr x) s = .next t) :
    s.Comes cmd.opcode [.prologue] .none t := by
  cases cmd with
  | init => exact execInit_comes e
  | destroy => exact execDestroy_comes e
  | resetBus => exact execResetBus_comes e
  | readRom => exact execReadRom_comes e
  | searchRom => exact execSearchRom_comes e
  | readPowerSupply => exact execReadPowerSupply_comes e
  | readScratchpad => exact execReadScratchpad_comes e
  | writeScratchpad => exact execWriteScratchpad_comes e
  | convertDuration => exact execConvertDuration_comes e
  | convertTemperature => exact execConvertTemperature_comes e
  | getTemperature => exact execGetTemperature_comes e
  | getResolution => exact execGetResolution_comes e
  | setResolution => exact execSetResolution_comes e
  | crc8 => exact execCrc8_comes e

theorem exec_wire {c : WireCmd} {s t : State} (e : exec c.instr s = .next t) :
    c ≠ .alarmSearch ∧ t = s.sendCommand c := by
  cases c <;> cases e <;> exact ⟨nofun, rfl⟩

/-- A wire command row, at its line, is a run of lines too (R98, R202). -/
theorem exec_wire_comes {c : WireCmd} {s t : State} {op : Byte} {ps : List Point} {ret : Val}
    (hq : s.seq = .run op (.command c :: ps) ret) (e : exec c.instr s = .next t) :
    s.Comes op (.command c :: ps) ret t := by
  obtain ⟨hc, rfl⟩ := exec_wire e
  refine comes_command hc ⟨0, ?_⟩
  simp only [coreRun, State.sendCommand, hq, if_true, State.withPhy]

end Sys2Proof.Machine
end

section
/-! Every step keeps `State.Inv`: the HOST's accesses, RESET, lines, and commands as runs of lines. -/

namespace Sys2Proof.Machine

theorem State.hardReset_inv {s : State} (hw : s.params.wf = true) : s.hardReset.Inv :=
  (State.inv_idle s.hardReset_seq).mpr
    ⟨{ params := hw, ld := Nat.zero_le _, bitcnt := Nat.zero_le _, addrlist := List.length_replicate ..,
       cfg := BitVec.zero_and, status := Nat.zero_le _ }, nofun⟩

theorem State.writeReg_inv {s : State} (hq : s.seq = .idle) (h : s.Inv) (r : Reg) (w : Word) :
    (s.writeReg r w).Inv := by
  obtain ⟨hreg, hset⟩ := (State.inv_idle hq).mp h
  cases r with
  | cmd => exact State.start_inv hreg hset _
  | cfg =>
    have hmask : (w &&& cfgMask) &&& 0xF00000F8#32 = 0#32 := by
      rw [BitVec.and_assoc, show cfgMask &&& 0xF00000F8#32 = 0#32 by decide, BitVec.and_zero]
    exact (State.inv_idle (s := { s with cfg := w &&& cfgMask }) hq).mpr ⟨{ hreg with cfg := hmask }, hset⟩
  | addr0 | addr1 | spbuf0 | spbuf1 | spbuf2 => exact h.of_held rfl rfl
  | stat | result | temp | romid0 | romid1 | id | addrlistLo | addrlistHi | reserved => exact h

theorem State.readReg_inv {s : State} (h : s.Inv) (r : Reg) : (s.readReg r).Inv := by
  unfold State.readReg
  split <;> exact h.of_held rfl rfl

theorem State.hostWrite_inv {s t : State} {o wd : Nat} {w : Word} (h : s.Inv) (e : s.hostWrite o wd w = .next t) :
    t.Inv := by
  unfold State.hostWrite at e
  split at e <;> cases e
  split
  · exact h
  · next hb => exact State.writeReg_inv (State.idle_of_busy_false (Bool.eq_false_iff.mpr hb)) h _ _

theorem State.hostRead_inv {s t : State} {o wd : Nat} (h : s.Inv) (e : s.hostRead o wd = .next t) : t.Inv := by
  unfold State.hostRead at e
  split at e <;> cases e
  exact State.readReg_inv h _

theorem State.poll_inv {s t : State} (h : s.Inv) (e : s.poll = .next t) : t.Inv := by
  unfold State.poll at e
  split at e
  · exact State.coreStep_inv (s := { s with inputs := .poll :: s.inputs }) (h.of_held rfl rfl) e
  · cases e
    exact State.readReg_inv h _

/-- A command taken as one step: its lines, run from the `CMD` write, keep the invariant. -/
theorem step_cmd_inv {s t : State} {w : Word} {rest : List Input} (hq : s.seq = .idle) (h : s.Inv)
    (hin : s.inputs = .cmd w :: rest) (e : step s = .next t) : t.Inv := by
  obtain ⟨hreg, hset⟩ := (State.inv_idle (s := { s with inputs := rest }) hq).mp (h.of_held rfl rfl)
  rw [step_cmd hq hin, decode] at e
  cases hop : decodeOp (cmdOp w) with
  | none =>
    simp only [hop] at e
    cases e
    exact State.finish_inv hreg hset _
  | some cmd =>
    simp only [hop] at e
    exact (exec_comes e).inv (State.start_inv hreg hset _)

theorem Seq.nextCommand_some {q : Seq} {c : WireCmd} (h : q.nextCommand = some c) :
    ∃ op ps ret, q = .run op (.command c :: ps) ret := by
  unfold Seq.nextCommand at h
  split at h <;> cases h
  exact ⟨_, _, _, rfl⟩

theorem step_tickByte_inv {s t : State} {rest : List Input} (h : s.Inv) (hin : s.inputs = .tickByte :: rest)
    (e : step s = .next t) : t.Inv := by
  have h' : ({ s with inputs := rest } : State).Inv := h.of_held rfl rfl
  cases hc : s.seq.nextCommand with
  | none =>
    rw [step_tickByte_line hc hin] at e
    exact State.coreStep_inv h' e
  | some c =>
    obtain ⟨op, ps, ret, hq⟩ := Seq.nextCommand_some hc
    rw [step_tickByte hq hin] at e
    have hi : ({ s with inputs := rest, seq := .run op (.command c :: ps) ret } : State).Inv := by rw [← hq]; exact h'
    exact (exec_wire_comes (s := { s with inputs := rest }) hq e).inv hi

theorem step_inv {s t : State} (h : s.Inv) (e : step s = .next t) : t.Inv := by
  have h' (rest : List Input) : ({ s with inputs := rest } : State).Inv := h.of_held rfl rfl
  cases hin : s.inputs with
  | nil => exact State.coreStep_inv h (step_nothing hin ▸ e)
  | cons i rest =>
    cases i with
    | write o wd w => exact State.hostWrite_inv (h' rest) (step_write hin ▸ e)
    | read o wd => exact State.hostRead_inv (h' rest) (step_read hin ▸ e)
    | poll => exact State.poll_inv (h' rest) (step_poll hin ▸ e)
    | tick => exact State.coreStep_inv (h' rest) (step_tick hin ▸ e)
    | tickByte => exact step_tickByte_inv h hin e
    | cmd w =>
      cases hb : s.busy with
      | true => exact State.coreStep_inv h (step_waiting hb hin ▸ e)
      | false => exact step_cmd_inv (State.idle_of_busy_false hb) h hin e
    | reset =>
      rw [step_reset hin] at e
      cases e
      exact State.hardReset_inv (s.inv_iff.mp h).1.params

end Sys2Proof.Machine
end

/-- Settles O49: each line of the sequencer keeps the invariant; a command taken whole is a run of lines, so it keeps it
too; and the HOST's accesses and RESET leave each register within its range. -/
theorem everyStepKeepsTheInvariant : Obligations.EveryStepKeepsTheInvariant :=
  fun _ _ h e => Sys2Proof.Machine.step_inv h e

section
/-! Every line of the sequencer leaves lines that run to a `finish`, and so does every step (R34, R122). -/

namespace Sys2Proof.Machine

/-- What NoRunBreaksTheSequence asks of a step's outcome: no fault, and a next state whose sequence is sound. -/
def SoundOutcome : Host.Outcome State Fault Refusal → Prop
  | .next t => t.SequenceSound
  | .fault _ => False
  | .refused _ => True

theorem soundOutcome_iff (o : Host.Outcome State Fault Refusal) :
    SoundOutcome o ↔ (∀ r : Fault, o ≠ .fault r) ∧ ∀ t : State, o = .next t → t.SequenceSound := by
  cases o with
  | next t => simp [SoundOutcome]
  | fault r => exact ⟨False.elim, fun h => h.1 r rfl⟩
  | refused r => simp [SoundOutcome]

theorem SoundOutcome.of_no_fault {o : Host.Outcome State Fault Refusal} (hf : ∀ r : Fault, o ≠ .fault r)
    (h : ∀ t : State, o = .next t → t.SequenceSound) : SoundOutcome o := (soundOutcome_iff o).mpr ⟨hf, h⟩

theorem State.sound_of_idle {s : State} (h : s.seq = .idle) : s.SequenceSound := by
  rw [State.SequenceSound, h]
  trivial

theorem State.sound_congr {s t : State} (h : t.seq = s.seq) : t.SequenceSound ↔ s.SequenceSound := by
  rw [State.SequenceSound, State.SequenceSound, h]

theorem State.sound_run {s : State} {op : Byte} {ps : List Point} {ret : Val} (h : s.seq = .run op ps ret) :
    s.SequenceSound ↔ linesSound ret.kind ps = true := by
  rw [State.SequenceSound, h]

theorem State.hardReset_sound (s : State) : s.hardReset.SequenceSound := State.sound_of_idle s.hardReset_seq

theorem State.start_sound (s : State) (op : Byte) : (s.start op).SequenceSound := (State.sound_run rfl).mpr rfl

theorem State.goOn_sound {s : State} {op : Byte} {new rest : List Point} {ret : Val}
    (h : linesSound ret.kind (new ++ rest) = true) : SoundOutcome (s.goOn op new rest ret) := h

theorem State.done_sound (s : State) (st : Status) : SoundOutcome (s.done st) := trivial

/-- A line that takes a result stands only where a result of its kind does. -/
theorem linesSound_takes {k need : Kind} {p : Point} {ps : List Point} (h : linesSound k (p :: ps) = true)
    (hp : p.takes = some need) : (need == k) = true := by
  rw [linesSound_cons, hp, Bool.and_eq_true] at h
  exact h.1

/-- The lines after it find the kind of result that it leaves. -/
theorem linesSound_leaves {k k' : Kind} {p : Point} {ps : List Point} (h : linesSound k (p :: ps) = true)
    (hp : p.leaves k = some k') : linesSound k' ps = true := by
  rw [linesSound_cons, hp, Bool.and_eq_true] at h
  exact h.2

/-- A command's own first line puts lines that run to a `finish` before the rest, whatever the rest is. -/
theorem bodyLine_sound (cmd : HostOp) (op : Byte) (rest : List Point) (s : State) :
    SoundOutcome (bodyLine cmd op rest s) := by
  cases cmd with
  | destroy | resetBus | readRom | readPowerSupply | readScratchpad | writeScratchpad | convertTemperature
  | getTemperature => exact State.goOn_sound rfl
  | convertDuration => exact State.goOn_sound (by split <;> rfl)
  | init | searchRom | getResolution | setResolution | crc8 =>
    simp only [bodyLine]
    split
    · exact State.done_sound ..
    · exact State.goOn_sound rfl

/-- A line of a sound list does not fault, and the list it leaves is sound again. -/
theorem Point.run_sound {p : Point} {op : Byte} {rest : List Point} {ret : Val} (s : State)
    (h : linesSound ret.kind (p :: rest) = true) : SoundOutcome (p.run op rest ret s) := by
  cases p with
  | body cmd => exact bodyLine_sound ..
  | finish st => exact State.done_sound ..
  -- lines that go on in one way, to lines that leave the same kind of result
  | act | sample | resetPresence | presencePad | readBit | writeByte | writeShift | readByte | readFramed | clearSearch
  | direction | setSr | setLd | setLdf | selectTarget | selectDone | powerQuery | readSp | readSpCheck | initAvail
  | initPol | initOe | initSession | initPwr | destroySession | setResult | setTemp => exact State.goOn_sound h
  | presence k _ | writeLoop k | readLoop k | framedLoop k _ | position k _ => cases k <;> exact State.goOn_sound h
  | writeBit b => exact State.goOn_sound ((linesSound_acts ..).trans h)
  | findNext => exact State.goOn_sound (by split <;> exact h)
  | selectRom A =>
    refine State.goOn_sound ?_
    split
    · exact h
    · rw [List.cons_append, List.append_assoc]
      exact linesSound_writes _ (.selectDone :: rest) h _ (.inr rfl)
  -- lines that go on to a `finish`
  | searchLoop | searchStore | durationRead | resolutionRead | setResolutionModify | crcStart | crcDone =>
    exact State.goOn_sound rfl
  | crcLoop k => cases k <;> exact State.goOn_sound rfl
  | searchCrc | searchRoom | writeSpConfig | convertPower | convertBlocking | resolutionFamily =>
    exact State.goOn_sound (by split <;> rfl)
  | prologue | prologueSession | searchEnd | temperatureFamily | setResolutionRange =>
    simp only [Point.run]
    split
    · exact State.done_sound ..
    · exact State.goOn_sound rfl
  | readRomCheck =>
    simp only [Point.run]
    split
    · exact State.goOn_sound rfl
    · exact State.done_sound ..
  -- the line of a wire command byte
  | command c =>
    simp only [Point.run]
    split
    · trivial
    · exact State.goOn_sound (linesSound_leaves h rfl)
  -- lines that take a bit
  | readShift | positionA | powerBit | resultBit =>
    obtain ⟨b, rfl⟩ := Val.kind_bit (linesSound_takes h rfl)
    exact State.goOn_sound h
  | positionC k lz a =>
    obtain ⟨c, rfl⟩ := Val.kind_bit (linesSound_takes h rfl)
    exact State.goOn_sound (by split <;> exact h)
  | presenceGot | findNextReset | selectReset | powerSelected | readSpSelected =>
    obtain ⟨_ | _, rfl⟩ := Val.kind_bit (linesSound_takes h rfl) <;> exact State.goOn_sound h
  | readRomReset | writeSpSelected | convertSelected | setResolutionSelected =>
    obtain ⟨_ | _, rfl⟩ := Val.kind_bit (linesSound_takes h rfl)
    · exact State.done_sound ..
    · exact State.goOn_sound rfl
  -- lines that take another result
  | framedData | framedCheck =>
    obtain ⟨d, rfl⟩ := Val.kind_byte (linesSound_takes h rfl)
    exact State.goOn_sound h
  | readSpFrame | readRomStore =>
    obtain ⟨d, ok, rfl⟩ := Val.kind_frame (linesSound_takes h rfl)
    exact State.goOn_sound h
  | searchGot count =>
    obtain ⟨_ | rom, rfl⟩ := Val.kind_found (linesSound_takes h rfl) <;> exact State.goOn_sound rfl
  | powerResult =>
    obtain ⟨_ | b, rfl⟩ := Val.kind_power (linesSound_takes h rfl)
    · exact State.done_sound ..
    · exact State.goOn_sound rfl
  | finishRet =>
    obtain ⟨st, rfl⟩ := Val.kind_status (linesSound_takes h rfl)
    exact State.done_sound ..
  | durationGot =>
    obtain ⟨st, rfl⟩ := Val.kind_status (linesSound_takes h rfl)
    exact State.goOn_sound (by split <;> rfl)
  | temperatureGot | resolutionGot | setResolutionGot =>
    obtain ⟨st, rfl⟩ := Val.kind_status (linesSound_takes h rfl)
    simp only [Point.run]
    split
    · exact State.goOn_sound rfl
    · exact State.done_sound ..

theorem coreStep_sound {s : State} (h : s.SequenceSound) : SoundOutcome (coreStep s) := by
  unfold coreStep
  split
  · exact h
  · next hq => exact Point.run_sound s ((State.sound_run hq).mp h)
  · next hq => cases (State.sound_run hq).mp h

theorem coreRun_sound {n : Nat} {s t : State} (h : s.SequenceSound) (e : coreRun n s = .next t) :
    t.SequenceSound := by
  induction n generalizing s with
  | zero => cases e; exact h
  | succ n ih =>
    have hstep := coreStep_sound h
    rw [coreRun] at e
    split at e
    · next u hu => exact ih (by rwa [hu] at hstep) e
    · cases e
    · cases e

/-- What sound lines come to is sound. -/
theorem State.Comes.sound {s t : State} {op : Byte} {ps : List Point} {ret : Val} (h : s.Comes op ps ret t)
    (hs : linesSound ret.kind ps = true) : t.SequenceSound := by
  obtain ⟨n, hn⟩ := h
  exact coreRun_sound ((State.sound_run rfl).mpr hs) hn

theorem State.writeReg_sound {s : State} (h : s.SequenceSound) (r : Reg) (w : Word) :
    (s.writeReg r w).SequenceSound := by
  cases r with
  | cmd => exact s.start_sound _
  | _ => exact h

theorem State.readReg_seq (s : State) (r : Reg) : (s.readReg r).seq = s.seq := by
  unfold State.readReg
  split <;> rfl

theorem State.hostWrite_sound {s : State} (h : s.SequenceSound) (o wd : Nat) (w : Word) :
    SoundOutcome (s.hostWrite o wd w) := by
  unfold State.hostWrite
  split
  · simp only [SoundOutcome]
    split
    · exact h
    · exact State.writeReg_sound h ..
  · trivial

theorem State.hostRead_sound {s : State} (h : s.SequenceSound) (o wd : Nat) : SoundOutcome (s.hostRead o wd) := by
  unfold State.hostRead
  split
  · exact (State.sound_congr (s.readReg_seq _)).mpr h
  · trivial

theorem State.poll_sound {s : State} (h : s.SequenceSound) : SoundOutcome s.poll := by
  unfold State.poll
  split
  · exact coreStep_sound h
  · exact (State.sound_congr (s.readReg_seq _)).mpr h

/-- A command taken as one step comes where its lines come, and they are sound. -/
theorem step_cmd_sound {s : State} {w : Word} {rest : List Input} (hq : s.seq = .idle)
    (hin : s.inputs = .cmd w :: rest) : SoundOutcome (step s) := by
  rw [step_cmd hq hin, decode]
  cases decodeOp (cmdOp w) with
  | none => exact State.done_sound { s with inputs := rest } .invalidArg
  | some cmd => exact .of_no_fault (exec_no_fault _ _) fun t e => (exec_comes e).sound rfl

/-- A wire command byte sent whole comes where its line and the lines it calls come. -/
theorem step_tickByte_sound {s : State} {rest : List Input} (h : s.SequenceSound)
    (hin : s.inputs = .tickByte :: rest) : SoundOutcome (step s) := by
  cases hc : s.seq.nextCommand with
  | none =>
    rw [step_tickByte_line hc hin]
    exact coreStep_sound h
  | some c =>
    obtain ⟨op, ps, ret, hq⟩ := Seq.nextCommand_some hc
    rw [step_tickByte hq hin]
    exact .of_no_fault (exec_no_fault _ _) fun t e =>
      (exec_wire_comes (s := { s with inputs := rest }) hq e).sound ((State.sound_run hq).mp h)

theorem step_sound {s : State} (h : s.SequenceSound) : SoundOutcome (step s) := by
  have h' (rest : List Input) : ({ s with inputs := rest } : State).SequenceSound := h
  cases hin : s.inputs with
  | nil => rw [step_nothing hin]; exact coreStep_sound h
  | cons i rest =>
    cases i with
    | write o wd w => rw [step_write hin]; exact State.hostWrite_sound (h' rest) ..
    | read o wd => rw [step_read hin]; exact State.hostRead_sound (h' rest) ..
    | poll => rw [step_poll hin]; exact State.poll_sound (h' rest)
    | tick => rw [step_tick hin]; exact coreStep_sound (h' rest)
    | tickByte => exact step_tickByte_sound h hin
    | cmd w =>
      cases hb : s.busy with
      | true => rw [step_waiting hb hin]; exact coreStep_sound h
      | false => exact step_cmd_sound (State.idle_of_busy_false hb) hin
    | reset => rw [step_reset hin]; exact State.hardReset_sound { s with inputs := rest }

end Sys2Proof.Machine
end

/-- Settles O48: a line of a sound list leaves a sound list, and every other step leaves `SEQ` IDLE, as it was, at the
prologue of a started command, or where a run of lines comes. -/
theorem noRunBreaksTheSequence : Obligations.NoRunBreaksTheSequence :=
  fun _ h => (Sys2Proof.Machine.soundOutcome_iff _).mp (Sys2Proof.Machine.step_sound h)

section
/-! The pass loop of SEARCH_ROM as a chain of passes (R180). -/

namespace Sys2Proof.Machine

variable {s t : State} {fuel count : Nat} {rom : Rom}

theorem searchLoop_none (h : (findNext s.phy s.search).found = none) :
    searchLoop (fuel + 1) count s = { s.withPass (findNext s.phy s.search) with
      result := BitVec.ofNat 32 count }.finish (if count = 0 then .noDevice else .ok) := by
  simp only [searchLoop, h]

theorem searchLoop_wrongCrc (h : (findNext s.phy s.search).found = some rom) (hv : romValid rom = false) :
    searchLoop (fuel + 1) count s = searchLoop fuel count (s.withPass (findNext s.phy s.search)) := by
  simp only [searchLoop, h, hv, Bool.false_eq_true, if_false]

theorem searchLoop_full (h : (findNext s.phy s.search).found = some rom) (hv : romValid rom = true)
    (hc : count = s.cap) :
    searchLoop (fuel + 1) count s
      = { s.withPass (findNext s.phy s.search) with result := BitVec.ofNat 32 count }.finish .tooMany := by
  simp only [searchLoop, h, hv, hc, if_true]

theorem searchLoop_store (h : (findNext s.phy s.search).found = some rom) (hv : romValid rom = true)
    (hc : count ≠ s.cap) :
    searchLoop (fuel + 1) count s = searchLoop fuel (count + 1)
      { s.withPass (findNext s.phy s.search) with addrlist := s.addrlist.set count rom } := by
  simp only [searchLoop, h, hv, hc, if_true, if_false]

theorem foundBy_cons_wrongCrc {r : Pass} {rs : List Pass} (h : r.found = some rom) (hv : romValid rom = false) :
    foundBy (r :: rs) = foundBy rs := by
  unfold romValid at hv
  simp [foundBy, h, hv]

theorem foundBy_cons_valid {r : Pass} {rs : List Pass} (h : r.found = some rom) (hv : romValid rom = true) :
    foundBy (r :: rs) = rom :: foundBy rs := by
  unfold romValid at hv
  simp [foundBy, h, hv]

/-- The pass loop, from `s` with `count` addresses stored to `t` with `total`: the passes `rs` that found an address
and the last pass, which found nothing or one address too many (R180, R276). -/
structure SearchAccount (s : State) (count : Nat) (t : State) (total : Nat) (rs : List Pass) (last : Pass) : Prop where
  chain : passChain s.phy s.search (rs ++ [last])
  found : ∀ r ∈ rs, r.found.isSome = true
  total_eq : total = count + (foundBy rs).length
  le_cap : total ≤ s.cap
  stored : t.addrlist.take total = s.addrlist.take count ++ foundBy rs
  kept : t.addrlist.drop total = s.addrlist.drop total
  ending : (last.found = none ∧ t.status = if total = 0 then 0x02#8 else 0x00#8)
    ∨ (total = s.cap ∧ t.status = 0x04#8 ∧ ∃ rom, last.found = some rom ∧ crc8 (rom.toList.take 7) = rom[7])
  frame : t = { s with phy := last.phy, search := last.search, addrlist := t.addrlist,
                       result := BitVec.ofNat 32 total, status := t.status, seq := .idle }

/-- The last pass alone. -/
theorem SearchAccount.last {st : Status} (hc : count ≤ s.cap)
    (ht : t = { s.withPass (findNext s.phy s.search) with result := BitVec.ofNat 32 count }.finish st)
    (hend : ((findNext s.phy s.search).found = none ∧ statusCode st = if count = 0 then 0x02#8 else 0x00#8)
      ∨ (count = s.cap ∧ statusCode st = 0x04#8
        ∧ ∃ rom, (findNext s.phy s.search).found = some rom ∧ crc8 (rom.toList.take 7) = rom[7])) :
    SearchAccount s count t count [] (findNext s.phy s.search) := by
  subst ht
  exact { chain := ⟨rfl, trivial⟩, found := nofun, total_eq := rfl, le_cap := hc, stored := (List.append_nil _).symm,
          kept := rfl, ending := hend, frame := rfl }

/-- A pass before that skips an address with a wrong CRC. -/
theorem SearchAccount.skip {total : Nat} {rs : List Pass} {last : Pass}
    (h : (findNext s.phy s.search).found = some rom) (hv : romValid rom = false)
    (ha : SearchAccount (s.withPass (findNext s.phy s.search)) count t total rs last) :
    SearchAccount s count t total (findNext s.phy s.search :: rs) last where
  chain := ⟨rfl, ha.chain⟩
  found := List.forall_mem_cons.mpr ⟨by rw [h]; rfl, ha.found⟩
  total_eq := by rw [foundBy_cons_wrongCrc h hv]; exact ha.total_eq
  le_cap := ha.le_cap
  stored := by rw [foundBy_cons_wrongCrc h hv]; exact ha.stored
  kept := ha.kept
  ending := ha.ending
  frame := ha.frame

/-- A pass before that stores its address. -/
theorem SearchAccount.store {total : Nat} {rs : List Pass} {last : Pass}
    (h : (findNext s.phy s.search).found = some rom) (hv : romValid rom = true) (hc : count < s.addrlist.length)
    (ha : SearchAccount { s.withPass (findNext s.phy s.search) with addrlist := s.addrlist.set count rom }
      (count + 1) t total rs last) :
    SearchAccount s count t total (findNext s.phy s.search :: rs) last where
  chain := ⟨rfl, ha.chain⟩
  found := List.forall_mem_cons.mpr ⟨by rw [h]; rfl, ha.found⟩
  total_eq := by rw [foundBy_cons_valid h hv, ha.total_eq, List.length_cons]; omega
  le_cap := ha.le_cap
  stored := by
    have htake : (s.addrlist.set count rom).take (count + 1) = s.addrlist.take count ++ [rom] := by
      rw [List.take_succ_eq_append_getElem (by simpa using hc), List.take_set_of_le (Nat.le_refl _),
        List.getElem_set_self]
    rw [ha.stored, foundBy_cons_valid h hv, htake, List.append_assoc, List.singleton_append]
  kept := by
    have hlt : count < total := by rw [ha.total_eq]; omega
    rw [ha.kept, List.drop_set_of_lt hlt]
  ending := ha.ending
  frame := ha.frame

/-- A pass loop that ends has an account. -/
theorem searchLoop_account (hc : count ≤ s.cap) (hlen : s.cap ≤ s.addrlist.length)
    (hq : (searchLoop fuel count s).seq = .idle) :
    ∃ total rs last, SearchAccount s count (searchLoop fuel count s) total rs last := by
  induction fuel generalizing count s with
  | zero => cases hq
  | succ fuel ih =>
    cases hf : (findNext s.phy s.search).found with
    | none => exact ⟨count, [], _, .last hc (searchLoop_none hf) (.inl ⟨hf, by split <;> rfl⟩)⟩
    | some rom =>
      cases hv : romValid rom with
      | false =>
        rw [searchLoop_wrongCrc hf hv] at hq ⊢
        obtain ⟨total, rs, last, ha⟩ := ih (s := s.withPass _) hc hlen hq
        exact ⟨total, _ :: rs, last, ha.skip hf hv⟩
      | true =>
        by_cases hcap : count = s.cap
        · have hcrc : crc8 (rom.toList.take 7) = rom[7] := beq_iff_eq.mp hv
          exact ⟨count, [], _, .last hc (searchLoop_full hf hv hcap) (.inr ⟨hcap, rfl, rom, hf, hcrc⟩)⟩
        · have hlt : count < s.cap := Nat.lt_of_le_of_ne hc hcap
          rw [searchLoop_store hf hv hcap] at hq ⊢
          obtain ⟨total, rs, last, ha⟩ := ih (s := { s.withPass _ with addrlist := s.addrlist.set count rom }) hlt
            (by rw [List.length_set]; exact hlen) hq
          exact ⟨total, _ :: rs, last, ha.store hf hv (Nat.lt_of_lt_of_le hlt hlen)⟩

theorem execSearchRom_loop (hs : s.session = true) (hcap : s.cap ≤ s.params.addrlistDepth) :
    execSearchRom s = .next (searchLoop passBound 0 { s with search := s.search.clear }) := by
  rw [execSearchRom, State.inSession_true hs, if_neg (Nat.not_lt.mpr hcap)]

end Sys2Proof.Machine
end

section
open Sys2Proof.Machine

/-- Settles O35: each pass of the loop is the last one, skips an address or stores one, by induction on the passes. -/
theorem searchRomResultCountsTheList : Obligations.SearchRomResultCountsTheList := by
  rintro x s t cap hs rfl hcap hlen e hq
  obtain rfl := Host.Outcome.next.inj ((execSearchRom_loop hs hcap).symm.trans e)
  obtain ⟨total, rs, last, ha⟩ := searchLoop_account
    (s := { s with search := s.search.clear }) (Nat.zero_le _) (hlen ▸ hcap) hq
  have htotal : total = (foundBy rs).length := ha.total_eq.trans (Nat.zero_add _)
  exact ⟨rs, last, total, ha.chain, ha.found, htotal, ha.le_cap, ha.stored, ha.kept, ha.ending, ha.frame⟩

end

section
/-! One lemma per field: what events leave of a state (`State.ran`), and what INIT's own writes leave (R203). -/

namespace Sys2Proof.Machine

@[simp] theorem State.ran_params (s : State) (es : List Event) (c sh : Byte) (n : BitVec 4) : (s.ran es c sh n).params = s.params := rfl
@[simp] theorem State.ran_session (s : State) (es : List Event) (c sh : Byte) (n : BitVec 4) : (s.ran es c sh n).session = s.session := rfl
@[simp] theorem State.ran_pwr (s : State) (es : List Event) (c sh : Byte) (n : BitVec 4) : (s.ran es c sh n).pwr = s.pwr := rfl
@[simp] theorem State.ran_search (s : State) (es : List Event) (c sh : Byte) (n : BitVec 4) : (s.ran es c sh n).search = s.search := rfl
@[simp] theorem State.ran_seq (s : State) (es : List Event) (c sh : Byte) (n : BitVec 4) : (s.ran es c sh n).seq = s.seq := rfl
@[simp] theorem State.ran_addr (s : State) (es : List Event) (c sh : Byte) (n : BitVec 4) : (s.ran es c sh n).addr = s.addr := rfl
@[simp] theorem State.ran_romid (s : State) (es : List Event) (c sh : Byte) (n : BitVec 4) : (s.ran es c sh n).romid = s.romid := rfl
@[simp] theorem State.ran_spbuf (s : State) (es : List Event) (c sh : Byte) (n : BitVec 4) : (s.ran es c sh n).spbuf = s.spbuf := rfl
@[simp] theorem State.ran_addrlist (s : State) (es : List Event) (c sh : Byte) (n : BitVec 4) : (s.ran es c sh n).addrlist = s.addrlist := rfl
@[simp] theorem State.ran_cfg (s : State) (es : List Event) (c sh : Byte) (n : BitVec 4) : (s.ran es c sh n).cfg = s.cfg := rfl
@[simp] theorem State.ran_status (s : State) (es : List Event) (c sh : Byte) (n : BitVec 4) : (s.ran es c sh n).status = s.status := rfl
@[simp] theorem State.ran_result (s : State) (es : List Event) (c sh : Byte) (n : BitVec 4) : (s.ran es c sh n).result = s.result := rfl
@[simp] theorem State.ran_temp (s : State) (es : List Event) (c sh : Byte) (n : BitVec 4) : (s.ran es c sh n).temp = s.temp := rfl
@[simp] theorem State.ran_inputs (s : State) (es : List Event) (c sh : Byte) (n : BitVec 4) : (s.ran es c sh n).inputs = s.inputs := rfl
@[simp] theorem State.ran_rdata (s : State) (es : List Event) (c sh : Byte) (n : BitVec 4) : (s.ran es c sh n).rdata = s.rdata := rfl
@[simp] theorem State.ran_free (s : State) (es : List Event) (c sh : Byte) (n : BitVec 4) : (s.ran es c sh n).free = s.free := rfl
@[simp] theorem State.ran_phy (s : State) (es : List Event) (c sh : Byte) (n : BitVec 4) : (s.ran es c sh n).phy = (s.phy.after es).withRegs c sh n := rfl

@[simp] theorem State.initSetup_params (s : State) : s.initSetup.params = s.params := rfl
@[simp] theorem State.initSetup_search (s : State) : s.initSetup.search = s.search := rfl
@[simp] theorem State.initSetup_seq (s : State) : s.initSetup.seq = s.seq := rfl
@[simp] theorem State.initSetup_addr (s : State) : s.initSetup.addr = s.addr := rfl
@[simp] theorem State.initSetup_romid (s : State) : s.initSetup.romid = s.romid := rfl
@[simp] theorem State.initSetup_spbuf (s : State) : s.initSetup.spbuf = s.spbuf := rfl
@[simp] theorem State.initSetup_addrlist (s : State) : s.initSetup.addrlist = s.addrlist := rfl
@[simp] theorem State.initSetup_cfg (s : State) : s.initSetup.cfg = s.cfg := rfl
@[simp] theorem State.initSetup_status (s : State) : s.initSetup.status = s.status := rfl
@[simp] theorem State.initSetup_result (s : State) : s.initSetup.result = s.result := rfl
@[simp] theorem State.initSetup_temp (s : State) : s.initSetup.temp = s.temp := rfl
@[simp] theorem State.initSetup_inputs (s : State) : s.initSetup.inputs = s.inputs := rfl
@[simp] theorem State.initSetup_rdata (s : State) : s.initSetup.rdata = s.rdata := rfl
@[simp] theorem State.initSetup_free (s : State) : s.initSetup.free = s.free := rfl

end Sys2Proof.Machine
end

section
/-! Which registers an instruction leaves, from every way it can end (R20 to R44). -/

namespace Sys2Proof.Machine

variable {s t : State} {i : Instr}

/-- No instruction writes the parameters, `ADDR`, `CFG` or what the HOST gives and has read (R9, R35, R42). -/
theorem Outcome.operands (h : Outcome s i t) :
    t.params = s.params ∧ t.addr = s.addr ∧ t.cfg = s.cfg ∧ t.inputs = s.inputs ∧ t.rdata = s.rdata := by
  cases h <;> simp

theorem Outcome.session (h : Outcome s i t) (hi : i.hostOp ∉ [some .init, some .destroy]) :
    t.session = s.session := by
  cases h with
  | initF | initT => exact absurd (.head _) hi
  | destroy => exact absurd (.tail _ (.head _)) hi
  | _ => simp

theorem Outcome.spuPins (h : Outcome s i t) (hi : i.hostOp ≠ some .init) :
    t.phy.spuAvail = s.phy.spuAvail ∧ t.phy.spuPol = s.phy.spuPol ∧ t.phy.spuOe = s.phy.spuOe := by
  cases h with
  | initF | initT => exact absurd rfl hi
  | _ => simp

theorem Outcome.pwr (h : Outcome s i t) (hi : i.hostOp ∉ [some .init, some .readPowerSupply]) : t.pwr = s.pwr := by
  cases h with
  | initF | initT => exact absurd (.head _) hi
  | power => exact absurd (.tail _ (.head _)) hi
  | _ => simp

theorem Outcome.search_addrlist (h : Outcome s i t) (hi : i.hostOp ≠ some .searchRom) :
    t.search = s.search ∧ t.addrlist = s.addrlist := by
  cases h with
  | search => exact absurd rfl hi
  | _ => simp

theorem Outcome.romid (h : Outcome s i t) (hi : i.hostOp ≠ some .readRom) : t.romid = s.romid := by
  cases h with
  | readRom => exact absurd rfl hi
  | _ => simp

theorem Outcome.temp_free (h : Outcome s i t) (hi : i.hostOp ≠ some .getTemperature) :
    t.temp = s.temp ∧ t.free = s.free := by
  cases h with
  | readSp _ cm _ _ _ _ _ _ _ _ _ _ hop _ _ hw => exact hw fun hcm => hi (hop.trans (congrArg some hcm))
  | _ => simp

theorem Outcome.spbuf (h : Outcome s i t) (hi : i.hostOp ∉ [some .readScratchpad, some .convertDuration,
    some .getTemperature, some .getResolution, some .setResolution]) : t.spbuf = s.spbuf := by
  cases h with
  | readSp _ cm _ _ _ _ _ _ _ _ _ _ hop hcm => exact absurd (hop ▸ List.mem_map_of_mem (f := some) hcm) hi
  | setRes => exact absurd (by simp [Instr.hostOp]) hi
  | _ => simp

theorem Outcome.result (h : Outcome s i t) (hi : i.hostOp ∉ [some .resetBus, some .searchRom, some .readPowerSupply,
    some .convertDuration, some .getResolution, some .crc8]) : t.result = s.result := by
  cases h with
  | reset | search | power | durQuick | durNone | resQuick | crc => exact absurd (by simp [Instr.hostOp]) hi
  | readSp _ cm _ _ _ _ _ _ _ _ _ _ hop _ hr =>
    refine hr fun hcm => hi ?_
    rw [hop]
    fin_cases hcm <;> simp
  | _ => simp

/-- A wire row leaves `STATUS`, and takes `SEQ` at most past its own line (R98, R202). -/
theorem Outcome.wireRow (h : Outcome s i t) (hi : i.hostOp = none) : t.status = s.status ∧ (t.seq = s.seq
    ∨ ∃ op c ps ret, s.seq = .run op (.command c :: ps) ret ∧ t.seq = .run op ps .none) := by
  cases h with
  | wire _ cmd op rest ret _ _ _ _ hq => exact ⟨rfl, .inr ⟨op, cmd, rest, ret, hq, rfl⟩⟩
  | wireElsewhere => exact ⟨rfl, .inl rfl⟩
  | early _ _ _ hop | noDev _ _ _ _ _ hop | readSp _ _ _ _ _ _ _ _ _ _ _ _ hop => cases hop.symm.trans hi
  | _ => cases hi

end Sys2Proof.Machine
end

section
open Sys2Proof.Machine

/-- Settles O42: register by register, over every way an instruction can end. -/
theorem onlyTheNamedCommandsWrite : Obligations.OnlyTheNamedCommandsWrite := by
  intro i s t e
  have h := exec_outcome e
  obtain ⟨hparams, haddr, hcfg, hinputs, hrdata⟩ := h.operands
  exact ⟨hparams, haddr, hcfg, hinputs, hrdata, h.session, h.spuPins, h.pwr, h.search_addrlist, h.romid, h.temp_free,
    h.spbuf, h.result, h.wireRow⟩

end

section
/-! The sequencer from a `CMD` write (R91, R93, R120, R121). -/

namespace Sys2Proof.Machine

theorem eq_opcode_of_decodeOp {op : Byte} {cmd : HostOp} (h : decodeOp op = some cmd) : op = cmd.opcode := by
  revert op
  cases cmd <;> decide

/-- The reserved opcodes of R93. -/
theorem decodeOp_reserved : ∀ op : Byte, op.toNat = 0 ∨ 0x0F ≤ op.toNat → decodeOp op = none := by decide

theorem cmdOp_toNat (w : Word) : (cmdOp w).toNat = (w &&& 0xFF#32).toNat := by
  rw [cmdOp, BitVec.extractLsb'_toNat, BitVec.toNat_and, BitVec.toNat_ofNat]
  exact (Nat.and_two_pow_sub_one_eq_mod w.toNat 8).symm

theorem decode_host_ok {w : Word} {i : Instr} (h : decode (.host w) = .ok i) :
    ∃ cmd : HostOp, cmdOp w = cmd.opcode ∧ i = cmd.instr (cmdIgnored w) := by
  rw [decode] at h
  cases hop : decodeOp (cmdOp w) with
  | none => simp [hop] at h
  | some cmd =>
    simp only [hop, Except.ok.injEq] at h
    exact ⟨cmd, eq_opcode_of_decodeOp hop, h.symm⟩

/-- A reserved opcode ends at the prologue's first check (R93, R121). -/
theorem comes_reserved {s : State} {op : Byte} (h : decodeOp op = none) :
    s.Comes op [.prologue] .none (s.finish .invalidArg) :=
  .done (u := s.start op) (by simp only [Point.run, h]; rfl)

end Sys2Proof.Machine
end

section
open Sys2Proof.Machine

/-- Settles O46: the lines from a `CMD` write, and from the line of a wire command byte, come to what `exec` gives. -/
theorem sequencerRunsTheMeaning : Obligations.SequencerRunsTheMeaning := by
  refine ⟨fun s w => ⟨fun i t hd e => ?_, fun hw => ?_⟩, fun s t op c ps ret hq e => ?_⟩
  · obtain ⟨cmd, hop, rfl⟩ := decode_host_ok hd
    rw [hop]
    exact exec_comes e
  · refine comes_reserved (decodeOp_reserved _ ?_)
    rw [cmdOp_toNat]
    exact hw.imp (congrArg BitVec.toNat) BitVec.le_def.mp
  · have h := exec_wire_comes hq e
    rwa [State.Comes, ← hq] at h

end

section
/-! What the HOST's writes store and its reads of a running block return (R39 to R47, R72). -/

namespace Sys2Proof.Machine

theorem configParams_wf : Config.params.wf = true := by simp [Params.wf, Config.params]

theorem spSet2_eq_set (b : Scratchpad) (w : Word) : spSet2 b w = b.set 8 (w.extractLsb' 0 8) := by
  apply Vector.ext
  intro i hi
  interval_cases i <;> simp [spSet2, byteOf]

/-- Only `CMD` and the operand registers store a write (R39). -/
theorem State.writeReg_elsewhere {offset : Nat} (s : State) (w : Word) (depth : Nat)
    (h : offset ∉ [0x000, 0x008, 0x014, 0x018, 0x024, 0x028, 0x02C]) : s.writeReg (regAt depth offset) w = s := by
  unfold regAt
  split
  case h_1 | h_3 | h_6 | h_7 | h_10 | h_11 | h_12 => exact absurd (by simp) h
  case h_14 => split_ifs <;> rfl
  all_goals rfl

/-- A read writes nothing but the value it returns and the count of free values (R72, R73). -/
theorem State.readReg_frame (s : State) (r : Reg) :
    s.readReg r = { s with rdata := (s.readReg r).rdata, free := (s.readReg r).free } := by
  unfold State.readReg
  split <;> rfl

/-- A register that no command of this opcode may write is not contested while it runs (R47, R72). -/
theorem State.readReg_uncontested {s : State} {op : Byte} {ps : List Point} {ret : Val} {r : Reg}
    (hq : s.seq = .run op ps ret) (h : ∀ cmd : HostOp, op = cmd.opcode → mayWrite cmd r = false) :
    (s.readReg r).rdata = s.regValue r := by
  have hr : s.changing r = false := by
    rw [State.changing, hq]
    cases hop : decodeOp op with
    | none => simp only [hop]
    | some cmd => simpa only [hop] using h cmd (eq_opcode_of_decodeOp hop)
  rw [State.readReg_quiet hr]

theorem mayWrite_temp {cmd : HostOp} (h : cmd.opcode ≠ 0x0B#8) : mayWrite cmd .temp = false := by
  revert h
  cases cmd <;> decide

theorem mayWrite_result {cmd : HostOp}
    (h : cmd.opcode ∉ [0x03#8, 0x05#8, 0x06#8, 0x09#8, 0x0C#8, 0x0E#8]) : mayWrite cmd .result = false := by
  revert h
  cases cmd <;> decide

/-- A read of `STAT` is contested in its PWR bit at most (R41; log entry 7). -/
theorem State.readReg_stat (s : State) : ∃ pwr, (s.readReg .stat).rdata = s.statWith pwr := by
  unfold State.readReg
  split
  · exact ⟨_, rfl⟩
  · exact ⟨s.pwr, rfl⟩

theorem State.statWith_fields (s : State) (pwr : Bool) : (s.statWith pwr).getLsbD 0 = s.busy
    ∧ (s.statWith pwr).extractLsb' 8 8 = s.status ∧ (s.statWith pwr).getLsbD 1 = s.session := by
  obtain ⟨hlow, -, hstatus, -⟩ := stat_parts s.status
    (statLow s.busy s.session s.phy.spuAvail s.phy.spuPol s.phy.spuAct pwr)
  obtain ⟨hbusy, hsession, -⟩ := statLow_bits s.busy s.session s.phy.spuAvail s.phy.spuPol s.phy.spuAct pwr
  exact ⟨(hlow 0 (by decide)).trans hbusy, hstatus, (hlow 1 (by decide)).trans hsession⟩

end Sys2Proof.Machine
end

section
open Sys2Proof.Machine

/-- Settles O55: each operand offset names its register, whose write stores the word's bytes, and no other register
stores. -/
theorem operandWritesStoreTheirBytes : Obligations.OperandWritesStoreTheirBytes := by
  intro s w rest offset hq hin
  refine ⟨?_, ?_, ?_, ?_, ?_, ?_, fun ho hne => ?_⟩
  case refine_6 =>
    rintro rfl
    rw [← spSet2_eq_set]
    exact step_write_idle hq hin rfl
  case refine_7 =>
    rw [step_write_idle hq hin ho, State.writeReg_elsewhere _ _ _ hne]
  all_goals
    rintro rfl
    exact step_write_idle hq hin rfl

/-- Settles O50: the state after reset is one that RESET gives. -/
theorem resetMeetsTheInvariant : Obligations.ResetMeetsTheInvariant :=
  ⟨State.hardReset_inv (s := .reset) configParams_wf,
    State.hardReset_sound .reset⟩

/-- Settles O51: the step is `hardReset`. -/
theorem resetGivesTheResetValues : Obligations.ResetGivesTheResetValues :=
  fun _ _ h => ⟨_, step_reset h, rfl⟩

/-- Settles O52: the step is `start` with the word's low byte. -/
theorem cmdWriteStartsTheCommand : Obligations.CmdWriteStartsTheCommand :=
  fun _ _ _ hq h => ⟨_, step_write_idle hq h rfl, State.busy_run rfl, rfl,
    _, _, rfl⟩

/-- Settles O53: a write that finds the block busy is ignored. -/
theorem writesWhileBusyAreIgnored : Obligations.WritesWhileBusyAreIgnored :=
  fun _ _ _ _ hb ho h => step_write_busy hb h ho

/-- Settles O57: `STAT` is contested in its PWR bit at most, and the other registers named are those that the running
command may not write. -/
theorem readsWhileBusy : Obligations.ReadsWhileBusy := by
  intro s op ps ret rest offset hq hin ho
  have hstep := step_read_aligned hin ho
  rw [State.readReg_frame] at hstep
  refine ⟨_, _, hstep, ?_, ?_, ?_, ?_, ?_, ?_⟩
  case refine_2 | refine_3 | refine_4 =>
    rintro rfl
    exact State.readReg_uncontested hq fun _ _ => rfl
  · rintro rfl
    obtain ⟨pwr, hv⟩ := State.readReg_stat { s with inputs := rest }
    obtain ⟨hbusy, hstatus, hsession⟩ := State.statWith_fields { s with inputs := rest } pwr
    rw [← hv] at hbusy hstatus hsession
    exact ⟨hbusy.trans (State.busy_run hq), hstatus, hsession⟩
  · rintro rfl hop
    exact State.readReg_uncontested hq fun _ e => mayWrite_temp (e ▸ hop)
  · rintro rfl hop
    exact State.readReg_uncontested hq fun _ e => mayWrite_result (e ▸ hop)

end

section
/-! The HOST's accesses to an idle block, and accesses that are refused (R39 to R46, R61, R64, R73). -/

namespace Sys2Proof.Machine

theorem accessWf_eq_false {offset width : Nat} (h : offset % 4 ≠ 0 ∨ width ≠ 32) : accessWf offset width = false := by
  rw [accessWf, Bool.and_eq_false_iff, beq_eq_false_iff_ne, beq_eq_false_iff_ne]
  exact h.symm

theorem coreStep_idle {s : State} (h : s.seq = .idle) : coreStep s = .next s := by simp only [coreStep, h]

/-- A write to a register other than `CMD` leaves `SEQ`, and no write makes an event (R39, R73, R120). -/
theorem State.writeReg_frame (s : State) (r : Reg) (w : Word) :
    (s.writeReg r w).phy = s.phy ∧ (r ≠ .cmd → (s.writeReg r w).seq = s.seq) := by
  cases r with
  | cmd => exact ⟨rfl, fun h => absurd rfl h⟩
  | _ => exact ⟨rfl, fun _ => rfl⟩

theorem regAt_eq_cmd {depth offset : Nat} (h : regAt depth offset = .cmd) : offset = 0x000 := by
  unfold regAt at h
  split at h
  case h_1 => rfl
  case h_14 => split_ifs at h
  all_goals cases h

theorem State.hostWrite_idle {s t : State} {offset width : Nat} {w : Word} (hq : s.seq = .idle)
    (e : s.hostWrite offset width w = .next t) :
    t.phy = s.phy ∧ (t.seq = .idle ∨ offset = 0x000 ∧ width = 32) := by
  unfold State.hostWrite at e
  split at e <;> cases e
  next hwf =>
  rw [if_neg (by simp [State.busy_idle hq])]
  obtain ⟨hphy, hseq⟩ := s.writeReg_frame (regAt s.params.addrlistDepth offset) w
  refine ⟨hphy, ?_⟩
  by_cases hr : regAt s.params.addrlistDepth offset = .cmd
  · exact .inr ⟨regAt_eq_cmd hr, beq_iff_eq.mp (Bool.and_eq_true_iff.mp hwf).1⟩
  · exact .inl ((hseq hr).trans hq)

theorem State.hostRead_idle {s t : State} {offset width : Nat} (hq : s.seq = .idle)
    (e : s.hostRead offset width = .next t) : t.phy = s.phy ∧ t.seq = .idle := by
  unfold State.hostRead at e
  split at e <;> cases e
  rw [State.readReg_quiet (State.changing_idle _ hq)]
  exact ⟨rfl, hq⟩

theorem State.poll_idle {s : State} (hq : s.seq = .idle) : s.poll = .next { s with rdata := s.stat } := by
  rw [State.poll, if_neg (by simp [State.busy_idle hq]), State.readReg_quiet (State.changing_idle _ hq)]
  rfl

theorem stat_fields (s : State) : s.stat.getLsbD 0 = s.busy ∧ s.stat.getLsbD 1 = s.session
    ∧ s.stat.getLsbD 2 = s.phy.spuAvail ∧ s.stat.getLsbD 3 = s.phy.spuPol ∧ s.stat.getLsbD 4 = s.phy.spuAct
    ∧ s.stat.getLsbD 5 = s.pwr ∧ s.stat.extractLsb' 6 2 = 0#2 ∧ s.stat.extractLsb' 8 8 = s.status
    ∧ s.stat.extractLsb' 16 16 = 0#16 := by
  obtain ⟨hlow, hzero, hstatus, hhigh⟩ := stat_parts s.status
    (statLow s.busy s.session s.phy.spuAvail s.phy.spuPol s.phy.spuAct s.pwr)
  obtain ⟨h0, h1, h2, h3, h4, h5, h6⟩ :=
    statLow_bits s.busy s.session s.phy.spuAvail s.phy.spuPol s.phy.spuAct s.pwr
  exact ⟨(hlow 0 (by decide)).trans h0, (hlow 1 (by decide)).trans h1, (hlow 2 (by decide)).trans h2,
    (hlow 3 (by decide)).trans h3, (hlow 4 (by decide)).trans h4, (hlow 5 (by decide)).trans h5, hzero.trans h6,
    hstatus, hhigh⟩

theorem step_read_idle {s : State} {o : Nat} {rest : List Input} (hq : s.seq = .idle)
    (h : s.inputs = .read o 32 :: rest) (ho : o % 4 = 0) : step s = .next { s with
      inputs := rest, rdata := ({ s with inputs := rest } : State).regValue (regAt s.params.addrlistDepth o) } := by
  rw [step_read_aligned h ho, State.readReg_quiet (State.changing_idle (s := { s with inputs := rest }) _ hq)]

/-- An entry of `ADDRLIST` as the HOST reads it, in two halves (R39, R45). -/
theorem State.regValue_addrlist {s : State} {j : Nat} {rom : Rom} (h : s.addrlist[j]? = some rom) :
    s.regValue (.addrlistLo j) = romLo rom ∧ s.regValue (.addrlistHi j) = romHi rom := by
  simp [State.regValue, h]

end Sys2Proof.Machine
end

section
open Sys2Proof.Machine

/-- Settles O54: an access that is not well formed is refused before the block is looked at. -/
theorem badAccessesAreRefused : Obligations.BadAccessesAreRefused := by
  intro s offset width w rest hbad
  have hwf := accessWf_eq_false hbad
  refine ⟨fun hin => ?_, fun hin => ?_⟩
  · rw [step_write hin, State.hostWrite, hwf]
    rfl
  · rw [step_read hin, State.hostRead, hwf]
    rfl

/-- Settles O58: each input that is no `cmd` is an access, a line of a block that has none, or RESET. -/
theorem idleBlockWaits : Obligations.IdleBlockWaits := by
  intro s hq
  refine ⟨fun hin => (step_nothing hin).trans (coreStep_idle hq), fun x rest t hin hcmd e => ?_⟩
  have hq' : ({ s with inputs := rest } : State).seq = .idle := hq
  cases x with
  | write offset width w =>
    rw [step_write hin] at e
    obtain ⟨hphy, hseq⟩ := State.hostWrite_idle hq' e
    refine ⟨congrArg Phy.trace hphy, hseq.imp_right ?_⟩
    rintro ⟨rfl, rfl⟩
    exact ⟨w, rfl⟩
  | read offset width =>
    rw [step_read hin] at e
    obtain ⟨hphy, hseq⟩ := State.hostRead_idle hq' e
    exact ⟨congrArg Phy.trace hphy, .inl hseq⟩
  | poll =>
    rw [step_poll hin, State.poll_idle hq'] at e
    cases e
    exact ⟨rfl, .inl hq⟩
  | cmd w => exact absurd rfl (hcmd w)
  | tick =>
    rw [step_tick hin, coreStep_idle hq'] at e
    cases e
    exact ⟨rfl, .inl hq⟩
  | tickByte =>
    rw [step_tickByte_line (by rw [hq]; rfl) hin, coreStep_idle hq'] at e
    cases e
    exact ⟨rfl, .inl hq⟩
  | reset =>
    rw [step_reset hin] at e
    cases e
    exact ⟨rfl, .inl rfl⟩

/-- Settles O56: the read value is that of the register the offset names, and its fields are the register's bytes and
bits. -/
theorem readsReturnTheRegisters : Obligations.ReadsReturnTheRegisters := by
  intro s rest offset hq hin ho
  refine ⟨_, step_read_idle hq hin ho, ?_, ?_, ?_, ?_, ?_, ?_, ?_, ?_, ?_, ?_, ?_, ?_, ?_, ?_, ?_, ?_⟩
  case refine_2 =>
    rintro rfl
    obtain ⟨hbusy, hfields⟩ := stat_fields { s with inputs := rest }
    exact ⟨hbusy.trans (State.busy_idle hq), hfields⟩
  case refine_6 => rintro rfl k; exact romLo_byte s.addr k
  case refine_7 => rintro rfl k; exact romHi_byte s.addr k
  case refine_8 => rintro rfl k; exact romLo_byte s.romid k
  case refine_9 => rintro rfl k; exact romHi_byte s.romid k
  case refine_10 => rintro rfl k; exact sp0_byte s.spbuf k
  case refine_11 => rintro rfl k; exact sp1_byte s.spbuf k
  case refine_14 =>
    intro hlo hhi
    rw [regAt_low hlo hhi]
    rfl
  case refine_15 =>
    intro j rom hj hrom
    obtain ⟨hlo, hhi⟩ := State.regValue_addrlist (s := { s with inputs := rest }) hrom
    refine ⟨?_, ?_⟩
    · rintro rfl k
      rw [regAt_addrlistLo hj, hlo]
      exact romLo_byte rom k
    · rintro rfl k
      rw [regAt_addrlistHi hj, hhi]
      exact romHi_byte rom k
  case refine_16 =>
    intro hhi
    rw [regAt_high hhi]
    rfl
  all_goals
    rintro rfl
    rfl

end

section
/-! What an instruction leaves on the line (R25, R65, R279), and what a wire command row sends (R98, R135). -/

namespace Sys2Proof.Machine

theorem lineAfter_readSp (d : Bool) (k : Nat) (A : Rom) (sp : Scratchpad) :
    lineAfter d (readSpEvents k A sp) = false := by
  simp [readSpEvents, lineAfter_append]

theorem lineAfter_flatten {txs : List (List Event)} (h : ∀ tx ∈ txs, lineAfter false tx = false) :
    lineAfter false txs.flatten = false := by
  induction txs with
  | nil => rfl
  | cons tx txs ih =>
    obtain ⟨htx, htxs⟩ := List.forall_mem_cons.mp h
    rw [List.flatten_cons, lineAfter_append, htx, ih htxs]

theorem lineAfter_acts {d : Bool} {as : List Act} (h : .driveLow ∉ as) (hd : d = false) :
    lineAfter d (as.map .act) = false := by
  induction as generalizing d with
  | nil => exact hd
  | cons a as ih =>
    rw [List.mem_cons, not_or] at h
    obtain ⟨ha, has⟩ := h
    cases a with
    | driveLow => exact absurd rfl ha
    | release => exact ih has rfl
    | _ => exact ih has hd

theorem State.driveLow_not_mem_convertActs (s : State) : .driveLow ∉ s.convertActs := by
  unfold State.convertActs
  split <;> split <;> decide

/-- Every operation of the bus ends with the line released, and no other part of an instruction drives it. -/
theorem Outcome.released {s t : State} {i : Instr} (h : Outcome s i t) (hd : s.phy.dqDrv = false) :
    t.phy.dqDrv = false := by
  cases h with
  | wireElsewhere | early | crc | durQuick | resQuick => exact hd
  | destroy => rfl
  | wire | initF | initT | reset | noDev | readRom | power | writeSp | durNone =>
    simp [Phy.after_dqDrv, lineAfter_append]
  | readSp => simp [Phy.after_dqDrv, lineAfter_readSp]
  | convert =>
    simp only [State.finish_phy, State.ran_phy, Phy.withRegs_dqDrv, Phy.after_dqDrv]
    rw [lineAfter_append]
    exact lineAfter_acts s.driveLow_not_mem_convertActs (by simp [lineAfter_append])
  | search x txs c sh n f list result status seq hs hcap hne htx =>
    simp only [State.ran_phy, Phy.withRegs_dqDrv, Phy.after_dqDrv, hd]
    exact lineAfter_flatten fun tx hmem => (htx tx hmem).1.lineAfter false
  | setRes =>
    simp only [State.finish_phy, State.ran_phy, Phy.withRegs_dqDrv, Phy.after_dqDrv]
    rw [lineAfter_append, lineAfter_append, lineAfter_reset]
    split
    · simp [lineAfter_append]
    · rfl

/-- The level of a line that the block does not drive (R65; log entry 26). -/
theorem Phy.lineLevel_released {p : Phy} (h : p.dqDrv = false) : p.lineLevel true = .low
    ∧ p.lineLevel false = if p.spuAct = true ∧ p.spuAvail = true then .heldHigh else .pulledHigh := by
  simp [Phy.lineLevel, lineLow, Phy.strongHigh, h]

theorem exec_wire_eq {c : WireCmd} (hc : c ≠ .alarmSearch) (s : State) :
    exec c.instr s = .next (s.sendCommand c) := by
  cases c with
  | alarmSearch => exact absurd rfl hc
  | _ => rfl

theorem State.sendCommand_elsewhere {s : State} {c : WireCmd}
    (h : ∀ op ps ret, s.seq ≠ .run op (.command c :: ps) ret) : s.sendCommand c = s := by
  rcases s.sendCommand_cases c with ⟨op, ps, ret, hq, -⟩ | ⟨-, e⟩
  · exact absurd hq (h op ps ret)
  · exact e

/-- A wire command row at its line: the byte's write slots, and the line done (R98, R135, R202). -/
theorem runsTo_wire {s : State} {c : WireCmd} {op : Byte} {ps : List Point} {ret : Val} (hc : c ≠ .alarmSearch)
    (hq : s.seq = .run op (.command c :: ps) ret) :
    RunsTo c.instr s { s with phy := s.phy.after (writeEvents [c.byte]), seq := .run op ps .none } := by
  refine ⟨_, exec_wire_eq hc s, ?_⟩
  have h : s.sendCommand c = { s with phy := s.phy.sendWire c, seq := .run op ps .none } := by
    simp only [State.sendCommand, hq, if_true]
  rw [h, Phy.sendWire_eq]
  simp only [State.masked, Phy.masked, Phy.withRegs, Phy.after_crc]

/-! ## Inputs still to come -/

theorem bodyLine_inputs {cmd : HostOp} {op : Byte} {rest : List Point} {s t : State}
    (e : bodyLine cmd op rest s = .next t) : t.inputs = s.inputs := by
  cases cmd with
  | init | searchRom | getResolution | setResolution | crc8 =>
    simp only [bodyLine] at e
    split at e <;> cases e <;> rfl
  | _ => cases e; rfl

/-- No line takes an input (R34). -/
theorem Point.run_inputs {p : Point} {op : Byte} {rest : List Point} {ret : Val} {s t : State}
    (e : p.run op rest ret s = .next t) : t.inputs = s.inputs := by
  cases p with
  | body cmd => exact bodyLine_inputs e
  | setTemp => cases e; exact s.writeTemp_inputs
  -- lines with a loop's counter
  | presence k | writeLoop k | readLoop k | framedLoop k | position k | crcLoop k => cases k <;> cases e <;> rfl
  -- lines that take a result, and lines that test
  | presenceGot | readShift | framedData | framedCheck | findNextReset | positionA | positionC | selectReset
  | powerSelected | powerBit | readSpSelected | readSpFrame | resultBit | readRomReset | readRomStore | searchGot
  | powerResult | finishRet | writeSpSelected | durationGot | convertSelected | setResolutionSelected
  | command | prologue | prologueSession | readRomCheck | searchEnd | temperatureFamily | setResolutionRange =>
    simp only [Point.run] at e
    split at e <;> cases e <;> rfl
  | temperatureGot | resolutionGot | setResolutionGot =>
    simp only [Point.run] at e
    split at e
    · split at e <;> cases e <;> rfl
    · cases e
  | _ => cases e; rfl

theorem coreStep_inputs {s t : State} (e : coreStep s = .next t) : t.inputs = s.inputs := by
  unfold coreStep at e
  split at e
  · cases e; rfl
  · exact Point.run_inputs e
  · cases e

/-- A block that runs moves on by one line when the HOST polls it (R108). -/
theorem step_poll_busy {s : State} {rest : List Input} (hb : s.busy = true) (h : s.inputs = .poll :: rest) :
    step s = coreStep s := by
  have hb' : ({ s with inputs := rest } : State).busy = true := hb
  rw [step_poll h, State.poll, if_pos hb', ← h]

theorem step_poll_idle {s : State} {rest : List Input} (hq : s.seq = .idle) (h : s.inputs = .poll :: rest) :
    step s = .next { s with inputs := rest, rdata := s.stat } := by
  rw [step_poll h, State.poll_idle (s := { s with inputs := rest }) hq]
  rfl

theorem core_run_succ {s u : State} (m : Nat) (h : step s = .next u) : core.run (m + 1) s = core.run m u := by
  have h' : core.step s = .next u := h
  simp only [Host.Core.run, h']

theorem coreRun_idle {n : Nat} {s : State} (h : s.seq = .idle) : coreRun n s = .next s := by
  induction n with
  | zero => rfl
  | succ n ih => simp only [coreRun, coreStep_idle h, ih]

/-- A HOST that polls lets the lines run to their end, and then reads `STAT` (R77, R108). -/
theorem run_polling {n : Nat} {s t : State} {rest : List Input} (hin : s.inputs = .poll :: rest)
    (e : coreRun n s = .next t) (hq : t.seq = .idle) :
    ∃ m, core.run m s = .next { t with inputs := rest, rdata := t.stat } := by
  induction n generalizing s with
  | zero =>
    cases e
    exact ⟨1, core_run_succ 0 (step_poll_idle hq hin)⟩
  | succ n ih =>
    cases hb : s.busy with
    | false =>
      have hs := State.idle_of_busy_false hb
      cases (coreRun_idle hs).symm.trans e
      exact ⟨1, core_run_succ 0 (step_poll_idle hs hin)⟩
    | true =>
      rw [coreRun] at e
      split at e
      case h_1 u hu =>
        obtain ⟨m, hm⟩ := ih ((coreStep_inputs hu).trans hin) e
        exact ⟨m + 1, (core_run_succ m ((step_poll_busy hb hin).trans hu)).trans hm⟩
      all_goals cases e

end Sys2Proof.Machine
end

section
open Sys2Proof.Machine

/-- Settles O10: at its line a row is its byte and the line done; elsewhere it is nothing. -/
theorem wireCommandsSendTheirBytes : Obligations.WireCommandsSendTheirBytes := by
  intro s c hc
  refine ⟨?_, fun helse => ?_⟩
  · rintro op ps ret t hq rfl
    have hrun := runsTo_wire hc hq
    cases c with
    | alarmSearch => exact hc rfl
    | _ => exact hrun
  · rw [exec_wire_eq hc, State.sendCommand_elsewhere helse]

/-- Settles O43: every operation of the bus ends with the line released. -/
theorem theLineIsLeftReleased : Obligations.TheLineIsLeftReleased := by
  intro i s t e hd
  have hrel := (exec_outcome e).released hd
  exact ⟨hrel, Phy.lineLevel_released hrel⟩

/-- Settles O47: the `CMD` write starts the command's lines, the polls let them run, and they come to what `exec` gives. -/
theorem writeAndPollIsExec : Obligations.WriteAndPollIsExec := by
  intro s t w i rest hq hin hd e ht
  obtain ⟨cmd, hop, rfl⟩ := decode_host_ok hd
  have e' := exec_withInputs (cmd.instr (Sys2Proof.cmdIgnored w)) { s with inputs := rest } (.poll :: rest)
  rw [e] at e'
  obtain ⟨n, hn⟩ := exec_comes e'
  obtain ⟨m, hm⟩ := run_polling rfl hn ht
  have hstart : step s = .next (({ s with inputs := .poll :: rest } : State).start cmd.opcode) := by
    rw [← hop]
    exact step_write_idle hq hin rfl
  obtain ⟨-, -, -, rfl, -⟩ := (exec_outcome e).operands
  exact ⟨m + 1, (core_run_succ m hstart).trans hm⟩

end

section
/-! The reference static bus (R67): what its devices keep whatever happens, and the bits that a byte or an address is on
the wire. -/

namespace Sys2Proof.Machine

/-- The check byte of a scratchpad is right (R102, R153). -/
def spRight (sp : Scratchpad) : Prop := crc8 (sp.toList.take 8) = sp[8]

/-- The scratchpad of a device that has stored the k-th byte of a write (R67; `Device.store`). -/
def storedSp (sp : Scratchpad) (k : Nat) (b : Byte) : Scratchpad :=
  spOfBytes ((sp.toList.set (2 + k) b).take 8 ++ [crc8 ((sp.toList.set (2 + k) b).take 8)])

theorem spOfBytes_toList_of_length {l : List Byte} (h : l.length = 9) : (spOfBytes l).toList = l := by
  apply List.ext_getElem
  · simp [h]
  · intro i _ hi
    simp [spOfBytes, hi]

theorem storedSp_toList (sp : Scratchpad) (k : Nat) (b : Byte) : (storedSp sp k b).toList
    = (sp.toList.set (2 + k) b).take 8 ++ [crc8 ((sp.toList.set (2 + k) b).take 8)] :=
  spOfBytes_toList_of_length (by simp)

theorem spRight_storedSp (sp : Scratchpad) (k : Nat) (b : Byte) : spRight (storedSp sp k b) := by
  have hlast : (storedSp sp k b)[8] = (storedSp sp k b).toList[8]'(by simp) := by simp
  rw [spRight, hlast]
  simp [storedSp_toList]

/-- The third byte of a write is the configuration byte (R103). -/
theorem storedSp_config (sp : Scratchpad) (b : Byte) : (storedSp sp 2 b)[4] = b := by
  have h : (storedSp sp 2 b)[4] = (storedSp sp 2 b).toList[4]'(by simp) := by simp
  rw [h]
  simp [storedSp_toList]

theorem Device.store_eq_storedSp {d : Device} {k : Nat} (ha : d.active = true) (hl : d.legacy = false) (hk : k < 3)
    (b : Byte) : d.store k b = { d with sp := storedSp d.sp k b } := by
  simp [Device.store, ha, hl, hk, storedSp]

theorem Device.store_cases (d : Device) (k : Nat) (b : Byte) :
    d.store k b = d ∨ d.store k b = { d with sp := storedSp d.sp k b } := by
  rw [Device.store]
  by_cases h : (d.active && decide (k < if d.legacy then 2 else 3)) = true
  · exact .inr (if_pos h)
  · exact .inl (if_neg h)

/-- What a device keeps whatever happens on its bus: its address, its kind, and a right check byte (R67). -/
structure Device.Keeps (d d' : Device) : Prop where
  rom : d'.rom = d.rom
  legacy : d'.legacy = d.legacy
  right : spRight d.sp → spRight d'.sp

theorem Device.Keeps.refl (d : Device) : d.Keeps d := ⟨rfl, rfl, id⟩

theorem Device.Keeps.trans {d e f : Device} (h : d.Keeps e) (h' : e.Keeps f) : d.Keeps f :=
  ⟨h'.rom.trans h.rom, h'.legacy.trans h.legacy, h'.right ∘ h.right⟩

theorem Device.keeps_store (d : Device) (k : Nat) (b : Byte) : d.Keeps (d.store k b) := by
  rcases d.store_cases k b with e | e <;> rw [e]
  · exact .refl d
  · exact ⟨rfl, rfl, fun _ => spRight_storedSp d.sp k b⟩

/-- Devices `ds'` are the devices `ds`, each with what it keeps. -/
def DevicesKeep (ds ds' : List Device) : Prop := ∃ f : Device → Device, ds' = ds.map f ∧ ∀ d : Device, d.Keeps (f d)

theorem DevicesKeep.refl (ds : List Device) : DevicesKeep ds ds := ⟨id, (List.map_id ds).symm, .refl⟩

theorem DevicesKeep.trans {ds es fs : List Device} (h : DevicesKeep ds es) (h' : DevicesKeep es fs) :
    DevicesKeep ds fs := by
  obtain ⟨f, rfl, hf⟩ := h
  obtain ⟨g, rfl, hg⟩ := h'
  exact ⟨g ∘ f, List.map_map, fun d => (hf d).trans (hg (f d))⟩

theorem DevicesKeep.map_active (ds : List Device) (g : Device → Bool) :
    DevicesKeep ds (ds.map fun d => { d with active := g d }) := ⟨_, rfl, fun _ => ⟨rfl, rfl, id⟩⟩

theorem RefBus.slot_keeps (u : RefBus) (b : Bool) : DevicesKeep u.devices (u.slot b).devices := by
  unfold RefBus.slot
  split
  case h_4 => exact .map_active _ fun d => d.active && wireBit d.rom.toList _ == b
  case h_5 bits _ =>
    split
    · exact .map_active _ fun d => d.active && wireBits d.rom.toList == bits ++ [b]
    · exact .refl _
  case h_9 =>
    dsimp only
    split
    · exact ⟨_, rfl, fun d => d.keeps_store _ _⟩
    · exact .refl _
  all_goals exact .refl _

theorem RefBus.event_keeps (u : RefBus) (e : Event) : DevicesKeep u.devices (u.event e).devices := by
  unfold RefBus.event
  split
  case h_2 =>
    unfold RefBus.released
    split
    · exact .refl _
    · split
      · exact .map_active _ fun _ => true
      · exact RefBus.slot_keeps { u with low := none } _
  all_goals exact .refl _

theorem RefBus.after_keeps (ds : List Device) (tr : List Event) : DevicesKeep ds (RefBus.after ds tr).devices := by
  induction tr with
  | nil => exact .refl ds
  | cons e es ih => exact ih.trans (RefBus.event_keeps _ e)

theorem DevicesKeep.roms {ds ds' : List Device} (h : DevicesKeep ds ds') : ds'.map Device.rom = ds.map Device.rom := by
  obtain ⟨f, rfl, hf⟩ := h
  rw [List.map_map]
  exact List.map_congr_left fun d _ => (hf d).rom

/-! ## Bits on the wire (R68, R101) -/

theorem bitsOf_injective : Function.Injective bitsOf :=
  Function.LeftInverse.injective byteOfBits_bitsOf

theorem bitsOf_getElem (v : Byte) (i : Nat) (h : i < (bitsOf v).length) : (bitsOf v)[i] = v.getLsbD i := by
  have h8 : i < 8 := h
  interval_cases i <;> rfl

theorem wireBits_eq_bitsOf (bs : List Byte) : wireBits bs = bs.flatMap bitsOf := rfl

theorem length_wireBits (bs : List Byte) : (wireBits bs).length = 8 * bs.length := by
  induction bs with
  | nil => rfl
  | cons b bs ih =>
    rw [wireBits_eq_bitsOf] at ih ⊢
    rw [List.flatMap_cons, List.length_append, ih, List.length_cons, show (bitsOf b).length = 8 from rfl]
    omega

theorem wireBits_getElem (bs : List Byte) (i : Nat) (h : i < (wireBits bs).length) :
    (wireBits bs)[i] = wireBit bs i := by
  induction bs generalizing i with
  | nil => exact absurd h (Nat.not_lt_zero i)
  | cons b bs ih =>
    have hcons : wireBits (b :: bs) = bitsOf b ++ wireBits bs := rfl
    have h8 : (bitsOf b).length = 8 := rfl
    simp only [hcons, List.getElem_append, h8]
    split
    · next hi => rw [bitsOf_getElem, wireBit, Nat.div_eq_of_lt hi, Nat.mod_eq_of_lt hi, List.getD_cons_zero]
    · next hi =>
      obtain ⟨j, rfl⟩ : ∃ j, i = j + 8 := ⟨i - 8, by omega⟩
      rw [ih, wireBit, wireBit, Nat.add_sub_cancel, Nat.add_mod_right, Nat.add_div_right j (by decide),
        List.getD_cons_succ]

theorem wireBits_eq_map (bs : List Byte) : wireBits bs = (List.range (8 * bs.length)).map (wireBit bs) := by
  apply List.ext_getElem
  · simp [length_wireBits]
  · intro i h _
    simp [wireBits_getElem _ _ h]

theorem wireBits_injective : Function.Injective wireBits := by
  intro as bs h
  induction as generalizing bs with
  | nil =>
    cases bs with
    | nil => rfl
    | cons b bs => cases h
  | cons a as ih =>
    cases bs with
    | nil => cases h
    | cons b bs =>
      obtain ⟨hhead, htail⟩ := List.append_inj (s₁ := bitsOf a) (s₂ := bitsOf b) h rfl
      rw [bitsOf_injective hhead, ih htail]

theorem writeEvents_eq_bits (bs : List Byte) : writeEvents bs = (wireBits bs).flatMap writeBitEvents := by
  rw [wireBits_eq_bitsOf, List.flatMap_assoc]
  rfl

theorem readEvents_eq_bits (bs : List Byte) : readEvents bs = (wireBits bs).flatMap readBitEvents := by
  rw [wireBits_eq_bitsOf, List.flatMap_assoc]
  rfl

end Sys2Proof.Machine
end

section
/-! A scratchpad read and a scratchpad write of one device of the reference static bus (R67, R230, R246). -/

namespace Sys2Proof.Machine

/-- The bus has a device with address A, which keeps the scratchpad `sp` and stores three bytes; and the sentinel, which
addresses every device, is a device's address only where there is no other (R67, R247). -/
structure HasTarget (A : Rom) (sp : Scratchpad) (ds : List Device) : Prop where
  present : ∃ d ∈ ds, d.rom = A
  holds : ∀ d ∈ ds, d.rom = A → d.sp = sp ∧ d.legacy = false
  alone : A = sentinel → ∀ d ∈ ds, d.rom = A

/-- The device with address A is selected, and no other one is. -/
def OnlySelected (A : Rom) (ds : List Device) : Prop := ∀ d ∈ ds, d.active = true ↔ d.rom = A

variable {A : Rom} {sp : Scratchpad} {ds : List Device} {u : RefBus}

theorem HasTarget.map_active (h : HasTarget A sp ds) (g : Device → Bool) :
    HasTarget A sp (ds.map fun d => { d with active := g d }) where
  present := by
    obtain ⟨d, hd, hA⟩ := h.present
    exact ⟨_, List.mem_map_of_mem hd, hA⟩
  holds := List.forall_mem_map.mpr h.holds
  alone hA := List.forall_mem_map.mpr (h.alone hA)

theorem HasTarget.devices_isEmpty (h : HasTarget A sp ds) : ds.isEmpty = false := by
  obtain ⟨d, hd, -⟩ := h.present
  exact List.isEmpty_eq_false_iff_exists_mem.mpr ⟨d, hd⟩

/-- With one device selected the line carries its bit (R65). -/
theorem HasTarget.pullsLow_eq (h : HasTarget A sp ds) (hsel : OnlySelected A ds) {f : Device → Bool} {b : Bool}
    (hf : ∀ d ∈ ds, d.rom = A → f d = b) : pullsLow ds f = !b := by
  rw [Bool.eq_iff_iff, pullsLow, List.any_eq_true]
  constructor
  · rintro ⟨d, hd, hlow⟩
    rw [Bool.and_eq_true] at hlow
    rw [← hf d hd ((hsel d hd).mp hlow.1)]
    exact hlow.2
  · intro hb
    obtain ⟨d, hd, hA⟩ := h.present
    exact ⟨d, hd, by rw [(hsel d hd).mpr hA, hf d hd hA, hb]; rfl⟩

/-! ## Addressing (R200) -/

theorem RefBus.along_matchRom (bs acc : List Bool) (hne : bs ≠ []) (hlen : acc.length + bs.length = 64)
    (h : u.phase = .matchRom acc) : u.along (bs.flatMap writeBitEvents)
      = { devices := u.devices.map fun d => { d with active := d.active && wireBits d.rom.toList == acc ++ bs }
          phase := .functionCommand [], low := none, pull := false } := by
  induction bs generalizing acc u with
  | nil => exact absurd rfl hne
  | cons b bs ih =>
    rw [List.length_cons] at hlen
    rw [List.flatMap_cons, RefBus.along_append, RefBus.along_writeBit]
    cases bs with
    | nil =>
      have h63 : acc.length = 63 := by simpa using hlen
      simp [RefBus.slot, h, h63]
    | cons b' bs =>
      have h63 : acc.length ≠ 63 := by simp at hlen; omega
      have hslot : u.slot b = { u with phase := .matchRom (acc ++ [b]), pull := false } := by
        simp only [RefBus.slot, h, if_neg h63]
      rw [ih (acc ++ [b]) (List.cons_ne_nil _ _) (by simp at hlen ⊢; omega) (by rw [hslot]), hslot]
      simp

/-- A bus whose devices await a function command, only the device with address A. -/
structure Addressed (A : Rom) (sp : Scratchpad) (u : RefBus) : Prop where
  phase : u.phase = .functionCommand []
  target : HasTarget A sp u.devices
  selected : OnlySelected A u.devices

theorem Addressed.of_select (h : HasTarget A sp u.devices) (hphase : u.phase = .romCommand [])
    (hact : ∀ d ∈ u.devices, d.active = true) : Addressed A sp (u.along (selectEvents A)) := by
  unfold selectEvents
  split
  · next hA =>
    have halone := h.alone ((sentinel_iff A).mpr hA)
    rw [RefBus.along_romCommand u _ hphase]
    exact ⟨rfl, h, fun d hd => iff_of_true (hact d hd) (halone d hd)⟩
  · have hlen : (wireBits A.toList).length = 64 := by simp [length_wireBits]
    rw [writeEvents_cons, RefBus.along_append, RefBus.along_romCommand u _ hphase, writeEvents_eq_bits,
      RefBus.along_matchRom (wireBits A.toList) [] (List.ne_nil_of_length_eq_add_one hlen) (by simpa using hlen) rfl]
    refine ⟨rfl, h.map_active _, List.forall_mem_map.mpr fun d hd => ?_⟩
    rw [hact d hd, Bool.true_and, beq_iff_eq, List.nil_append]
    exact ⟨fun he => Vector.toList_inj.mp (wireBits_injective he), fun he => by rw [← he]⟩

theorem Addressed.of_reset (h : HasTarget A sp u.devices) (k : Nat) :
    Addressed A sp (u.along (resetEvents k ++ selectEvents A)) := by
  rw [RefBus.along_append, RefBus.along_reset]
  exact .of_select (h.map_active _) rfl (List.forall_mem_map.mpr fun _ _ => rfl)

/-! ## Read Scratchpad (R230) -/

/-- The bits read after Read Scratchpad are the selected device's, from bit n on, and the devices stay. -/
theorem RefBus.reads_scratchpad (bs : List Bool) (n : Nat) (hlen : n + bs.length ≤ 72)
    (hphase : bs ≠ [] → u.phase = .sendScratchpad n) (h : HasTarget A sp u.devices) (hsel : OnlySelected A u.devices)
    (hg : u.gives (bs.flatMap readBitEvents)) : bs = (List.range' n bs.length).map (wireBit sp.toList)
      ∧ (u.along (bs.flatMap readBitEvents)).devices = u.devices := by
  induction bs generalizing n u with
  | nil => exact ⟨rfl, rfl⟩
  | cons b bs ih =>
    rw [List.length_cons] at hlen
    have hslot : u.slot true = { u with
        phase := if n = 71 then .quiet else .sendScratchpad (n + 1)
        pull := pullsLow u.devices fun d => wireBit d.sp.toList n } := by
      simp only [RefBus.slot, hphase (List.cons_ne_nil b bs)]
    have hpull : pullsLow u.devices (fun d => wireBit d.sp.toList n) = !wireBit sp.toList n :=
      h.pullsLow_eq hsel fun d hd hA => by rw [(h.holds d hd hA).1]
    rw [List.flatMap_cons, RefBus.gives_append, RefBus.gives_readBit, RefBus.along_readBit, hslot] at hg
    obtain ⟨hb, hg⟩ := hg
    rw [hpull, Bool.not_not] at hb
    obtain ⟨hbs, hds⟩ := ih (u := { u with
        phase := if n = 71 then .quiet else .sendScratchpad (n + 1), low := none
        pull := pullsLow u.devices fun d => wireBit d.sp.toList n }) (n + 1) (by omega)
      (fun hne => if_neg (by have := List.length_pos_iff.mpr hne; omega)) h hsel hg
    refine ⟨?_, ?_⟩
    · rw [List.length_cons, List.range'_succ, List.map_cons, ← hbs, hb]
    · rw [List.flatMap_cons, RefBus.along_append, RefBus.along_readBit, hslot]
      exact hds

/-- A scratchpad read of the device returns its scratchpad, and the device stays as it is. -/
theorem HasTarget.reads {k : Nat} {d : Scratchpad} (h : HasTarget A sp u.devices)
    (hg : u.gives (readSpEvents k A d)) : d = sp ∧ HasTarget A sp (u.along (readSpEvents k A d)).devices := by
  have ha := Addressed.of_reset (u := u) h k
  have hlen (x : Scratchpad) : (wireBits x.toList).length = 72 := by simp [length_wireBits]
  have hcmd := RefBus.along_functionCommand (u.along (resetEvents k ++ selectEvents A)) 0xBE#8 ha.phase
  rw [readSpEvents, RefBus.gives_append, RefBus.along_append, hcmd, readEvents_eq_bits] at hg
  obtain ⟨hbits, hds⟩ := RefBus.reads_scratchpad
    (u := { devices := _, phase := functionPhase 0xBE#8, low := none, pull := false }) (wireBits d.toList) 0
    (by rw [hlen, Nat.zero_add]) (fun _ => rfl) ha.target ha.selected hg.2
  refine ⟨Vector.toList_inj.mp (wireBits_injective ?_), ?_⟩
  · rw [hbits, hlen, ← List.range_eq_range', wireBits_eq_map]
    simp
  · rw [readSpEvents, RefBus.along_append, RefBus.along_append, hcmd, readEvents_eq_bits, hds]
    exact ha.target

/-! ## Write Scratchpad (R232, R246) -/

theorem RefBus.along_storedByte (bits : List Bool) (k : Nat) (a : Byte) (hlen : bits.length = 8 * k)
    (h : u.phase = .receiveScratchpad bits) : u.along (writeEvents [a])
      = { devices := u.devices.map fun d => d.store k a, phase := .receiveScratchpad (bits ++ bitsOf a)
          low := none, pull := false } := by
  rw [writeEvents_eq_bits, RefBus.along_writes]
  obtain ⟨ds, ph, lf, lv⟩ := u
  subst h
  have hstore (d : Device) : d.store ((8 * k + 7) / 8)
      (byteOfBits ((bits ++ bitsOf a).drop ((8 * k + 7) / 8 * 8))) = d.store k a := by
    rw [show (8 * k + 7) / 8 = k by omega, Nat.mul_comm k 8, ← hlen, List.drop_left, byteOfBits_bitsOf]
  simpa [wireBits_eq_bitsOf, bitsOf, RefBus.slot, hlen] using fun d _ => hstore d

theorem HasTarget.store (h : HasTarget A sp ds) (hsel : OnlySelected A ds) {k : Nat} (hk : k < 3) (b : Byte) :
    HasTarget A (storedSp sp k b) (ds.map fun d => d.store k b) ∧ OnlySelected A (ds.map fun d => d.store k b) := by
  have hrom (d : Device) : (d.store k b).rom = d.rom := (d.keeps_store k b).rom
  have hactive (d : Device) : (d.store k b).active = d.active := by
    rcases d.store_cases k b with e | e <;> rw [e]
  refine ⟨⟨?_, ?_, ?_⟩, ?_⟩
  · obtain ⟨d, hd, hA⟩ := h.present
    exact ⟨_, List.mem_map_of_mem hd, (hrom d).trans hA⟩
  · refine List.forall_mem_map.mpr fun d hd hA => ?_
    rw [hrom] at hA
    obtain ⟨hsp, hleg⟩ := h.holds d hd hA
    rw [Device.store_eq_storedSp ((hsel d hd).mpr hA) hleg hk, hsp]
    exact ⟨rfl, hleg⟩
  · exact fun hA => List.forall_mem_map.mpr fun d hd => (hrom d).trans (h.alone hA d hd)
  · refine List.forall_mem_map.mpr fun d hd => ?_
    rw [hrom, hactive]
    exact hsel d hd

/-- A scratchpad write of the device: it stores the three bytes. -/
theorem HasTarget.writes (h : HasTarget A sp u.devices) (k : Nat) (a b c : Byte) :
    HasTarget A (storedSp (storedSp (storedSp sp 0 a) 1 b) 2 c)
      (u.along (resetEvents k ++ (selectEvents A ++ writeEvents [0x4E#8, a, b, c]))).devices := by
  have ha := Addressed.of_reset (u := u) h k
  obtain ⟨h0, hs0⟩ := ha.target.store ha.selected (k := 0) (by decide) a
  obtain ⟨h1, hs1⟩ := h0.store hs0 (k := 1) (by decide) b
  obtain ⟨h2, -⟩ := h1.store hs1 (k := 2) (by decide) c
  have hphase : functionPhase 0x4E#8 = .receiveScratchpad [] := rfl
  rw [← List.append_assoc, RefBus.along_append, writeEvents_cons, writeEvents_cons a, writeEvents_cons b,
    RefBus.along_append, RefBus.along_functionCommand _ _ ha.phase, RefBus.along_append,
    RefBus.along_storedByte [] 0 a rfl hphase, RefBus.along_append, RefBus.along_storedByte _ 1 b rfl rfl,
    RefBus.along_storedByte _ 2 c rfl rfl]
  exact h2

end Sys2Proof.Machine
end

section
/-! SET_RESOLUTION and GET_RESOLUTION on the reference static bus (R244 to R247). -/

namespace Sys2Proof.Machine

variable {A : Rom} {sp : Scratchpad} {ds : List Device} {past : Nat} {s t : State}

/-- Whatever has happened on its bus, the only device with address A is still there, and its check byte is right if it
was at first (R67). -/
theorem hasTarget_after {d : Device} (tr : List Event) (hnd : (ds.map Device.rom).Nodup) (hd : d ∈ ds) (hA : d.rom = A)
    (hl : d.legacy = false) (hone : A = sentinel → ds.length = 1) :
    ∃ sp, HasTarget A sp (RefBus.after ds tr).devices ∧ (spRight d.sp → spRight sp) := by
  obtain ⟨f, hf, hkeeps⟩ := RefBus.after_keeps ds tr
  have honly : ∀ e ∈ ds, (f e).rom = A → e = d := fun e he hrom =>
    List.inj_on_of_nodup_map hnd he hd (((hkeeps e).rom.symm.trans hrom).trans hA.symm)
  rw [hf]
  refine ⟨(f d).sp, ⟨⟨f d, List.mem_map_of_mem hd, (hkeeps d).rom.trans hA⟩, ?_, fun hsent => ?_⟩, (hkeeps d).right⟩
  · refine List.forall_mem_map.mpr fun e he hrom => ?_
    rw [honly e he hrom]
    exact ⟨rfl, (hkeeps d).legacy.trans hl⟩
  · obtain ⟨x, rfl⟩ := List.length_eq_one_iff.mp (hone hsent)
    obtain rfl := List.mem_singleton.mp hd
    exact List.forall_mem_map.mpr fun e he => by rw [List.mem_singleton.mp he, (hkeeps d).rom, hA]

/-- A reset finds the device (R130). -/
theorem HasTarget.presence {u : RefBus} (h : HasTarget A sp u.devices) {k : Nat} (hk : k ≤ 24)
    (hg : u.gives (resetEvents k)) : k = 0 := by
  rw [RefBus.gives_reset u hk, h.devices_isEmpty] at hg
  exact hg

/-- What the bus gave along events that the history has grown by (R63). -/
theorem Phy.gives_of_onRefBus {p : Phy} {es : List Event} (hpast : past ≤ p.trace.length)
    (h : onRefBus ds past (p.after es).trace = true) : (RefBus.after ds p.trace).gives es := by
  rw [Phy.after_trace, onRefBus_reverse ds past es _ hpast] at h
  exact h.2

theorem Phy.bus_after (p : Phy) (es : List Event) :
    RefBus.after ds (p.after es).trace = (RefBus.after ds p.trace).along es := by
  rw [Phy.after_trace, RefBus.after_reverse]

/-- The older part of a history on the bus is on the bus. -/
theorem onRefBus_of_suffix {tr tr' : List Event} (h : tr <:+ tr') (hb : onRefBus ds past tr' = true) :
    onRefBus ds past tr = true := by
  obtain ⟨es, rfl⟩ := h
  rcases Nat.le_total past tr.length with hp | hp
  · rw [← es.reverse_reverse, onRefBus_reverse ds past _ tr hp] at hb
    exact hb.1
  · exact onRefBus_past ds tr past hp

theorem Phy.trace_suffix_after (p : Phy) (es : List Event) : p.trace <:+ (p.after es).trace := by
  rw [Phy.after_trace]
  exact List.suffix_append ..

/-- Every instruction only adds to the history (R63). -/
theorem exec_trace_suffix {i : Instr} (e : exec i s = .next t) : s.phy.trace <:+ t.phy.trace := by
  cases exec_outcome e with
  | wireElsewhere | early | crc | durQuick | resQuick => exact List.suffix_rfl
  | destroy => exact List.suffix_cons ..
  | initF | initT =>
    have hsetup : s.phy.trace <:+ s.initSetup.phy.trace := ⟨[.act .spuOff, .act .release], rfl⟩
    simp only [State.finish_phy, State.ran_phy, Phy.withRegs_trace]
    exact hsetup.trans (Phy.trace_suffix_after ..)
  | _ =>
    simp only [State.finish_phy, State.ran_phy, Phy.withRegs_trace]
    exact Phy.trace_suffix_after ..

/-- SET_RESOLUTION ends with CRC_ERROR only where its read does (R246). -/
theorem execSetResolution_crcError (hs : s.session = true) (hf : s.family = .modern) (h9 : 9 ≤ s.res) (h12 : s.res ≤ 12)
    (e : execSetResolution s = .next t) (ht : t.status = 0x03#8) : s.readSp.1 = .crcError := by
  rw [execSetResolution, State.inSession_true hs, if_neg (not_not.mpr hf), if_neg (by omega)] at e
  rcases hr : s.readSp with ⟨st, r⟩
  simp only [hr] at e
  split at e
  · cases e
    revert ht
    cases st <;> simp [statusCode]
  · split at e <;> cases e <;> cases ht

/-- SET_RESOLUTION on the reference bus: with a right check byte it ends OK, and the device keeps RES and a right check
byte; with a wrong one it ends with CRC_ERROR (R246). -/
theorem execSetResolution_onRefBus (hs : s.session = true) (hf : s.family = .modern) (h9 : 9 ≤ s.res) (h12 : s.res ≤ 12)
    (h : HasTarget s.addr sp (RefBus.after ds s.phy.trace).devices) (hpast : past ≤ s.phy.trace.length)
    (e : execSetResolution s = .next t) (hbus : onRefBus ds past t.phy.trace = true) :
    (¬ spRight sp ∧ t.status = 0x03#8)
    ∨ (t.status = 0x00#8 ∧ ∃ sp', HasTarget s.addr sp' (RefBus.after ds t.phy.trace).devices ∧ spRight sp'
      ∧ sp'[4] = withResolution sp[4] s.res) := by
  rcases execSetResolution_outcome hs with ⟨hne, -⟩ | ⟨-, hr, -⟩ | ⟨-, -, -, ⟨c, sh, n, -, e'⟩ |
    ⟨k, d, c, sh, n, hk, hfo, e'⟩ | ⟨k, j, d, new, es, c, sh, n, hk, hj, rfl, -, hnew, e'⟩⟩
  · exact absurd hf hne
  · omega
  · cases e'.symm.trans e
    simp only [State.finish_phy, State.ran_phy, Phy.withRegs_trace] at hbus
    cases h.presence (Nat.le_refl 24) (Phy.gives_of_onRefBus hpast hbus)
  · cases e'.symm.trans e
    simp only [State.finish_phy, State.ran_phy, Phy.withRegs_trace] at hbus
    obtain ⟨rfl, -⟩ := h.reads (Phy.gives_of_onRefBus hpast hbus)
    refine .inl ⟨fun hright => ?_, rfl⟩
    have hcrc := execSetResolution_crcError hs hf h9 h12 e rfl
    rw [State.readSp_present hk hfo, if_pos (beq_iff_eq.mpr hright)] at hcrc
    cases hcrc
  · cases e'.symm.trans e
    simp only [State.finish_phy, State.ran_phy, Phy.withRegs_trace] at hbus ⊢
    obtain ⟨hread, hwrite⟩ := (RefBus.gives_append ..).mp (Phy.gives_of_onRefBus hpast hbus)
    obtain ⟨rfl, h'⟩ := h.reads hread
    obtain rfl := h'.presence hj ((RefBus.gives_append ..).mp hwrite).1
    have hwritten := h'.writes 0 d[2] d[3] new
    rw [← RefBus.along_append, ← Phy.bus_after s.phy] at hwritten
    exact .inr ⟨rfl, _, hwritten, spRight_storedSp _ 2 new, (storedSp_config _ new).trans hnew⟩

/-- GET_RESOLUTION on the reference bus, with a right check byte (R244, R245). -/
theorem execGetResolution_onRefBus (hs : s.session = true) (hf : s.family = .modern)
    (h : HasTarget s.addr sp (RefBus.after ds s.phy.trace).devices) (hright : spRight sp)
    (hpast : past ≤ s.phy.trace.length) (e : execGetResolution s = .next t)
    (hbus : onRefBus ds past t.phy.trace = true) :
    t.status = 0x00#8 ∧ t.result = BitVec.ofNat 32 ((sp[4].extractLsb' 5 2).toNat + 9) := by
  rw [execGetResolution, State.inSession_true hs, hf] at e
  rcases s.readSp_outcome with ⟨c, sh, n, -, hr⟩ | ⟨k, d, sh, n, -, -, hr⟩
  · have hphy : t.phy = (s.phy.after (resetEvents 24)).withRegs c sh n := by
      rw [hr] at e
      cases e
      rfl
    rw [hphy, Phy.withRegs_trace] at hbus
    cases h.presence (Nat.le_refl 24) (Phy.gives_of_onRefBus hpast hbus)
  · have hphy : t.phy = (s.phy.after (readSpEvents k s.addr d)).withRegs (crc8 (d.toList.take 8)) sh n := by
      rw [hr] at e
      dsimp only at e
      split at e <;> cases e <;> rfl
    rw [hphy, Phy.withRegs_trace] at hbus
    obtain ⟨rfl, -⟩ := h.reads (Phy.gives_of_onRefBus hpast hbus)
    have hcrc : crc8 (d.toList.take 8) = d[8] := hright
    rw [hr, if_pos hcrc] at e
    cases e
    exact ⟨rfl, rfl⟩

/-- The field that SET_RESOLUTION writes is the one that GET_RESOLUTION reads (R103, R245, R246). -/
theorem withResolution_field {r : Nat} (h9 : 9 ≤ r) (h12 : r ≤ 12) (b : Byte) :
    ((withResolution b r).extractLsb' 5 2).toNat + 9 = r := by
  have hfield : ∀ (b : Byte) (k : Fin 4), ((withResolution b (k.val + 9)).extractLsb' 5 2).toNat = k.val := by decide
  have h := hfield b ⟨r - 9, by omega⟩
  rw [Nat.sub_add_cancel h9] at h
  rw [h, Nat.sub_add_cancel h9]

end Sys2Proof.Machine
end

section
open Sys2Proof.Machine

/-- Settles O60: the device keeps what SET_RESOLUTION wrote, with a right check byte, and GET_RESOLUTION reads it. -/
theorem resolutionRoundTripOnTheStaticBus : Obligations.ResolutionRoundTripOnTheStaticBus := by
  rintro x y s t u ds hs hnd hf ⟨d, hd, hA, hl⟩ hone h9 h12 hok eset eget hbus
  obtain ⟨sp, htarget, hkept⟩ := hasTarget_after s.phy.trace hnd hd hA hl hone
  have hbust := onRefBus_of_suffix (exec_trace_suffix eget) hbus
  rcases execSetResolution_onRefBus hs hf h9 h12 htarget (Nat.le_refl _) eset hbust with
    ⟨hwrong, hst⟩ | ⟨hst, sp', htarget', hright, hres⟩
  · rcases hok with h0 | hcrc
    · cases hst.symm.trans h0
    · exact absurd (hkept (hcrc d hd hA)) hwrong
  · obtain ⟨hparams, haddr, -⟩ := (exec_outcome eset).operands
    have hs' : t.session = true := ((exec_outcome eset).session (by simp [Sys2Proof.Instr.hostOp])).trans hs
    have hf' : t.family = .modern := by rw [State.family, hparams, haddr]; exact hf
    rw [← haddr] at htarget'
    obtain ⟨hst', hresult⟩ := execGetResolution_onRefBus hs' hf' htarget' hright
      (exec_trace_suffix eset).length_le eget hbus
    rw [hres, withResolution_field (r := s.res) h9 h12] at hresult
    exact ⟨hst, hst', hresult⟩

end

section
/-! The order in which a search finds addresses (R175, R181): two addresses are compared at the first position where
they differ, and a pass finds the next one. -/

namespace Sys2Proof.Machine

/-- Bit i of an address on the wire, search position i + 1 (R101, R171). -/
def romBit (r : Rom) (i : Nat) : Bool := wireBit r.toList i

/-- Two addresses with the same bits at the first n search positions. -/
def AgreeBelow (n : Nat) (r y : Rom) : Prop := ∀ i < n, romBit r i = romBit y i

theorem AgreeBelow.symm {n : Nat} {r y : Rom} (h : AgreeBelow n r y) : AgreeBelow n y r := fun i hi => (h i hi).symm

theorem AgreeBelow.trans {n : Nat} {r y z : Rom} (h : AgreeBelow n r y) (h' : AgreeBelow n y z) : AgreeBelow n r z :=
  fun i hi => (h i hi).trans (h' i hi)

theorem AgreeBelow.mono {m n : Nat} {r y : Rom} (h : AgreeBelow n r y) (hmn : m ≤ n) : AgreeBelow m r y :=
  fun i hi => h i (Nat.lt_of_lt_of_le hi hmn)

theorem AgreeBelow.succ {n : Nat} {r y : Rom} (h : AgreeBelow n r y) (hn : romBit r n = romBit y n) :
    AgreeBelow (n + 1) r y := by
  intro i hi
  rcases Nat.lt_succ_iff_lt_or_eq.mp hi with hlt | rfl
  · exact h i hlt
  · exact hn

theorem wireBits_rom (r : Rom) : wireBits r.toList = (List.range 64).map (romBit r) := by
  rw [wireBits_eq_map, Vector.length_toList]
  rfl

theorem AgreeBelow.eq {r y : Rom} (h : AgreeBelow 64 r y) : r = y := by
  refine Vector.toList_inj.mp (wireBits_injective ?_)
  rw [wireBits_rom, wireBits_rom]
  exact List.map_congr_left fun i hi => h i (List.mem_range.mp hi)

/-- Two addresses differ first at some position. -/
theorem exists_first_difference {r y : Rom} (hne : r ≠ y) : ∃ n < 64, AgreeBelow n r y ∧ romBit r n ≠ romBit y n := by
  have hex : ∃ n, n < 64 ∧ romBit r n ≠ romBit y n := by
    by_contra hno
    push Not at hno
    exact hne (AgreeBelow.eq hno)
  have hmin {i : Nat} (hi : i < Nat.find hex) : romBit r i = romBit y i := by
    by_contra hbit
    exact Nat.find_min hex hi ⟨hi.trans (Nat.find_spec hex).1, hbit⟩
  exact ⟨Nat.find hex, (Nat.find_spec hex).1, fun i hi => hmin hi, (Nat.find_spec hex).2⟩

/-! ## The search key (R181) -/

/-- The number whose binary digits, after those of `key`, are the bits of a list. -/
def keyFrom (key : Nat) (bs : List Bool) : Nat := bs.foldl (fun key b => 2 * key + b.toNat) key

theorem searchKey_eq (r : Rom) : searchKey r = keyFrom 0 ((List.range 64).map (romBit r)) := by
  rw [← wireBits_rom]
  rfl

theorem keyFrom_bounds (bs : List Bool) (key : Nat) :
    key * 2 ^ bs.length ≤ keyFrom key bs ∧ keyFrom key bs < (key + 1) * 2 ^ bs.length := by
  induction bs generalizing key with
  | nil => simp [keyFrom]
  | cons b bs ih =>
    obtain ⟨hlo, hhi⟩ := ih (2 * key + b.toNat)
    have hb : b.toNat ≤ 1 := b.toNat_le
    have hcons : keyFrom key (b :: bs) = keyFrom (2 * key + b.toNat) bs := rfl
    rw [hcons, List.length_cons, Nat.pow_succ]
    constructor <;> nlinarith [Nat.two_pow_pos bs.length]

/-- The first difference decides which of two keys is the smaller. -/
theorem searchKey_lt {r y : Rom} {n : Nat} (hn : n < 64) (h : AgreeBelow n r y) (hr : romBit r n = false)
    (hy : romBit y n = true) : searchKey r < searchKey y := by
  have hsplit (x : Rom) : searchKey x = keyFrom (2 * keyFrom 0 ((List.range n).map (romBit x)) + (romBit x n).toNat)
      ((List.range' (n + 1) (63 - n)).map (romBit x)) := by
    have hrange : List.range 64 = List.range n ++ n :: List.range' (n + 1) (63 - n) := by
      have happend := List.range'_append_1 (s := 0) (m := n) (n := 63 - n + 1)
      rw [Nat.zero_add, show n + (63 - n + 1) = 64 by omega] at happend
      rw [List.range_eq_range', List.range_eq_range', ← List.range'_succ, happend]
    rw [searchKey_eq, hrange, List.map_append, List.map_cons, keyFrom, List.foldl_append]
    rfl
  have hprefix : (List.range n).map (romBit r) = (List.range n).map (romBit y) :=
    List.map_congr_left fun i hi => h i (List.mem_range.mp hi)
  rw [hsplit r, hsplit y, hprefix, hr, hy]
  refine Nat.lt_of_lt_of_le (keyFrom_bounds ..).2 (Nat.le_trans (Nat.le_of_eq ?_) (keyFrom_bounds ..).1)
  simp

theorem searchKey_lt_two_pow (r : Rom) : searchKey r < 2 ^ 64 := by
  have h := (keyFrom_bounds ((List.range 64).map (romBit r)) 0).2
  rwa [← searchKey_eq, List.length_map, List.length_range, Nat.zero_add, Nat.one_mul] at h

/-- Two addresses: at their first difference the smaller one has 0 and the greater one 1. -/
theorem exists_first_difference_cases {r y : Rom} (hne : r ≠ y) : ∃ n < 64, AgreeBelow n r y
    ∧ (romBit r n = false ∧ romBit y n = true ∨ romBit y n = false ∧ romBit r n = true) := by
  obtain ⟨n, hn, hagree, hbit⟩ := exists_first_difference hne
  refine ⟨n, hn, hagree, ?_⟩
  revert hbit
  cases romBit r n <;> cases romBit y n <;> decide

theorem searchKey_lt_iff {r y : Rom} : searchKey r < searchKey y
    ↔ ∃ n < 64, AgreeBelow n r y ∧ romBit r n = false ∧ romBit y n = true := by
  refine ⟨fun hlt => ?_, fun ⟨n, hn, hagree, hr, hy⟩ => searchKey_lt hn hagree hr hy⟩
  obtain ⟨n, hn, hagree, hbits | ⟨hy, hr⟩⟩ := exists_first_difference_cases (r := r) (y := y)
    (by rintro rfl; exact Nat.lt_irrefl _ hlt)
  · exact ⟨n, hn, hagree, hbits⟩
  · exact absurd hlt (Nat.lt_asymm (searchKey_lt hn hagree.symm hy hr))

theorem searchKey_injective : Function.Injective searchKey := by
  intro r y hkey
  by_contra hne
  obtain ⟨n, hn, hagree, ⟨hr, hy⟩ | ⟨hy, hr⟩⟩ := exists_first_difference_cases hne
  · exact Nat.ne_of_lt (searchKey_lt hn hagree hr hy) hkey
  · exact Nat.ne_of_gt (searchKey_lt hn hagree.symm hy hr) hkey

/-! ## What a pass finds -/

/-- The bit that the rule sends at a discrepancy of position n + 1, with the previous pass's `LD` and address (R175). -/
def choice (ld : Nat) (old : Rom) (n : Nat) : Bool :=
  if n + 1 = ld then true else if ld < n + 1 then false else romBit old n

/-- At position n + 1 the addresses of `S` that agree with r so far have both bits. -/
def DiscrepancyAt (S : List Rom) (r : Rom) (n : Nat) : Prop := ∃ y ∈ S, AgreeBelow n r y ∧ romBit y n ≠ romBit r n

/-- A pass over the addresses `S` that came to r: at each discrepancy it went the way the rule sends (R175). -/
structure PassTo (S : List Rom) (ld : Nat) (old r : Rom) : Prop where
  mem : r ∈ S
  obeys : ∀ n < 64, DiscrepancyAt S r n → romBit r n = choice ld old n

/-- `lz` is the highest position where the pass to r took 0 at a discrepancy, 0 when there is none (R176). -/
structure LastZero (S : List Rom) (r : Rom) (lz : Nat) : Prop where
  le : lz ≤ 64
  zero : ∀ n, lz = n + 1 → romBit r n = false ∧ DiscrepancyAt S r n
  highest : ∀ n < 64, romBit r n = false → DiscrepancyAt S r n → n < lz

variable {S : List Rom} {ld lz : Nat} {old r : Rom}

/-- The pass took the other way at the first position where another address differs. -/
theorem PassTo.lt_of_choice_false (h : PassTo S ld old r) {y : Rom} (hy : y ∈ S) {n : Nat} (hn : n < 64)
    (hagree : AgreeBelow n r y) (hbit : romBit r n ≠ romBit y n) (hc : choice ld old n = false) :
    searchKey r < searchKey y := by
  have hr : romBit r n = false := (h.obeys n hn ⟨y, hy, hagree, hbit.symm⟩).trans hc
  rw [hr, ne_eq, eq_comm, Bool.not_eq_false] at hbit
  exact searchKey_lt hn hagree hr hbit

/-- The first pass finds the least address (R181). -/
theorem PassTo.least_of_first (h : PassTo S 0 old r) : ∀ y ∈ S, y ≠ r → searchKey r < searchKey y := by
  intro y hy hne
  obtain ⟨n, hn, hagree, hbit⟩ := exists_first_difference hne.symm
  exact h.lt_of_choice_false hy hn hagree hbit (by simp [choice])

/-- With no 0 taken at a discrepancy there is no greater address (R178). -/
theorem LastZero.no_greater (h : LastZero S r 0) : ∀ y ∈ S, ¬ searchKey r < searchKey y := by
  intro y hy hlt
  obtain ⟨n, hn, hagree, hr, hbit⟩ := searchKey_lt_iff.mp hlt
  exact absurd (h.highest n hn hr ⟨y, hy, hagree, by rw [hr, hbit]; decide⟩) (Nat.not_lt_zero n)

/-- Up to the position of `LD` a pass goes the way of the one before it (R175). -/
theorem PassTo.agree_below_ld (h : PassTo S (ld + 1) old r) (hold : old ∈ S) (hld : ld < 64) :
    AgreeBelow ld old r := by
  intro n
  induction n using Nat.strong_induction_on with
  | _ n ih =>
    intro hn
    by_contra hbit
    have hagree : AgreeBelow n r old := fun i hi => (ih i hi (hi.trans hn)).symm
    have hr := h.obeys n (hn.trans hld) ⟨old, hold, hagree, hbit⟩
    rw [choice, if_neg (by omega), if_neg (by omega)] at hr
    exact hbit hr.symm

/-- A later pass finds the next greater address (R181). -/
theorem PassTo.next (h : PassTo S (ld + 1) old r) (hold : old ∈ S) (hlz : LastZero S old (ld + 1)) :
    searchKey old < searchKey r ∧ ∀ y ∈ S, searchKey old < searchKey y → y ≠ r → searchKey r < searchKey y := by
  have hld : ld < 64 := hlz.le
  obtain ⟨hzero, x, hx, hxagree, hxbit⟩ := hlz.zero ld rfl
  have hagree := h.agree_below_ld hold hld
  have hrbit : romBit r ld = true := by
    have hdisc : DiscrepancyAt S r ld := by
      cases hr : romBit r ld with
      | false => exact ⟨x, hx, hagree.symm.trans hxagree, by rwa [hr, ← hzero]⟩
      | true => exact ⟨old, hold, hagree.symm, by rw [hr, hzero]; decide⟩
    rw [h.obeys ld hld hdisc, choice, if_pos rfl]
  refine ⟨searchKey_lt hld hagree hzero hrbit, fun y hy hlt hne => ?_⟩
  obtain ⟨n, hn, hyagree, hold0, hy1⟩ := searchKey_lt_iff.mp hlt
  have hnle : n < ld + 1 := hlz.highest n hn hold0 ⟨y, hy, hyagree, by rw [hold0, hy1]; decide⟩
  rcases Nat.lt_succ_iff_lt_or_eq.mp hnle with hnld | rfl
  · exact searchKey_lt hn ((hagree.mono hnld.le).symm.trans hyagree) ((hagree n hnld).symm.trans hold0) hy1
  · have hry : AgreeBelow (n + 1) r y := (hagree.symm.trans hyagree).succ (hrbit.trans hy1.symm)
    obtain ⟨m, hm, hmagree, hmbit⟩ := exists_first_difference hne.symm
    have hnm : n < m := by
      by_contra hle
      exact hmbit (hry m (by omega))
    exact h.lt_of_choice_false hy hm hmagree hmbit
      (by rw [choice, if_neg (by omega), if_pos (by omega)])

end Sys2Proof.Machine
end

section
/-! A pass of ROM search on the reference static bus (R67, R171 to R178). -/

namespace Sys2Proof.Machine

variable {S : List Rom} {ds : List Device} {u : RefBus} {ρ ρ' r old : Rom} {n past : Nat} {a c dir : Bool}

/-! ## The address register (R101, R179) -/

theorem romBit_romOf (sr : BitVec 64) {i : Nat} (hi : i < 64) : romBit (romOf sr) i = sr.getLsbD i := by
  have h8 : i / 8 < 8 := by omega
  have hmod : i % 8 < 8 := Nat.mod_lt _ (by decide)
  rw [romBit, wireBit, List.getD_eq_getElem _ _ (by simpa using h8)]
  simp [romOf, hmod, Nat.div_add_mod]

theorem romBit_setBit (f : Search) (dir : Bool) {i : Nat} (hn : n < 64) (hi : i < 64) :
    romBit (romOf (f.setBit (n + 1) dir).sr) i = if i = n then dir else romBit (romOf f.sr) i := by
  rw [romBit_romOf _ hi, romBit_romOf _ hi, Search.setBit_sr, srSet_getLsbD _ _ _ _ (by omega) (by omega)]
  rfl

/-! ## The bus at a search position -/

/-- Every address of `S` that agrees with ρ below position n + 1 has the bit b there: the line then reads so (R65). -/
def AllBits (S : List Rom) (ρ : Rom) (n : Nat) (b : Bool) : Prop := ∀ y ∈ S, AgreeBelow n ρ y → romBit y n = b

/-- The bus of a search at position n + 1: the devices selected are those that agree with ρ, the bits sent so far. -/
structure SearchesFrom (S : List Rom) (n : Nat) (ρ : Rom) (u : RefBus) : Prop where
  phase : n < 64 → u.phase = .searchBit n
  roms : u.devices.map Device.rom = S
  active : ∀ d ∈ u.devices, d.active = true ↔ AgreeBelow n ρ d.rom
  present : ∃ y ∈ S, AgreeBelow n ρ y

theorem SearchesFrom.not_pullsLow_iff (h : SearchesFrom S n ρ u) {g : Device → Bool} {b : Bool}
    (hg : ∀ d, g d = true ↔ romBit d.rom n = b) : (!pullsLow u.devices g) = true ↔ AllBits S ρ n b := by
  obtain rfl := h.roms
  rw [Bool.not_eq_true', pullsLow, List.any_eq_false, AllBits, List.forall_mem_map]
  refine forall₂_congr fun d hd => ?_
  rw [← h.active d hd, ← hg d, Bool.and_eq_true, Bool.not_eq_true', not_and, Bool.not_eq_false]

/-- Two reads and a write at a search position (R171). -/
theorem RefBus.along_position (h : u.phase = .searchBit n) :
    u.along (readBitEvents a ++ readBitEvents c ++ writeBitEvents dir) =
      { devices := u.devices.map fun d => { d with active := d.active && romBit d.rom n == dir }
        phase := if n = 63 then .quiet else .searchBit (n + 1), low := none, pull := false } := by
  rw [RefBus.along_append, RefBus.along_append, RefBus.along_readBit, RefBus.along_readBit, RefBus.along_writeBit]
  obtain ⟨ds, ph, lf, lv⟩ := u
  subst h
  rfl

theorem SearchesFrom.gives_reads (h : SearchesFrom S n ρ u) (hn : n < 64)
    (hg : u.gives (readBitEvents a ++ readBitEvents c)) :
    (a = true ↔ AllBits S ρ n true) ∧ (c = true ↔ AllBits S ρ n false) := by
  rw [RefBus.gives_append, RefBus.gives_readBit, RefBus.along_readBit, RefBus.gives_readBit] at hg
  obtain ⟨ha, hc⟩ := hg
  have hphase := h.phase hn
  simp only [RefBus.slot, hphase] at ha hc
  rw [ha, hc]
  exact ⟨h.not_pullsLow_iff fun d => Iff.rfl, h.not_pullsLow_iff fun d => by rw [Bool.not_eq_true']; rfl⟩

theorem SearchesFrom.position (h : SearchesFrom S n ρ u) (hn : n < 64) (hρ : AgreeBelow n ρ ρ')
    (hp : ∃ y ∈ S, AgreeBelow (n + 1) ρ' y) : SearchesFrom S (n + 1) ρ'
      (u.along (readBitEvents a ++ readBitEvents c ++ writeBitEvents (romBit ρ' n))) := by
  rw [RefBus.along_position (h.phase hn)]
  refine ⟨fun hlt => if_neg (by omega), ?_, List.forall_mem_map.mpr fun d hd => ?_, hp⟩
  · rw [List.map_map]
    exact h.roms
  · rw [Bool.and_eq_true, h.active d hd, beq_iff_eq]
    exact ⟨fun ⟨hagree, hbit⟩ => (hρ.symm.trans hagree).succ hbit.symm,
      fun hagree => ⟨hρ.trans (hagree.mono (Nat.le_succ n)), (hagree n (Nat.lt_succ_self n)).symm⟩⟩

/-- At a position of a pass to r there is a discrepancy when the addresses left have not all the same bit. -/
theorem discrepancyAt_iff (hr : r ∈ S) (hρ : AgreeBelow n ρ r) :
    DiscrepancyAt S r n ↔ ¬ AllBits S ρ n true ∧ ¬ AllBits S ρ n false := by
  constructor
  · rintro ⟨y, hy, hagree, hbit⟩
    have hall {b : Bool} (h : AllBits S ρ n b) : False :=
      hbit ((h y hy (hρ.trans hagree)).trans (h r hr hρ).symm)
    exact ⟨hall, hall⟩
  · rintro ⟨htrue, hfalse⟩
    have hall : ¬ AllBits S ρ n (romBit r n) := by cases romBit r n <;> assumption
    simp only [AllBits, not_forall] at hall
    obtain ⟨y, hy, hagree, hbit⟩ := hall
    exact ⟨y, hy, hρ.symm.trans hagree, hbit⟩

/-! ## From one position to the end of the pass -/

/-- What a pass that has sent ρ up to position n, with `lz` recorded, comes to: the address r and the record `lz'`. -/
structure PassFrom (S : List Rom) (n lz ld : Nat) (old ρ r : Rom) (lz' : Nat) : Prop where
  agree : AgreeBelow n ρ r
  mem : r ∈ S
  obeys : ∀ m, n ≤ m → m < 64 → DiscrepancyAt S r m → romBit r m = choice ld old m
  ge : lz ≤ lz'
  le : lz' ≤ 64
  zero : lz' = lz ∨ ∃ m, n ≤ m ∧ lz' = m + 1 ∧ romBit r m = false ∧ DiscrepancyAt S r m
  highest : ∀ m, n ≤ m → m < 64 → romBit r m = false → DiscrepancyAt S r m → m < lz'

theorem PassFrom.last {lz ld : Nat} (hmem : r ∈ S) (hlz : lz ≤ 64) : PassFrom S 64 lz ld old r r lz where
  agree _ _ := rfl
  mem := hmem
  obeys m h h' := by omega
  ge := Nat.le_refl lz
  le := hlz
  zero := .inl rfl
  highest m h h' := by omega

/-- One position earlier: it sent the bit of ρ', and recorded itself when that was a 0 at a discrepancy (R176). -/
theorem PassFrom.back {lz lz₁ lz' ld : Nat} (h : PassFrom S (n + 1) lz₁ ld old ρ' r lz') (hρ : AgreeBelow n ρ ρ')
    (hobeys : DiscrepancyAt S r n → romBit ρ' n = choice ld old n) (hlz : lz ≤ n)
    (hrec : romBit ρ' n = false ∧ DiscrepancyAt S r n ∧ lz₁ = n + 1
      ∨ ¬(romBit ρ' n = false ∧ DiscrepancyAt S r n) ∧ lz₁ = lz) : PassFrom S n lz ld old ρ r lz' := by
  have hbit : romBit ρ' n = romBit r n := h.agree n (Nat.lt_succ_self n)
  rw [hbit] at hobeys hrec
  have hge := h.ge
  refine ⟨hρ.trans (h.agree.mono (Nat.le_succ n)), h.mem, fun m hm hm' hd => ?_, by omega, h.le, ?_,
    fun m hm hm' h0 hd => ?_⟩
  · rcases Nat.eq_or_lt_of_le hm with rfl | hlt
    · exact hobeys hd
    · exact h.obeys m hlt hm' hd
  · rcases h.zero with rfl | ⟨m, hm, hz⟩
    · rcases hrec with ⟨h0, hd, he⟩ | ⟨-, he⟩
      · exact .inr ⟨n, Nat.le_refl n, he, h0, hd⟩
      · exact .inl he
    · exact .inr ⟨m, Nat.le_of_succ_le hm, hz⟩
  · rcases Nat.eq_or_lt_of_le hm with rfl | hlt
    · rcases hrec with ⟨-, -, he⟩ | ⟨hno, -⟩
      · omega
      · exact absurd ⟨h0, hd⟩ hno
    · exact h.highest m hlt hm' h0 hd

theorem Search.direction_eq_choice (f : Search) (hn : n < 64) (a c : Bool) :
    f.direction (n + 1) a c = if a ≠ c then a else choice f.ld.toNat (romOf f.sr) n := by
  rw [Search.direction_eq, choice, romBit_romOf _ hn]
  rfl

theorem recordZero_cases (n lz : Nat) {a c dir : Bool} (hac : ¬(a = true ∧ c = true)) :
    (dir = false ∧ (a = false ∧ c = false) ∧ recordZero n lz a c dir = n)
    ∨ ¬(dir = false ∧ a = false ∧ c = false) ∧ recordZero n lz a c dir = lz := by
  revert hac
  cases a <;> cases c <;> cases dir <;> simp [recordZero]

theorem choice_congr {ld : Nat} (h : romBit ρ n = romBit old n) : choice ld ρ n = choice ld old n := by
  rw [choice, choice, h]

/-- The bit sent is one that was read (R171, R175): not a 0 where no device has one, nor a 1. -/
theorem reads_of_direction {x : Bool} (hac : ¬(a = true ∧ c = true)) (hdir : dir = if a ≠ c then a else x) :
    (dir = false → a = false) ∧ (dir = true → c = false) := by
  revert hac
  subst hdir
  cases a <;> cases c <;> simp

/-- Where the devices left have not all the other bit, one is left after the write. -/
theorem exists_agree_succ (hρ : AgreeBelow n ρ ρ') (h : ¬ AllBits S ρ n (!romBit ρ' n)) :
    ∃ y ∈ S, AgreeBelow (n + 1) ρ' y := by
  simp only [AllBits, not_forall, Bool.not_eq_not] at h
  obtain ⟨y, hy, hagree, hbit⟩ := h
  exact ⟨y, hy, (hρ.symm.trans hagree).succ hbit.symm⟩

theorem positions_trace_suffix (k lz : Nat) (p : Phy) (f : Search) : p.trace <:+ (positions k lz p f).phy.trace := by
  rcases positions_outcome k lz p f with ⟨ps, sr, lz', -, -, e⟩ | ⟨ps, sr, -, -, e⟩ <;> rw [e] <;>
    exact Phy.trace_suffix_after ..

/-- The positions from n + 1 on: whatever has been recorded, the pass finds an address that the rule leads to. -/
theorem positions_onRefBus (k : Nat) {n lz : Nat} {p : Phy} {f : Search} (hnk : n + k = 64)
    (hpast : past ≤ p.trace.length) (h : SearchesFrom S n (romOf f.sr) (RefBus.after ds p.trace))
    (hold : ∀ i, n ≤ i → i < 64 → romBit (romOf f.sr) i = romBit old i) (hlz : lz ≤ n)
    (hbus : onRefBus ds past (positions k lz p f).phy.trace = true) :
    ∃ sr lz', (positions k lz p f).found = some (romOf sr)
      ∧ (positions k lz p f).search = ({ f with sr := sr } : Search).close lz'
      ∧ PassFrom S n lz f.ld.toNat old (romOf f.sr) (romOf sr) lz' := by
  induction k generalizing n lz p f with
  | zero =>
    obtain rfl : n = 64 := hnk
    obtain ⟨y, hy, hagree⟩ := h.present
    exact ⟨f.sr, lz, rfl, rfl, .last (hagree.eq ▸ hy) hlz⟩
  | succ k ih =>
    have hn : n < 64 := by omega
    have hk : 64 - k = n + 1 := by omega
    obtain ⟨a, ha⟩ := Phy.follows_bit_exists p
    obtain ⟨c, hc⟩ := Phy.follows_bit_exists (p.after (readBitEvents a))
    have hfollows : p.follows (readBitEvents a ++ readBitEvents c) := (Phy.follows_append ..).mpr ⟨ha, hc⟩
    by_cases hac : a = true ∧ c = true
    · -- a position that reads (1, 1) has no device left
      obtain ⟨rfl, rfl⟩ := hac
      rw [positions_abort hfollows] at hbus
      obtain ⟨htrue, hfalse⟩ := h.gives_reads hn (Phy.gives_of_onRefBus hpast hbus)
      obtain ⟨y, hy, hagree⟩ := h.present
      cases (htrue.mp rfl y hy hagree).symm.trans (hfalse.mp rfl y hy hagree)
    · rw [positions_step hfollows hac, hk] at hbus ⊢
      obtain ⟨dir, hdir⟩ : ∃ dir, dir = f.direction (n + 1) a c := ⟨_, rfl⟩
      rw [← hdir] at hbus ⊢
      rw [Search.direction_eq_choice f hn] at hdir
      have hreads := onRefBus_of_suffix (positions_trace_suffix ..) hbus
      obtain ⟨htrue, hfalse⟩ := h.gives_reads hn
        ((RefBus.gives_append ..).mp (Phy.gives_of_onRefBus hpast hreads)).1
      have hbit : romBit (romOf (f.setBit (n + 1) dir).sr) n = dir := by rw [romBit_setBit f dir hn hn, if_pos rfl]
      have hρ : AgreeBelow n (romOf f.sr) (romOf (f.setBit (n + 1) dir).sr) := fun i hi => by
        rw [romBit_setBit f dir hn (hi.trans hn), if_neg (Nat.ne_of_lt hi)]
      have hpresent : ∃ y ∈ S, AgreeBelow (n + 1) (romOf (f.setBit (n + 1) dir).sr) y := by
        obtain ⟨hzero, hone⟩ := reads_of_direction hac hdir
        refine exists_agree_succ hρ ?_
        rw [hbit]
        cases dir with
        | false => rw [Bool.not_false, ← htrue, hzero rfl]; decide
        | true => rw [Bool.not_true, ← hfalse, hone rfl]; decide
      have hnext := h.position (a := a) (c := c) hn hρ hpresent
      rw [hbit, ← Phy.bus_after] at hnext
      obtain ⟨sr, lz', hfound, hsearch, hpass⟩ := ih (lz := recordZero (n + 1) lz a c dir) (by omega)
        (hpast.trans (Phy.trace_suffix_after ..).length_le) hnext
        (fun i hi hi' => by rw [romBit_setBit f dir hn hi', if_neg (by omega)]; exact hold i (by omega) hi')
        (by rcases recordZero_cases (n + 1) lz hac (dir := dir) with ⟨-, -, e⟩ | ⟨-, e⟩ <;> omega) hbus
      have hdisc : DiscrepancyAt S (romOf sr) n ↔ a = false ∧ c = false := by
        rw [discrepancyAt_iff hpass.mem (hρ.trans (hpass.agree.mono (Nat.le_succ n))), ← htrue, ← hfalse,
          Bool.not_eq_true, Bool.not_eq_true]
      refine ⟨sr, lz', hfound, hsearch, hpass.back hρ (fun hd => ?_) hlz ?_⟩
      · obtain ⟨rfl, rfl⟩ := hdisc.mp hd
        rw [if_neg (not_not.mpr rfl), choice_congr (hold n (Nat.le_refl n) hn)] at hdir
        rw [hbit, Search.setBit_ld, hdir]
      · rw [hbit, hdisc]
        exact recordZero_cases (n + 1) lz hac

theorem findNext_trace_suffix (p : Phy) (f : Search) : p.trace <:+ (findNext p f).phy.trace := by
  obtain ⟨es, c, sh, n, -, -, e⟩ := findNext_outcome sentinel p f
  rw [e, Phy.withRegs_trace]
  exact Phy.trace_suffix_after ..

/-- A pass: its reset alone, or the reset, the command byte and the positions (R172, R173). -/
theorem findNext_cases (p : Phy) {f : Search} (hldf : f.ldf = false) :
    findNext p f = { found := none, phy := p.after (resetEvents 24), search := f.clear }
    ∨ ∃ k < 24, ∃ q : Phy, q.trace = (p.after (resetEvents k ++ writeEvents [0xF0#8])).trace
      ∧ findNext p f = positions 64 0 q f := by
  rcases p.reset_cases with h | ⟨k, hk, h⟩
  · exact .inl (by simp [findNext, hldf, Phy.resetPresence_of_follows (Nat.le_refl 24) h])
  · refine .inr ⟨k, hk, _, Phy.withRegs_trace _ p.crc 0#8 8#4, ?_⟩
    simp [findNext, hldf, Phy.resetPresence_of_follows (Nat.le_of_lt hk) h, hk, Phy.sendWire_eq, Phy.after_append,
      WireCmd.byte]

theorem RefBus.after_isEmpty (ds : List Device) (tr : List Event) :
    (RefBus.after ds tr).devices.isEmpty = ds.isEmpty := by
  obtain ⟨f, hf, -⟩ := RefBus.after_keeps ds tr
  rw [hf, List.isEmpty_map]

/-- The bus gives a pass's reset presence exactly when there is a device (R130, R173). -/
theorem gives_reset_of_onRefBus {p : Phy} {k : Nat} {es : List Event} (hk : k ≤ 24) (hpast : past ≤ p.trace.length)
    (h : onRefBus ds past (p.after (resetEvents k ++ es)).trace = true) : k = if ds.isEmpty then 24 else 0 := by
  have hg := ((RefBus.gives_append ..).mp (Phy.gives_of_onRefBus hpast h)).1
  rwa [RefBus.gives_reset _ hk, RefBus.after_isEmpty] at hg

/-- A pass on a bus without devices finds nothing (R173). -/
theorem findNext_noDevices {p : Phy} {f : Search} (hldf : f.ldf = false) (hpast : past ≤ p.trace.length)
    (hds : ds = []) (hbus : onRefBus ds past (findNext p f).phy.trace = true) : (findNext p f).found = none := by
  rcases findNext_cases p hldf with e | ⟨k, hk, q, hq, e⟩
  · rw [e]
  · rw [e] at hbus
    have hstart := onRefBus_of_suffix (positions_trace_suffix ..) hbus
    rw [hq] at hstart
    have h := gives_reset_of_onRefBus (Nat.le_of_lt hk) hpast hstart
    subst hds
    exact absurd h (Nat.ne_of_lt hk)

/-- After the reset and the command byte every device waits for search position 1 (R67, R172). -/
theorem SearchesFrom.start (u : RefBus) (k : Nat) (ρ : Rom) (hroms : u.devices.map Device.rom = S) (hne : S ≠ []) :
    SearchesFrom S 0 ρ (u.along (resetEvents k ++ writeEvents [0xF0#8])) := by
  rw [RefBus.along_append, RefBus.along_reset, RefBus.along_romCommand _ _ rfl]
  refine ⟨fun _ => rfl, ?_, List.forall_mem_map.mpr fun d _ => iff_of_true rfl nofun, ?_⟩
  · rw [← hroms, RefBus.fresh, List.map_map]
    rfl
  · obtain ⟨y, hy⟩ := List.exists_mem_of_ne_nil S hne
    exact ⟨y, hy, nofun⟩

theorem PassFrom.whole {ld lz : Nat} (h : PassFrom S 0 0 ld old ρ r lz) : PassTo S ld old r ∧ LastZero S r lz := by
  refine ⟨⟨h.mem, fun n => h.obeys n (Nat.zero_le n)⟩, h.le, fun n hn => ?_, fun n => h.highest n (Nat.zero_le n)⟩
  rcases h.zero with h0 | ⟨m, -, hm, hz⟩
  · omega
  · obtain rfl : n = m := by omega
    exact hz

/-- A pass on a bus with devices finds the address that the rule leads to (R171 to R178). -/
theorem findNext_onRefBus {p : Phy} {f : Search} (hldf : f.ldf = false) (hpast : past ≤ p.trace.length)
    (hne : ds ≠ []) (hbus : onRefBus ds past (findNext p f).phy.trace = true) :
    ∃ sr lz, (findNext p f).found = some (romOf sr)
      ∧ (findNext p f).search = ({ f with sr := sr } : Search).close lz
      ∧ PassTo (ds.map Device.rom) f.ld.toNat (romOf f.sr) (romOf sr)
      ∧ LastZero (ds.map Device.rom) (romOf sr) lz := by
  rcases findNext_cases p hldf with e | ⟨k, hk, q, hq, e⟩
  · rw [e, ← List.append_nil (resetEvents 24)] at hbus
    have h := gives_reset_of_onRefBus (p := p) (k := 24) (es := []) (Nat.le_refl 24) hpast hbus
    rw [List.isEmpty_eq_false_iff.mpr hne] at h
    cases h
  · rw [e] at hbus ⊢
    have hstart := SearchesFrom.start (RefBus.after ds p.trace) k (romOf f.sr) (RefBus.after_keeps ds p.trace).roms
      (mt List.map_eq_nil_iff.mp hne)
    rw [← Phy.bus_after, ← hq] at hstart
    have hgrown : p.trace.length ≤ q.trace.length := by rw [hq]; exact (Phy.trace_suffix_after ..).length_le
    obtain ⟨sr, lz, hfound, hsearch, hpass⟩ := positions_onRefBus 64 (Nat.zero_add 64) (hpast.trans hgrown) hstart
      (fun _ _ _ => rfl) (Nat.le_refl 0) hbus
    exact ⟨sr, lz, hfound, hsearch, hpass.whole⟩

end Sys2Proof.Machine
end

section
/-! The passes of SEARCH_ROM on the reference static bus: they find the devices' addresses in increasing order, each
once (R180 to R182). -/

namespace Sys2Proof.Machine

variable {S rem : List Rom} {ds : List Device} {f : Search} {p : Phy} {s t : State} {x r : Rom} {past fuel count : Nat}

/-- What a search has still to find: `rem`, in order. Either it begins, or the last pass found an address of `S`,
recorded `lz`, and all the greater ones are left. -/
structure SearchReady (S : List Rom) (f : Search) (rem : List Rom) : Prop where
  sorted : rem.Pairwise (searchKey · < searchKey ·)
  state : f.ldf = false ∧ f.ld = 0#7 ∧ (∀ y, y ∈ rem ↔ y ∈ S)
    ∨ ∃ lz, LastZero S (romOf f.sr) lz ∧ romOf f.sr ∈ S ∧ f = f.close lz
      ∧ ∀ y, y ∈ rem ↔ y ∈ S ∧ searchKey (romOf f.sr) < searchKey y

theorem SearchReady.mem_of_mem_rem (h : SearchReady S f rem) {y : Rom} (hy : y ∈ rem) : y ∈ S := by
  rcases h.state with ⟨-, -, hrem⟩ | ⟨lz, -, -, -, hrem⟩
  · exact (hrem y).mp hy
  · exact ((hrem y).mp hy).1

theorem SearchReady.mem_rem_of_lt (h : SearchReady S f rem) {y z : Rom} (hy : y ∈ rem) (hz : z ∈ S)
    (hlt : searchKey y < searchKey z) : z ∈ rem := by
  rcases h.state with ⟨-, -, hrem⟩ | ⟨lz, -, -, -, hrem⟩
  · exact (hrem z).mpr hz
  · exact (hrem z).mpr ⟨hz, ((hrem y).mp hy).2.trans hlt⟩

theorem Search.close_ld_toNat {lz : Nat} (hlz : lz ≤ 64) (f : Search) : (f.close lz).ld.toNat = lz := by
  rw [Search.close_ld, BitVec.toNat_ofNat, Nat.mod_eq_of_lt (by omega)]

theorem Search.close_ldf_eq_decide {lz : Nat} (hlz : lz ≤ 64) (f : Search) : (f.close lz).ldf = decide (lz = 0) := by
  have h := Search.close_ld_toNat hlz f
  rw [Search.close_ld] at h
  rw [Search.close_ldf, Bool.eq_iff_iff, beq_iff_eq, decide_eq_true_iff, ← BitVec.toNat_inj, h]
  rfl

/-- A pass that recorded a position left a greater address (R178). -/
theorem LastZero.exists_greater {lz : Nat} (h : LastZero S r (lz + 1)) : ∃ y ∈ S, searchKey r < searchKey y := by
  obtain ⟨hr, y, hy, hagree, hbit⟩ := h.zero lz rfl
  rw [hr, ne_eq, Bool.not_eq_false] at hbit
  exact ⟨y, hy, searchKey_lt h.le hagree hr hbit⟩

/-- While addresses are left the last pass was not the last one (R178). -/
theorem SearchReady.ldf_false (h : SearchReady S f rem) (hx : x ∈ rem) : f.ldf = false := by
  rcases h.state with ⟨hldf, -⟩ | ⟨lz, hlast, -, hclose, hrem⟩
  · exact hldf
  · rw [hclose, Search.close_ldf_eq_decide hlast.le, decide_eq_false_iff_not]
    rintro rfl
    obtain ⟨hxS, hlt⟩ := (hrem x).mp hx
    exact hlast.no_greater x hxS hlt

/-- The address that the rule leads to is the least of those left (R181). -/
theorem SearchReady.least (h : SearchReady S f rem) (hx : x ∈ rem) (hpass : PassTo S f.ld.toNat (romOf f.sr) r) :
    r ∈ rem ∧ ∀ y ∈ rem, y ≠ r → searchKey r < searchKey y := by
  rcases h.state with ⟨-, hld, hrem⟩ | ⟨lz, hlast, hmem, hclose, hrem⟩
  · rw [hld] at hpass
    exact ⟨(hrem r).mpr hpass.mem, fun y hy => hpass.least_of_first y ((hrem y).mp hy)⟩
  · rw [hclose, Search.close_ld_toNat hlast.le] at hpass
    cases lz with
    | zero =>
      obtain ⟨hxS, hlt⟩ := (hrem x).mp hx
      exact absurd hlt (hlast.no_greater x hxS)
    | succ lz =>
      obtain ⟨hlt, hleast⟩ := hpass.next hmem hlast
      exact ⟨(hrem r).mpr ⟨hpass.mem, hlt⟩, fun y hy => hleast y ((hrem y).mp hy).1 ((hrem y).mp hy).2⟩

theorem eq_head_of_least (hsorted : (x :: rem).Pairwise (searchKey · < searchKey ·)) (hr : r ∈ x :: rem)
    (hleast : ∀ y ∈ x :: rem, y ≠ r → searchKey r < searchKey y) : r = x := by
  by_contra hne
  have hlt := (List.pairwise_cons.mp hsorted).1 r (List.mem_of_ne_of_mem hne hr)
  exact Nat.lt_asymm hlt (hleast x (List.mem_cons_self ..) (Ne.symm hne))

/-- A pass finds the first of the addresses left, and leaves the others (R181). -/
theorem SearchReady.pass (h : SearchReady (ds.map Device.rom) f (x :: rem)) (hpast : past ≤ p.trace.length)
    (hbus : onRefBus ds past (findNext p f).phy.trace = true) :
    (findNext p f).found = some x ∧ SearchReady (ds.map Device.rom) (findNext p f).search rem := by
  have hx : x ∈ x :: rem := List.mem_cons_self ..
  have hds : ds ≠ [] := by
    rintro rfl
    cases h.mem_of_mem_rem hx
  obtain ⟨sr, lz, hfound, hsearch, hpass, hlast⟩ := findNext_onRefBus (h.ldf_false hx) hpast hds hbus
  obtain ⟨hr, hleast⟩ := h.least hx hpass
  obtain rfl := eq_head_of_least h.sorted hr hleast
  obtain ⟨hhead, hsorted⟩ := List.pairwise_cons.mp h.sorted
  rw [hsearch]
  refine ⟨hfound, hsorted, .inr ⟨lz, hlast, hpass.mem, rfl, fun y => ⟨fun hy => ?_, fun ⟨hy, hlt⟩ => ?_⟩⟩⟩
  · exact ⟨h.mem_of_mem_rem (List.mem_cons_of_mem _ hy), hhead y hy⟩
  · refine List.mem_of_ne_of_mem ?_ (h.mem_rem_of_lt hx hy hlt)
    rintro rfl
    exact Nat.lt_irrefl _ hlt

/-- With none left the pass finds nothing: there is no device, or the last pass was the last one (R173). -/
theorem SearchReady.no_pass (h : SearchReady (ds.map Device.rom) f []) (hpast : past ≤ p.trace.length)
    (hbus : onRefBus ds past (findNext p f).phy.trace = true) : (findNext p f).found = none := by
  rcases h.state with ⟨hldf, -, hrem⟩ | ⟨lz, hlast, -, hclose, hrem⟩
  · have hds : ds.map Device.rom = [] :=
      List.eq_nil_iff_forall_not_mem.mpr fun y hy => List.not_mem_nil ((hrem y).mpr hy)
    exact findNext_noDevices hldf hpast (List.map_eq_nil_iff.mp hds) hbus
  · cases lz with
    | zero =>
      have hldf : f.ldf = true := by rw [hclose, Search.close_ldf_eq_decide hlast.le]; rfl
      simp [findNext, hldf]
    | succ lz =>
      obtain ⟨y, hy⟩ := hlast.exists_greater
      exact absurd ((hrem y).mpr hy) List.not_mem_nil

/-! ## The pass loop -/

theorem searchLoop_trace_suffix (fuel count : Nat) (s : State) :
    s.phy.trace <:+ (searchLoop fuel count s).phy.trace := by
  obtain ⟨txs, c, sh, n, g, list, result, status, seq, -, -, -, -, e⟩ := searchLoop_outcome sentinel fuel count s
  rw [e]
  simp only [State.ran_phy, Phy.withRegs_trace]
  exact Phy.trace_suffix_after ..

theorem searchLoop_pass_suffix (fuel count : Nat) (s : State) :
    (findNext s.phy s.search).phy.trace <:+ (searchLoop (fuel + 1) count s).phy.trace := by
  cases hf : (findNext s.phy s.search).found with
  | none => rw [searchLoop_none hf]; exact List.suffix_rfl
  | some rom =>
    cases hv : romValid rom with
    | false => rw [searchLoop_wrongCrc hf hv]; exact searchLoop_trace_suffix fuel count (s.withPass _)
    | true =>
      by_cases hc : count = s.cap
      · rw [searchLoop_full hf hv hc]; exact List.suffix_rfl
      · rw [searchLoop_store hf hv hc]
        exact searchLoop_trace_suffix fuel (count + 1)
          { s.withPass (findNext s.phy s.search) with addrlist := s.addrlist.set count rom }

/-- How a search ends that had stored `count` addresses and had still to find the addresses `valid` with a right CRC
(R180, R182). -/
structure SearchEnd (s : State) (count : Nat) (valid : List Rom) (t : State) : Prop where
  idle : t.seq = .idle
  tooMany : s.cap < count + valid.length → t.status = 0x04#8 ∧ t.result = BitVec.ofNat 32 s.cap
  whole : count + valid.length ≤ s.cap → t.status = (if count + valid.length = 0 then 0x02#8 else 0x00#8)
    ∧ t.result = BitVec.ofNat 32 (count + valid.length)
  stored : count + valid.length ≤ s.cap → s.cap ≤ s.addrlist.length →
    t.addrlist.take (count + valid.length) = s.addrlist.take count ++ valid

theorem SearchEnd.store {valid : List Rom} (hc : count < s.cap)
    (h : SearchEnd { s.withPass (findNext s.phy s.search) with addrlist := s.addrlist.set count x } (count + 1) valid t) :
    SearchEnd s count (x :: valid) t := by
  have hlen : count + (x :: valid).length = count + 1 + valid.length := by rw [List.length_cons]; omega
  refine ⟨h.idle, hlen ▸ h.tooMany, hlen ▸ h.whole, fun hle hcap => ?_⟩
  rw [hlen] at hle ⊢
  have hlt : count < (s.addrlist.set count x).length := by rw [List.length_set]; omega
  have htake : (s.addrlist.set count x).take (count + 1) = s.addrlist.take count ++ [x] := by
    rw [List.take_succ_eq_append_getElem hlt, List.take_set_of_le (Nat.le_refl _), List.getElem_set_self]
  have hstored := h.stored hle (by rw [List.length_set]; exact hcap)
  rw [htake, List.append_assoc, List.singleton_append] at hstored
  exact hstored

/-- The pass loop, from a state in which `rem` is left. -/
theorem searchLoop_onRefBus (h : SearchReady (ds.map Device.rom) s.search rem) (hfuel : rem.length < fuel)
    (hcount : count ≤ s.cap) (hpast : past ≤ s.phy.trace.length)
    (hbus : onRefBus ds past (searchLoop fuel count s).phy.trace = true) :
    SearchEnd s count (rem.filter romValid) (searchLoop fuel count s) := by
  obtain ⟨fuel, rfl⟩ : ∃ n, fuel = n + 1 := ⟨fuel - 1, by omega⟩
  have hpassBus := onRefBus_of_suffix (searchLoop_pass_suffix fuel count s) hbus
  induction rem generalizing fuel count s with
  | nil =>
    rw [searchLoop_none (h.no_pass hpast hpassBus)]
    have hstatus : statusCode (if count = 0 then .noDevice else .ok) = if count = 0 then 0x02#8 else 0x00#8 := by
      split <;> rfl
    exact ⟨rfl, fun hlt => absurd hlt (Nat.not_lt.mpr hcount), fun _ => ⟨hstatus, rfl⟩,
      fun _ _ => (List.append_nil _).symm⟩
  | cons x rem ih =>
    obtain ⟨hfound, hnext⟩ := h.pass hpast hpassBus
    have hgrown := hpast.trans (findNext_trace_suffix s.phy s.search).length_le
    obtain ⟨fuel, rfl⟩ : ∃ n, fuel = n + 1 := ⟨fuel - 1, by rw [List.length_cons] at hfuel; omega⟩
    have hfuel' : rem.length < fuel + 1 := Nat.lt_of_succ_lt_succ hfuel
    cases hv : romValid x with
    | false =>
      rw [List.filter_cons_of_neg (by simp [hv])]
      rw [searchLoop_wrongCrc hfound hv] at hbus ⊢
      have hend := ih (s := s.withPass (findNext s.phy s.search)) hnext hcount hgrown fuel hfuel' hbus
        (onRefBus_of_suffix (searchLoop_pass_suffix ..) hbus)
      exact ⟨hend.idle, hend.tooMany, hend.whole, hend.stored⟩
    | true =>
      rw [List.filter_cons_of_pos hv]
      by_cases hc : count = s.cap
      · rw [searchLoop_full hfound hv hc]
        have hover : s.cap < count + (x :: rem.filter romValid).length := by rw [List.length_cons]; omega
        exact ⟨rfl, fun _ => ⟨rfl, by rw [← hc]; rfl⟩, fun hle => absurd hover (Nat.not_lt.mpr hle),
          fun hle => absurd hover (Nat.not_lt.mpr hle)⟩
      · have hlt : count < s.cap := Nat.lt_of_le_of_ne hcount hc
        rw [searchLoop_store hfound hv hc] at hbus ⊢
        exact .store hlt (ih (s := { s.withPass (findNext s.phy s.search) with
          addrlist := s.addrlist.set count x }) hnext hlt hgrown fuel hfuel' hbus
          (onRefBus_of_suffix (searchLoop_pass_suffix ..) hbus))

/-! ## All the addresses, in order (R181, R183) -/

/-- The addresses of the devices in increasing order of their keys. -/
def sortedRoms (S : List Rom) : List Rom := S.mergeSort fun a b => searchKey a ≤ searchKey b

theorem sortedRoms_perm (S : List Rom) : (sortedRoms S).Perm S := List.mergeSort_perm ..

theorem sortedRoms_sorted (h : S.Nodup) : (sortedRoms S).Pairwise (searchKey · < searchKey ·) := by
  have hle : (sortedRoms S).Pairwise fun a b => decide (searchKey a ≤ searchKey b) = true :=
    List.pairwise_mergeSort (le := fun a b => decide (searchKey a ≤ searchKey b))
      (fun _ _ _ hab hbc => decide_eq_true (Nat.le_trans (of_decide_eq_true hab) (of_decide_eq_true hbc)))
      (fun a b => by simp [Nat.le_total]) S
  refine (hle.and ((sortedRoms_perm S).nodup_iff.mpr h)).imp fun ⟨hab, hne⟩ => ?_
  exact Nat.lt_of_le_of_ne (of_decide_eq_true hab) (searchKey_injective.ne hne)

theorem length_le_of_nodup_of_lt {α : Type} {l : List α} {key : α → Nat} {N : Nat} (hkey : Function.Injective key)
    (hl : l.Nodup) (hlt : ∀ a ∈ l, key a < N) : l.length ≤ N := by
  have hsub : l.map key ⊆ List.range N := fun k hk => by
    obtain ⟨a, ha, rfl⟩ := List.mem_map.mp hk
    exact List.mem_range.mpr (hlt a ha)
  have h := ((hl.map hkey).subperm hsub).length_le
  rwa [List.length_map, List.length_range] at h

/-- `passBound` is more passes than distinct addresses need (R183; log entry 6). -/
theorem sortedRoms_length_lt_passBound (h : S.Nodup) : (sortedRoms S).length < passBound :=
  Nat.lt_succ_of_le (length_le_of_nodup_of_lt searchKey_injective ((sortedRoms_perm S).nodup_iff.mpr h)
    fun r _ => searchKey_lt_two_pow r)

theorem SearchReady.first (h : S.Nodup) (f : Search) : SearchReady S f.clear (sortedRoms S) :=
  ⟨sortedRoms_sorted h, .inl ⟨rfl, rfl, fun _ => (sortedRoms_perm S).mem_iff⟩⟩

theorem validDevices_roms (ds : List Device) :
    (validDevices ds).map Device.rom = (ds.map Device.rom).filter romValid := by
  rw [List.filter_map]
  rfl

theorem sortedRoms_valid_perm (ds : List Device) :
    ((sortedRoms (ds.map Device.rom)).filter romValid).Perm ((validDevices ds).map Device.rom) := by
  rw [validDevices_roms]
  exact (sortedRoms_perm _).filter _

/-- SEARCH_ROM on the reference bus: it stores the addresses with a right CRC, the smaller key first (R180 to R182). -/
theorem execSearchRom_onRefBus (hs : s.session = true) (hnd : (ds.map Device.rom).Nodup)
    (hcap : s.cap ≤ s.params.addrlistDepth) (e : execSearchRom s = .next t)
    (hbus : onRefBus ds s.phy.trace.length t.phy.trace = true) :
    SearchEnd s 0 ((sortedRoms (ds.map Device.rom)).filter romValid) t := by
  cases (execSearchRom_loop hs hcap).symm.trans e
  have h := searchLoop_onRefBus (s := { s with search := s.search.clear }) (.first hnd s.search)
    (sortedRoms_length_lt_passBound hnd) (Nat.zero_le _) (Nat.le_refl _) hbus
  exact ⟨h.idle, h.tooMany, h.whole, h.stored⟩

end Sys2Proof.Machine
end

section
open Sys2Proof.Machine

/-- Settles O36: the passes find the addresses in the order of their keys, and those with a right CRC are stored. -/
theorem searchIsCompleteOnTheStaticBus : Obligations.SearchIsCompleteOnTheStaticBus := by
  rintro x s t ds valid hs hnd rfl hroom hcap hlen e hbus
  have hend := execSearchRom_onRefBus hs hnd hcap e hbus
  have hperm := sortedRoms_valid_perm ds
  have hcount : 0 + ((sortedRoms (ds.map Device.rom)).filter romValid).length = (validDevices ds).length := by
    rw [Nat.zero_add, hperm.length_eq, List.length_map]
  obtain ⟨hstatus, hresult⟩ := hend.whole (hcount ▸ hroom)
  have hstored := hend.stored (hcount ▸ hroom) (hlen ▸ hcap)
  rw [hcount] at hstatus hresult hstored
  rw [hstored]
  exact ⟨hend.idle, hstatus, hresult, hperm, (sortedRoms_sorted hnd).filter _⟩

/-- Settles O37: the pass that finds one address with a right CRC more than CAP ends the search. -/
theorem searchReportsTooManyOnTheStaticBus : Obligations.SearchReportsTooManyOnTheStaticBus := by
  intro x s t ds hs hnd hover hcap e hbus
  have hend := execSearchRom_onRefBus hs hnd hcap e hbus
  have hcount : 0 + ((sortedRoms (ds.map Device.rom)).filter romValid).length = (validDevices ds).length := by
    rw [Nat.zero_add, (sortedRoms_valid_perm ds).length_eq, List.length_map]
  exact ⟨hend.idle, hend.tooMany (hcount ▸ hover)⟩

end

section
/-! The code of an instruction and back: the opcode map, the wire bytes and the two fields of a `CMD` word (R90, R91,
R98). -/

namespace Sys2Proof.Machine

theorem encode_hostInstr (cmd : HostOp) (x : BitVec 24) : encode (cmd.instr x) = hostWord cmd x := by
  cases cmd <;> rfl

theorem encode_wireInstr (c : WireCmd) : encode c.instr = .wire c.byte := by
  cases c <;> rfl

/-- Each row of the opcode table is a host command with its ignored bits, or a wire command. -/
theorem instr_cases (i : Instr) :
    (∃ (cmd : HostOp) (x : BitVec 24), i = cmd.instr x) ∨ ∃ c : WireCmd, i = c.instr := by
  cases i with
  | init x => exact .inl ⟨.init, x, rfl⟩
  | destroy x => exact .inl ⟨.destroy, x, rfl⟩
  | resetBus x => exact .inl ⟨.resetBus, x, rfl⟩
  | readRom x => exact .inl ⟨.readRom, x, rfl⟩
  | searchRom x => exact .inl ⟨.searchRom, x, rfl⟩
  | readPowerSupply x => exact .inl ⟨.readPowerSupply, x, rfl⟩
  | readScratchpad x => exact .inl ⟨.readScratchpad, x, rfl⟩
  | writeScratchpad x => exact .inl ⟨.writeScratchpad, x, rfl⟩
  | convertDuration x => exact .inl ⟨.convertDuration, x, rfl⟩
  | convertTemperature x => exact .inl ⟨.convertTemperature, x, rfl⟩
  | getTemperature x => exact .inl ⟨.getTemperature, x, rfl⟩
  | getResolution x => exact .inl ⟨.getResolution, x, rfl⟩
  | setResolution x => exact .inl ⟨.setResolution, x, rfl⟩
  | crc8 x => exact .inl ⟨.crc8, x, rfl⟩
  | wSearchRom => exact .inr ⟨.searchRom, rfl⟩
  | wReadRom => exact .inr ⟨.readRom, rfl⟩
  | wMatchRom => exact .inr ⟨.matchRom, rfl⟩
  | wSkipRom => exact .inr ⟨.skipRom, rfl⟩
  | wAlarmSearch => exact .inr ⟨.alarmSearch, rfl⟩
  | wConvertT => exact .inr ⟨.convertT, rfl⟩
  | wWriteScratchpad => exact .inr ⟨.writeScratchpad, rfl⟩
  | wReadScratchpad => exact .inr ⟨.readScratchpad, rfl⟩
  | wReadPowerSupply => exact .inr ⟨.readPowerSupply, rfl⟩

theorem decodeOp_opcode (cmd : HostOp) : decodeOp cmd.opcode = some cmd := by
  cases cmd <;> rfl

theorem decodeWire_byte (c : WireCmd) : decodeWire c.byte = some c := by
  cases c <;> rfl

theorem eq_byte_of_decodeWire {b : Byte} {c : WireCmd} (h : decodeWire b = some c) : b = c.byte := by
  revert b
  cases c <;> decide

/-- A `CMD` word is its two fields (R90). -/
theorem cmdIgnored_append_cmdOp (w : Word) : cmdIgnored w ++ cmdOp w = w :=
  (BitVec.extractLsb'_append_extractLsb'_eq_extractLsb' rfl).trans BitVec.extractLsb'_eq_self

theorem decode_hostWord (cmd : HostOp) (x : BitVec 24) : decode (hostWord cmd x) = .ok (cmd.instr x) := by
  have hop : cmdOp (x ++ cmd.opcode) = cmd.opcode := BitVec.extractLsb'_append_eq_right
  have hx : cmdIgnored (x ++ cmd.opcode) = x := BitVec.extractLsb'_append_eq_left
  simp only [hostWord, decode, hop, hx, decodeOp_opcode]

theorem decode_wireByte (c : WireCmd) : decode (.wire c.byte) = .ok c.instr := by
  simp only [decode, decodeWire_byte]

theorem decode_wire_ok {b : Byte} {i : Instr} (h : decode (.wire b) = .ok i) :
    ∃ c : WireCmd, b = c.byte ∧ i = c.instr := by
  rw [decode] at h
  cases hb : decodeWire b with
  | none => simp [hb] at h
  | some c =>
    simp only [hb, Except.ok.injEq] at h
    exact ⟨c, eq_byte_of_decodeWire hb, h.symm⟩

/-- The reserved opcodes of R93 are rejected by name. -/
theorem decode_host_reserved {w : Word} (h : w &&& 0xFF#32 = 0#32 ∨ 0x0F#32 ≤ w &&& 0xFF#32) :
    decode (.host w) = .error (.reservedOpcode (cmdOp w)) := by
  have hop : decodeOp (cmdOp w) = none :=
    decodeOp_reserved _ (by rw [cmdOp_toNat]; exact h.imp (congrArg BitVec.toNat) BitVec.le_def.mp)
  simp only [decode, hop]

/-! ## The ignored bits (R90, R94) -/

theorem cmdOp_congr {w w' : Word} (h : w &&& 0xFF#32 = w' &&& 0xFF#32) : cmdOp w = cmdOp w' :=
  BitVec.eq_of_toNat_eq (by rw [cmdOp_toNat, cmdOp_toNat, h])

theorem exec_hostInstr_congr (cmd : HostOp) (x y : BitVec 24) (s : State) :
    exec (cmd.instr x) s = exec (cmd.instr y) s := by
  cases cmd <;> rfl

/-- A step of an idle block with a `CMD` word is fixed by the word's `OP` (R90). -/
theorem step_cmd_op {s : State} {w : Word} {rest : List Input} (hq : s.seq = .idle) (h : s.inputs = .cmd w :: rest) :
    step s = match decodeOp (cmdOp w) with
      | some cmd => exec (cmd.instr 0) { s with inputs := rest }
      | none => ({ s with inputs := rest } : State).rejected (.reservedOpcode (cmdOp w)) := by
  rw [step_cmd hq h, decode]
  cases decodeOp (cmdOp w) with
  | none => rfl
  | some cmd => exact exec_hostInstr_congr cmd _ _ _

/-- A write to `CMD` reads no bit of its word but `OP` (R40, R90). -/
theorem State.hostWrite_cmd (s : State) (w : Word) :
    s.hostWrite 0x000 32 w = .next (if s.busy then s else s.start (cmdOp w)) := rfl

/-! ## Families (R104) -/

theorem familyClass_default (b : Byte) : familyClass Config.params b
    = ((List.lookup b Config.defaultFamilies).getD .unknown) := rfl

end Sys2Proof.Machine
end

section
open Sys2Proof Sys2Proof.Machine

/-- Settles O1: the opcode map and the wire bytes are read back as they are written, and a `CMD` word is its ignored
bits and its `OP`. -/
theorem decodeAndEncodeAgree : Obligations.DecodeAndEncodeAgree := by
  refine ⟨fun i => ?_, fun code i h => ?_⟩
  · rcases instr_cases i with ⟨cmd, x, rfl⟩ | ⟨c, rfl⟩
    · rw [encode_hostInstr, decode_hostWord]
    · rw [encode_wireInstr, decode_wireByte]
  · cases code with
    | host w =>
      obtain ⟨cmd, hop, rfl⟩ := decode_host_ok h
      rw [encode_hostInstr, hostWord, ← hop, cmdIgnored_append_cmdOp]
    | wire b =>
      obtain ⟨c, rfl, rfl⟩ := decode_wire_ok h
      rw [encode_wireInstr]

/-- Settles O2: the words are those of the tables' rows, and the two others name no row. -/
theorem writtenWordsDecode : Obligations.WrittenWordsDecode :=
  ⟨decode_hostWord .init 0, decode_hostWord .searchRom 1, decode_hostWord .getTemperature 0xFFFFFF,
    decode_hostWord .crc8 0, decode_host_reserved (.inr (by decide)), decode_wireByte .skipRom,
    decode_wireByte .convertT, rfl⟩

/-- Settles O3: the decoder rejects the word, and the rejection is a `finish`. -/
theorem reservedOpcodeChangesOnlyStatus : Obligations.ReservedOpcodeChangesOnlyStatus := by
  intro s w rest hq hin hw
  rw [step_cmd hq hin, decode_host_reserved hw, hq]
  rfl

/-- Settles O4: each of the two forms of a command reads the word's `OP` only. -/
theorem ignoredBitsChangeNothing : Obligations.IgnoredBitsChangeNothing := by
  intro s w w' h
  refine ⟨?_, ?_⟩
  · rw [step_cmd_op rfl rfl, step_cmd_op rfl rfl, cmdOp_congr h]
  · rw [step_write rfl, step_write rfl, State.hostWrite_cmd, State.hostWrite_cmd, cmdOp_congr h]

/-- Settles O5: a step fetches the `CMD` word, or the wire byte of CORE's next line, and runs what it decodes to. -/
theorem stepRunsTheDecodedInstruction : Obligations.StepRunsTheDecodedInstruction := by
  intro s rest i
  refine ⟨fun w hq hin hd => ?_, fun op c ps ret hq hin hd => ?_⟩
  · rw [step_cmd hq hin, hd]
  · cases (decode_wireByte c).symm.trans hd
    exact step_tickByte hq hin

/-- Settles O59: the table has an entry for these five codes and no other. -/
theorem defaultFamilies : Obligations.DefaultFamilies := by
  intro b
  rw [familyClass_default]
  split_ifs with hlegacy hmodern
  · subst hlegacy
    rfl
  · rcases hmodern with rfl | rfl | rfl | rfl <;> rfl
  · rw [List.lookup_eq_none_iff.mpr]
    · rfl
    · simp only [not_or] at hmodern
      simp [Config.defaultFamilies, hlegacy, hmodern]

end

section
/-! How a command ends, and its events as whole transactions (R96, R97, R122, R202). -/

namespace Sys2Proof.Machine

variable {s t : State} {i : Instr} {c : HostOp} {A : Rom} {es : List Event}

/-- No check and no answer of the bus leaves a host command without a next state (R138). -/
theorem exec_hostOp_next (hi : i.hostOp = some c) (s : State) : ∃ t, exec i s = .next t := by
  cases i with
  | wSearchRom | wReadRom | wMatchRom | wSkipRom | wAlarmSearch | wConvertT | wWriteScratchpad | wReadScratchpad
  | wReadPowerSupply => cases hi
  | _ => exact ⟨_, rfl⟩

/-- Every command but SEARCH_ROM ends in a `finish` (R122). -/
theorem Outcome.idle (h : Outcome s i t) (hi : i.hostOp = some c) (hc : c ≠ .searchRom) : t.seq = .idle := by
  cases h with
  | wire _ _ _ _ _ _ _ _ hop | wireElsewhere _ hop => cases hop.symm.trans hi
  | search => cases hi; exact absurd rfl hc
  | _ => rfl

/-- The target of a command's transactions: INIT's probe is for any device (R203), the others' is `ADDR`. -/
def State.targetOf (s : State) (c : HostOp) : Rom := if c = .init then Vector.replicate 8 0x00#8 else s.addr

theorem State.targetOf_init (s : State) : s.targetOf .init = sentinel := rfl
theorem State.targetOf_eq_addr (s : State) (hc : c ≠ .init) : s.targetOf c = s.addr := if_neg hc

/-- Events a command may make: the pin events of INIT or DESTROY, then whole transactions on a target, where RESET_BUS
may stop after presence. -/
def Framed (c : HostOp) (A : Rom) (es : List Event) : Prop :=
  ∃ (pins : List Event) (txs : List (List Event)), es = pins ++ txs.flatten
    ∧ (pins = [] ∨ (c = .init ∧ pins = [.act .release, .act .spuOff]) ∨ (c = .destroy ∧ pins = [.act .release]))
    ∧ ∀ tx ∈ txs, Transaction A tx ∨ (c = .resetBus ∧ ∃ k < 24, tx = resetEvents k)

theorem Framed.transactions {txs : List (List Event)} (h : ∀ tx ∈ txs, Transaction A tx) : Framed c A txs.flatten :=
  ⟨[], txs, rfl, .inl rfl, fun tx htx => .inl (h tx htx)⟩

theorem Framed.nil : Framed c A [] := .transactions (txs := []) nofun

theorem Framed.one (h : Transaction A es) : Framed c A es := by
  simpa using Framed.transactions (c := c) (txs := [es]) (by simpa using h)

theorem Framed.two {fs : List Event} (h : Transaction A es) (h' : Transaction A fs) : Framed c A (es ++ fs) := by
  simpa using Framed.transactions (c := c) (txs := [es, fs]) (by simpa using ⟨h, h'⟩)

/-- INIT's probe comes after its two pin events (R203). -/
theorem Framed.probe (h : Transaction A es) : Framed .init A ([.act .release, .act .spuOff] ++ es) :=
  ⟨_, [es], by simp, .inr (.inl ⟨rfl, rfl⟩), fun _ htx => .inl (List.mem_singleton.mp htx ▸ h)⟩

theorem Framed.release : Framed .destroy A [.act .release] := ⟨_, [], rfl, .inr (.inr ⟨rfl, rfl⟩), nofun⟩

/-- RESET_BUS is a reset, with presence or without (R206). -/
theorem Framed.reset {k : Nat} (hk : k ≤ 24) : Framed .resetBus A (resetEvents k) := by
  rcases Nat.lt_or_eq_of_le hk with hlt | rfl
  · exact ⟨[], [resetEvents k], by simp, .inl rfl, by simpa using .inr ⟨k, hlt, rfl⟩⟩
  · exact .one .noPresence

theorem State.mem_convertActs {a : Act} (h : a ∈ s.convertActs) : a = .spuOn ∨ a = .waitMs 750 ∨ a = .spuOff := by
  unfold State.convertActs at h
  rcases List.mem_append.mp h with h | h
  · split at h <;> simp_all
  · split at h <;> simp_all [Config.tConv]

theorem Transaction.writeOperands {k : Nat} (hk : k < 24) (s : State) (A : Rom) :
    Transaction A (resetEvents k ++ selectEvents A ++ writeEvents (0x4E#8 :: s.spOperands)) :=
  .writeScratchpad k _ _ _ hk (by split <;> simp)

theorem State.initSetup_trace (s : State) : s.initSetup.phy.trace = .act .spuOff :: .act .release :: s.phy.trace := rfl

/-- Every end of a command adds framed events to the history (R63, R202). -/
theorem Outcome.framed (h : Outcome s i t) (hi : i.hostOp = some c) :
    ∃ es, t.phy.trace = es.reverse ++ s.phy.trace ∧ Framed c (s.targetOf c) es := by
  cases h with
  | wire _ _ _ _ _ _ _ _ hop | wireElsewhere _ hop => cases hop.symm.trans hi
  | early | crc | durQuick | resQuick => exact ⟨[], rfl, .nil⟩
  | destroy => cases hi; exact ⟨_, rfl, .release⟩
  | initF => cases hi; exact ⟨_, by simp [State.initSetup_trace], .probe .noPresence⟩
  | initT x k b _ _ _ hs hk =>
    cases hi
    rw [State.targetOf_init]
    exact ⟨_, by simp [State.initSetup_trace], .probe (.readPower k b hk)⟩
  | reset x k _ _ _ hk => cases hi; exact ⟨_, Phy.after_trace .., .reset hk⟩
  | noDev | durNone => exact ⟨_, Phy.after_trace .., .one .noPresence⟩
  | readRom x k d _ _ _ _ hk => exact ⟨_, Phy.after_trace .., .one (.readRom k d hk)⟩
  | search x txs _ _ _ _ _ _ _ _ _ _ _ htx =>
    cases hi; exact ⟨_, Phy.after_trace .., .transactions fun tx hmem => (htx tx hmem).1⟩
  | power x k b _ _ _ hk => cases hi; exact ⟨_, Phy.after_trace .., .one (.readPower k b hk)⟩
  | readSp _ cm k d _ _ _ _ _ _ _ _ hop hcm _ _ hk =>
    cases hop.symm.trans hi
    rw [State.targetOf_eq_addr s (by rintro rfl; simp at hcm)]
    exact ⟨_, Phy.after_trace .., .one (.readScratchpad k d hk)⟩
  | writeSp x k _ _ _ hk => cases hi; exact ⟨_, Phy.after_trace .., .one (.writeOperands hk s _)⟩
  | convert x k _ _ _ hk =>
    cases hi; exact ⟨_, Phy.after_trace .., .one (.convert k _ hk fun _ => State.mem_convertActs)⟩
  | setRes x k j d new _ _ _ _ hk hj =>
    cases hi
    refine ⟨_, Phy.after_trace .., .two (.readScratchpad k d hk) ?_⟩
    split
    · next hlt => rw [← List.append_assoc]; exact .writeScratchpad j d[2] d[3] [new] hlt (Nat.le_refl 1)
    · next hge =>
      obtain rfl : j = 24 := Nat.le_antisymm hj (Nat.le_of_not_lt hge)
      rw [List.append_nil]
      exact .noPresence

end Sys2Proof.Machine
end

section
open Sys2Proof.Machine

/-- Settles O40: each command answers a next state, and each of its ends but a search's is a `finish`. -/
theorem everyCommandEnds : Obligations.EveryCommandEnds := by
  intro i c s hi
  obtain ⟨t, e⟩ := exec_hostOp_next hi s
  exact ⟨t, e, (exec_outcome e).idle hi⟩

/-- Settles O44: end by end, the events are pin events and whole transactions. -/
theorem everyTransactionIsFramed : Obligations.EveryTransactionIsFramed := by
  intro i c s t hi e
  obtain ⟨_, htrace, pins, txs, rfl, hpins, htxs⟩ := (exec_outcome e).framed hi
  exact ⟨pins, txs, htrace, hpins, htxs⟩

end

section
/-! What a reset, a slot and a byte leave of the bus side: the line released, the answers used, the pull-up (R130 to
R136). -/

namespace Sys2Proof.Machine

theorem sampleCount_polls (k : Nat) :
    sampleCount (List.replicate k [Event.sample true, .act (.waitUs 10)]).flatten = k := by
  induction k with
  | zero => rfl
  | succ k ih =>
    rw [List.replicate_succ, List.flatten_cons, sampleCount_append, ih, Nat.add_comm]
    rfl

/-- A reset takes one sample per 1 before the first 0, and the 0 itself, or all 24 (R130). -/
theorem sampleCount_reset (k : Nat) : sampleCount (resetEvents k) = if k < 24 then k + 1 else k := by
  rw [resetEvents_split]
  show sampleCount (_ ++ _) = _
  rw [sampleCount_append, sampleCount_append, sampleCount_polls]
  split <;> simp [sampleCount]

@[simp] theorem sampleCount_write (bs : List Byte) : sampleCount (writeEvents bs) = 0 := by
  induction bs with
  | nil => rfl
  | cons v bs ih => rw [writeEvents_cons, sampleCount_append, ih]; simp [writeEvents, bitsOf, sampleCount_append]

@[simp] theorem sampleCount_read (bs : List Byte) : sampleCount (readEvents bs) = 8 * bs.length := by
  induction bs with
  | nil => rfl
  | cons v bs ih =>
    rw [readEvents_cons, sampleCount_append, ih]
    simp [readEvents, bitsOf, sampleCount_append]
    omega

theorem writeEvents_singleton (v : Byte) : writeEvents [v] = (bitsOf v).flatMap writeBitEvents :=
  List.flatMap_singleton ..

theorem readEvents_singleton (v : Byte) : readEvents [v] = (bitsOf v).flatMap readBitEvents :=
  List.flatMap_singleton ..

/-- The whole bus side after a reset: only its `SPU_OFF` touches the pull-up (R130). -/
theorem Phy.after_reset (p : Phy) (k : Nat) : p.after (resetEvents k) =
    { p with spuAct := p.spuAct && !p.spuAvail, dqDrv := false, trace := (resetEvents k).reverse ++ p.trace,
             draws := p.draws.drop (sampleCount (resetEvents k)) } := by
  have hsplit : resetEvents k = .act .spuOff :: (resetEvents k).tail := rfl
  have hline : lineAfter p.dqDrv (resetEvents k).tail = false := lineAfter_reset p.dqDrv k
  calc p.after (resetEvents k) = (p.act .spuOff).after (resetEvents k).tail := rfl
    _ = _ := Phy.after_eq _ _ (noSpu_reset_tail k) hline
    _ = _ := by rw [hsplit]; simp [Phy.act, sampleCount]

end Sys2Proof.Machine
end

section
open Sys2Proof.Machine

/-- Settles O6: some reset always follows, and along it ResetPresence is its events. -/
theorem resetPresenceSamplesAtMost24Times : Obligations.ResetPresenceSamplesAtMost24Times := by
  refine fun p => ⟨p.follows_reset_exists, fun k hk h => ?_⟩
  have hcount : sampleCount (resetEvents k) = if k < 24 then k + 1 else 24 := by
    rw [sampleCount_reset]
    split <;> omega
  rw [Phy.resetPresence_of_follows hk h, Phy.after_reset, hcount]

/-- Settles O7: a slot is its events, which leave the line released and the pull-up alone. -/
theorem slotsHaveTheirTimings : Obligations.SlotsHaveTheirTimings := by
  refine fun p b => ⟨?_, fun h => ?_⟩
  · rw [Phy.writeBit_eq, Phy.after_eq _ _ (noSpu_writeBit b) (lineAfter_writeBit ..), sampleCount_writeBit,
      List.drop_zero]
  · rw [Phy.readBit_of_follows h, Phy.after_eq _ _ (noSpu_readBit b) (lineAfter_readBit ..), sampleCount_readBit,
      List.drop_one]

/-- Settles O8: the loop sends the low bit of `SHIFT` and shifts it out, so the slots are those of bits 0 to 7. -/
theorem writeByteSendsBitZeroFirst : Obligations.WriteByteSendsBitZeroFirst := by
  intro p v
  rw [Phy.writeByte_eq, Phy.after_eq _ _ (noSpu_write [v]) (by simp), sampleCount_write, writeEvents_singleton]
  rfl

/-- Settles O9: the bits shifted in from the top end where they were read, the first one lowest. -/
theorem readBytePutsTheFirstBitLowest : Obligations.ReadBytePutsTheFirstBitLowest := by
  refine fun p => ⟨p.follows_byte_exists, fun v h => ?_⟩
  rw [Phy.readByte_of_follows h, Phy.after_eq _ _ (noSpu_read [v]) (by simp), sampleCount_read, readEvents_singleton]
  rfl

end

section
/-! How long a pass and the commands wait (R139, R320). -/

namespace Sys2Proof.Machine

variable {s t : State} {i : Instr} {c : HostOp} {p : Phy} {f : Search} {es fs : List Event} {k time : Nat}

theorem Phy.follows.left (h : p.follows (es ++ fs)) : p.follows es := ((Phy.follows_append ..).mp h).1

/-- The samples tell a reset without presence from one with (R130). -/
theorem Phy.not_follows_present (h : p.follows (resetEvents 24)) (hk : k < 24) : ¬ p.follows (resetEvents k) := by
  intro hk'
  have e := (Phy.resetPresence_of_follows hk.le hk').symm.trans (Phy.resetPresence_of_follows (Nat.le_refl 24) h)
  simp [hk] at e

theorem busTime_after_trace (p : Phy) (es : List Event) :
    busTime (p.after es).trace = busTime p.trace + microsOf es := by
  rw [Phy.after_trace, busTime_after]

/-! ## Passes -/

theorem findNext_of_ldf (h : f.ldf = true) : findNext p f = { found := none, phy := p, search := f.clear } := by
  rw [findNext, if_pos h]

theorem findNext_absent (hf : f.ldf = false) (h : p.follows (resetEvents 24)) :
    findNext p f = { found := none, phy := p.after (resetEvents 24), search := f.clear } := by
  simp [findNext, hf, Phy.resetPresence_of_follows (Nat.le_refl 24) h]

theorem findNext_present (hf : f.ldf = false) (hk : k < 24) (h : p.follows (resetEvents k)) :
    findNext p f = positions 64 0 ((p.after (resetEvents k ++ writeEvents [0xF0#8])).withRegs p.crc 0#8 8#4) f := by
  simp [findNext, hf, Phy.resetPresence_of_follows hk.le h, hk, Phy.sendWire_eq, Phy.after_append, WireCmd.byte]

/-- Positions take 183 microseconds each, and the one that reads (1, 1) its two read slots (R139, R174). -/
theorem positions_time (k lz : Nat) (p : Phy) (f : Search) :
    ((positions k lz p f).found.isSome = true
      ∧ busTime (positions k lz p f).phy.trace = busTime p.trace + 183 * k)
    ∨ ((positions k lz p f).found = none
      ∧ ∃ m < k, busTime (positions k lz p f).phy.trace = busTime p.trace + (183 * m + 122)) := by
  rcases positions_outcome k lz p f with ⟨ps, sr, lz', hl, -, e⟩ | ⟨ps, sr, hl, -, e⟩
  · rw [e]
    exact .inl ⟨rfl, by rw [busTime_after_trace, microsOf_positions, hl]⟩
  · rw [e]
    exact .inr ⟨rfl, ps.length, hl, by
      simp only [busTime_after_trace, microsOf_append, microsOf_positions, microsOf_readBit]⟩

/-- A pass with presence finds an address, or reads (1, 1) at a position m + 1. -/
theorem findNext_present_time (hf : f.ldf = false) (hk : k < 24) (h : p.follows (resetEvents k)) :
    ((findNext p f).found.isSome = true ∧ busTime (findNext p f).phy.trace = busTime p.trace + 13160)
    ∨ ((findNext p f).found = none
      ∧ ∃ m < 64, busTime (findNext p f).phy.trace = busTime p.trace + (1448 + 183 * m + 122)) := by
  rw [findNext_present hf hk h]
  have hstart : busTime ((p.after (resetEvents k ++ writeEvents [0xF0#8])).withRegs p.crc 0#8 8#4).trace
      = busTime p.trace + 1448 := by
    rw [Phy.withRegs_trace, busTime_after_trace, microsOf_append, microsOf_reset hk.le, microsOf_write]
    rfl
  rcases positions_time 64 0 ((p.after (resetEvents k ++ writeEvents [0xF0#8])).withRegs p.crc 0#8 8#4) f
    with ⟨hfound, htime⟩ | ⟨hfound, m, hm, htime⟩
  · exact .inl ⟨hfound, by omega⟩
  · exact .inr ⟨hfound, m, hm, by omega⟩

theorem findNext_found_time (h : (findNext p f).found.isSome = true) :
    busTime (findNext p f).phy.trace = busTime p.trace + 13160 := by
  cases hf : f.ldf with
  | true => simp [findNext_of_ldf hf] at h
  | false =>
    rcases p.reset_cases with h24 | ⟨k, hk, hp⟩
    · simp [findNext_absent hf h24] at h
    · rcases findNext_present_time hf hk hp with ⟨-, htime⟩ | ⟨hnone, -⟩
      · exact htime
      · simp [hnone] at h

/-- Passes that found an address take 13160 microseconds each. -/
theorem passChain_time {rs : List Pass} (h : passChain p f rs) (hfound : ∀ r ∈ rs, r.found.isSome = true) :
    busTime ((rs.getLast?.map Pass.phy).getD p).trace = busTime p.trace + 13160 * rs.length := by
  induction rs generalizing p f with
  | nil => rfl
  | cons r rs ih =>
    obtain ⟨rfl, hrest⟩ := h
    obtain ⟨hr, hrs⟩ := List.forall_mem_cons.mp hfound
    have hlast : ((findNext p f :: rs).getLast?.map Pass.phy).getD p
        = (rs.getLast?.map Pass.phy).getD (findNext p f).phy := by
      rw [List.getLast?_cons]
      cases rs.getLast? <;> rfl
    rw [hlast, ih hrest hrs, findNext_found_time hr, List.length_cons]
    omega

/-- A pass loop that ends is passes that found an address, and one pass more (R180). -/
theorem searchLoop_passes {fuel count : Nat} (hq : (searchLoop fuel count s).seq = .idle) :
    ∃ (rs : List Pass) (last : Pass), passChain s.phy s.search (rs ++ [last])
      ∧ (∀ r ∈ rs, r.found.isSome = true) ∧ (searchLoop fuel count s).phy = last.phy := by
  induction fuel generalizing count s with
  | zero => cases hq
  | succ fuel ih =>
    cases hf : (findNext s.phy s.search).found with
    | none => exact ⟨[], _, ⟨rfl, trivial⟩, nofun, by rw [searchLoop_none hf]; rfl⟩
    | some rom =>
      have hsome : (findNext s.phy s.search).found.isSome = true := by rw [hf]; rfl
      cases hv : romValid rom with
      | false =>
        rw [searchLoop_wrongCrc hf hv] at hq ⊢
        obtain ⟨rs, last, hchain, hrs, hphy⟩ := ih hq
        exact ⟨_ :: rs, last, ⟨rfl, hchain⟩, List.forall_mem_cons.mpr ⟨hsome, hrs⟩, hphy⟩
      | true =>
        by_cases hcap : count = s.cap
        · exact ⟨[], _, ⟨rfl, trivial⟩, nofun, by rw [searchLoop_full hf hv hcap]; rfl⟩
        · rw [searchLoop_store hf hv hcap] at hq ⊢
          obtain ⟨rs, last, hchain, hrs, hphy⟩ := ih hq
          exact ⟨_ :: rs, last, ⟨rfl, hchain⟩, List.forall_mem_cons.mpr ⟨hsome, hrs⟩, hphy⟩

theorem findNext_time_le (p : Phy) (f : Search) : busTime p.trace ≤ busTime (findNext p f).phy.trace := by
  obtain ⟨es, he⟩ := findNext_trace_suffix p f
  rw [← he, busTime, busTime, List.map_append, List.sum_append]
  exact Nat.le_add_left ..

/-- A search that ends, as passes from its cleared search state (R180). -/
theorem exec_searchRom_passes (hi : i.hostOp = some .searchRom) (e : exec i s = .next t) (hq : t.seq = .idle)
    (ho : s.opensWithReset .searchRom = true) :
    ∃ rs : List Pass, passChain s.phy s.search.clear rs ∧ (∀ r ∈ rs, r.found.isSome = true)
      ∧ t.phy = (findNext ((rs.getLast?.map Pass.phy).getD s.phy)
          ((rs.getLast?.map Pass.search).getD s.search.clear)).phy := by
  cases i with
  | searchRom x =>
    obtain ⟨hs, hcap⟩ := Bool.and_eq_true_iff.mp ho
    cases (execSearchRom_loop hs (of_decide_eq_true hcap)).symm.trans e
    obtain ⟨rs, last, hchain, hfound, hphy⟩ := searchLoop_passes hq
    obtain ⟨hrs, rfl⟩ := (passChain_append ..).mp hchain
    exact ⟨rs, hrs, hfound, hphy⟩
  | _ => cases hi

/-! ## Commands -/

/-- A reset and SelectTarget's bytes (R200): Skip ROM, or Match ROM and the address. -/
def addressedTime (A : Rom) : Nat := if A.toList.all (· == 0#8) then 1448 else 5352

theorem microsOf_addressed (hk : k < 24) (A : Rom) :
    microsOf (resetEvents k ++ selectEvents A) = addressedTime A := by
  rw [microsOf_append, microsOf_reset hk.le, microsOf_select, addressedTime]
  split <;> rfl

theorem microsOf_readSp (hk : k < 24) (A : Rom) (d : Scratchpad) :
    microsOf (readSpEvents k A d) = addressedTime A + 4880 := by
  rw [readSpEvents, microsOf_append, microsOf_append, microsOf_addressed hk]
  simp

theorem microsOf_convertActs (s : State) :
    microsOf (s.convertActs.map .act) = if s.cfg.getLsbD 2 then 750000 else 0 := by
  unfold State.convertActs State.blocking
  cases s.pwr <;> cases s.cfg.getLsbD 2 <;> rfl

theorem length_spOperands (s : State) : s.spOperands.length = if s.family = .modern then 3 else 2 := by
  unfold State.spOperands
  split <;> rfl

/-- The bus side at a command's first reset: INIT's own writes come before its probe (R203). -/
def State.resetPhy (s : State) (c : HostOp) : Phy := if c = .init then s.initSetup.phy else s.phy

/-- How long a command from s that ends in t waits when its first reset finds presence (R320). -/
def State.presentTime (s t : State) (time : Nat) : HostOp → Prop
  | .init => time = 1997
  | .resetBus => time = 960
  | .readRom => time = 5352
  | .readPowerSupply => time = addressedTime s.addr + 549
  | .readScratchpad | .getTemperature | .convertDuration | .getResolution => time = addressedTime s.addr + 4880
  | .writeScratchpad => time = addressedTime s.addr + (if s.family = .modern then 1952 else 1464)
  | .convertTemperature => time = addressedTime s.addr + 488 + (if s.cfg.getLsbD 2 then 750000 else 0)
  | .setResolution => (t.status = 0x00#8 ∧ time = 2 * addressedTime s.addr + 4880 + 1952)
    ∨ (t.status = 0x03#8 ∧ time = addressedTime s.addr + 4880)
    ∨ (t.status = 0x02#8 ∧ time = addressedTime s.addr + 4880 + 960)
  | .searchRom | .destroy | .crc8 => False

/-- The waits of a command: without a reset, with one that no device answers, with presence. A search with a reset adds
up its passes and is not among them. -/
inductive Waits (s t : State) (c : HostOp) (time : Nat) : Prop where
  | none (ho : s.opensWithReset c = false) (htime : time = 0)
  | absent (ho : s.opensWithReset c = true) (hfo : (s.resetPhy c).follows (resetEvents 24)) (htime : time = 960)
  | present (k : Nat) (ho : s.opensWithReset c = true) (hk : k < 24) (hfo : (s.resetPhy c).follows (resetEvents k))
      (htime : s.presentTime t time c)

theorem Waits.time_none (h : Waits s t c time) (ho : s.opensWithReset c = false) : time = 0 := by
  cases h with
  | none _ htime => exact htime
  | absent ho' | present _ ho' => cases ho.symm.trans ho'

theorem Waits.time_absent (h : Waits s t c time) (ho : s.opensWithReset c = true)
    (habs : (s.resetPhy c).follows (resetEvents 24)) : time = 960 := by
  cases h with
  | none ho' => cases ho.symm.trans ho'
  | absent _ _ htime => exact htime
  | present k _ hk hfo => exact absurd hfo (Phy.not_follows_present habs hk)

theorem Waits.time_present (h : Waits s t c time) (ho : s.opensWithReset c = true) (hk : k < 24)
    (hpres : (s.resetPhy c).follows (resetEvents k)) : s.presentTime t time c := by
  cases h with
  | none ho' => cases ho.symm.trans ho'
  | absent _ habs => exact absurd hpres (Phy.not_follows_present habs hk)
  | present _ _ _ _ htime => exact htime

/-- The time of a command's own events. -/
theorem time_eq_microsOf (ht : busTime t.phy.trace = busTime s.phy.trace + time)
    (he : t.phy.trace = es.reverse ++ s.phy.trace) : time = microsOf es := by
  rw [he, busTime_after] at ht
  omega

/-- Every end of a command but a search's takes the time of its events (R139, R320). -/
theorem Outcome.waits (h : Outcome s i t) (hi : i.hostOp = some c) (hc : c = .searchRom → s.opensWithReset c = false)
    (ht : busTime t.phy.trace = busTime s.phy.trace + time) : Waits s t c time := by
  cases h with
  | wire _ _ _ _ _ _ _ _ hop | wireElsewhere _ hop => cases hop.symm.trans hi
  | search x _ _ _ _ _ _ _ _ _ hs hcap =>
    cases hi
    simpa [State.opensWithReset, hs, Nat.not_lt.mpr hcap] using hc rfl
  | early _ cm _ hop ho =>
    cases hop.symm.trans hi
    exact .none ho (time_eq_microsOf (es := []) ht rfl)
  | crc => cases hi; exact .none rfl (time_eq_microsOf (es := []) ht rfl)
  | destroy => cases hi; exact .none rfl (time_eq_microsOf (es := [.act .release]) ht rfl)
  | durQuick x hf => cases hi; exact .none (by simp [State.opensWithReset, hf]) (time_eq_microsOf (es := []) ht rfl)
  | resQuick x hf => cases hi; exact .none (by simp [State.opensWithReset, hf]) (time_eq_microsOf (es := []) ht rfl)
  | initF x _ _ _ hs hfo =>
    cases hi
    refine .absent (by simp [State.opensWithReset, hs]) hfo ?_
    rw [time_eq_microsOf (es := [.act .release, .act .spuOff] ++ resetEvents 24) ht (by simp [State.initSetup_trace]),
      microsOf_append, microsOf_reset (Nat.le_refl 24)]
    rfl
  | initT x k b _ _ _ hs hk hfo =>
    cases hi
    refine .present k (by simp [State.opensWithReset, hs]) hk hfo.left.left.left ?_
    show time = 1997
    rw [time_eq_microsOf (es := [.act .release, .act .spuOff] ++ (resetEvents k ++ selectEvents sentinel
        ++ writeEvents [0xB4#8] ++ readBitEvents b)) ht (by simp [State.initSetup_trace]),
      microsOf_append, microsOf_append, microsOf_append, microsOf_addressed hk, microsOf_write, microsOf_readBit]
    rfl
  | reset x k _ _ _ hk hs hfo =>
    cases hi
    have htime : time = 960 := (time_eq_microsOf ht (Phy.after_trace ..)).trans (microsOf_reset hk)
    rcases Nat.lt_or_eq_of_le hk with hlt | rfl
    · exact .present k hs hlt hfo htime
    · exact .absent hs hfo htime
  | noDev _ cm _ _ _ hop hcm _ ho hfo =>
    cases hop.symm.trans hi
    refine .absent ho ?_ ((time_eq_microsOf ht (Phy.after_trace ..)).trans (microsOf_reset (Nat.le_refl 24)))
    rwa [State.resetPhy, if_neg (by rintro rfl; simp at hcm)]
  | durNone x _ _ _ hf hs hfo =>
    cases hi
    exact .absent (by simp [State.opensWithReset, hs, hf]) hfo
      ((time_eq_microsOf ht (Phy.after_trace ..)).trans (microsOf_reset (Nat.le_refl 24)))
  | readRom x k d _ _ _ _ hk hs hfo =>
    cases hi
    refine .present k hs hk hfo.left.left ((time_eq_microsOf ht (Phy.after_trace ..)).trans ?_)
    simp [microsOf_append, microsOf_reset hk.le]
  | power x k b _ _ _ hk hs hfo =>
    cases hi
    refine .present k hs hk hfo.left.left.left ((time_eq_microsOf ht (Phy.after_trace ..)).trans ?_)
    rw [microsOf_append, microsOf_append, microsOf_addressed hk, microsOf_write, microsOf_readBit]
    rfl
  | readSp _ cm k d _ _ _ _ _ _ _ st hop hcm _ _ hk _ ho hst hfo =>
    cases hop.symm.trans hi
    have htime : time = addressedTime s.addr + 4880 :=
      (time_eq_microsOf ht (Phy.after_trace ..)).trans (microsOf_readSp hk ..)
    have hphy : s.resetPhy c = s.phy := if_neg (by rintro rfl; simp at hcm)
    refine .present k ho hk (by rw [hphy]; exact hfo.left.left.left) ?_
    simp only [List.mem_cons, List.not_mem_nil, or_false] at hcm
    rcases hcm with rfl | rfl | rfl | rfl | rfl
    · exact htime
    · exact htime
    · exact htime
    · exact htime
    · exact .inr (.inl ⟨by rw [hst rfl]; rfl, htime⟩)
  | writeSp x k _ _ _ hk hs hfo =>
    cases hi
    refine .present k hs hk hfo.left.left ((time_eq_microsOf ht (Phy.after_trace ..)).trans ?_)
    rw [microsOf_append, microsOf_addressed hk, microsOf_write, List.length_cons, length_spOperands]
    split <;> rfl
  | convert x k _ _ _ hk hs hfo =>
    cases hi
    refine .present k hs hk hfo.left.left.left ((time_eq_microsOf ht (Phy.after_trace ..)).trans ?_)
    rw [microsOf_append, microsOf_append, microsOf_addressed hk, microsOf_write, microsOf_convertActs]
    rfl
  | setRes x k j d new _ _ _ _ hk hj _ ho hfo =>
    cases hi
    refine .present k ho hk hfo.left.left.left.left ?_
    have htime := time_eq_microsOf ht (Phy.after_trace ..)
    rw [microsOf_append, microsOf_readSp hk] at htime
    by_cases hlt : j < 24
    · rw [if_pos hlt, ← List.append_assoc, microsOf_append, microsOf_addressed hlt, microsOf_write] at htime
      exact .inl ⟨by simp [hlt, statusCode], htime.trans (by simp only [List.length_cons, List.length_nil]; ring)⟩
    · rw [if_neg hlt, List.append_nil, microsOf_reset hj] at htime
      exact .inr (.inr ⟨by simp [hlt, statusCode], htime⟩)

end Sys2Proof.Machine
end

section
open Sys2Proof.Machine

/-- Settles O45: a pass by its reset and positions, a search by its passes, and every other command by its ends. -/
theorem commandDurations : Obligations.CommandDurations := by
  refine ⟨fun p f time ht => ⟨fun hf => ?_, fun hf => ⟨fun h => ?_, fun h => ?_, fun k hk h hnone => ?_⟩⟩, ?_⟩
  · rw [findNext_of_ldf hf] at ht
    exact Nat.left_eq_add.mp ht
  · rw [findNext_absent hf h, busTime_after_trace, microsOf_reset (Nat.le_refl 24)] at ht
    omega
  · rw [findNext_found_time h] at ht
    omega
  · rcases findNext_present_time hf hk h with ⟨hfound, -⟩ | ⟨-, m, hm, htime⟩
    · simp [hnone] at hfound
    · exact ⟨m + 1, by omega, by omega, by rw [Nat.add_sub_cancel]; omega⟩
  · intro i c s t p sel conv time hi e hsel hconv hp ht
    subst hsel hconv hp
    refine ⟨fun ho => ?_, fun ho hc => ⟨fun habs => ?_, fun k hk hpres => ?_⟩, fun ho hc hq => ?_⟩
    · exact ((exec_outcome e).waits hi (fun _ => ho) ht).time_none ho
    · exact ((exec_outcome e).waits hi (fun h => absurd h hc) ht).time_absent ho habs
    · have htime := ((exec_outcome e).waits hi (fun h => absurd h hc) ht).time_present ho hk hpres
      refine ⟨?_, ?_, ?_, ?_, fun hmem => ?readSp, ?_, ?_, ?_⟩
      case readSp =>
        simp only [List.mem_cons, List.not_mem_nil, or_false] at hmem
        rcases hmem with rfl | rfl | rfl | rfl <;> exact htime
      all_goals rintro rfl; exact htime
    · subst hc
      obtain ⟨rs, hchain, hfound, hphy⟩ := exec_searchRom_passes hi e hq ho
      have htotal := passChain_time hchain hfound
      have hlast := findNext_time_le ((rs.getLast?.map Pass.phy).getD s.phy)
        ((rs.getLast?.map Pass.search).getD s.search.clear)
      rw [hphy] at ht
      exact ⟨rs, _, _, time - 13160 * rs.length, hchain, hfound, rfl, rfl, hphy, by rw [hphy]; omega, by omega⟩

end

section
/-! The CRC-8 generator (41_crc8.md): the table against the bit-serial rule R155, and the round trip R154. -/

namespace Sys2Proof.Machine

/-- One shift of the reflected CRC register whose byte is already in it: the iteration of R155 with `b = 0`. -/
def crcBit (x : Byte) : Byte := if x.getLsbD 0 then (x >>> 1) ^^^ 0x8C#8 else x >>> 1

/-- One iteration of R155's loop on the register and the byte. -/
def crcStep (cb : Byte × Byte) : Byte × Byte :=
  (if (cb.1 ^^^ cb.2).getLsbD 0 then (cb.1 >>> 1) ^^^ 0x8C#8 else cb.1 >>> 1, cb.2 >>> 1)

/-- `TABLE[i] = CrcBits(0x00, i)` (R155): the 256 constants of R150 can only be checked one by one. -/
theorem crcTable_eq_iterate : ∀ x : Byte, crcTable x = crcBit^[8] x := by decide +kernel

/-- R155's loop sees its register and its byte only through their XOR. -/
theorem crcStep_xor : Function.Semiconj (fun cb : Byte × Byte => cb.1 ^^^ cb.2) crcStep crcBit := by
  rintro ⟨c, b⟩
  simp only [crcStep, crcBit]
  split
  · rw [BitVec.ushiftRight_xor_distrib, BitVec.xor_assoc, BitVec.xor_comm 0x8C#8, ← BitVec.xor_assoc]
  · rw [BitVec.ushiftRight_xor_distrib]

theorem crcStep_iterate_snd (n : Nat) (c b : Byte) : (crcStep^[n] (c, b)).2 = b >>> n := by
  induction n with
  | zero => exact (BitVec.ushiftRight_zero b).symm
  | succ n ih =>
    calc (crcStep^[n + 1] (c, b)).2
      _ = (crcStep^[n] (c, b)).2 >>> 1 := by rw [Function.iterate_succ_apply']; rfl
      _ = b >>> (n + 1) := by rw [ih, BitVec.shiftRight_add]

/-- Eight iterations shift the whole byte out, so the register is what the XOR became. -/
theorem crcStep_iterate_eight (c b : Byte) : (crcStep^[8] (c, b)).1 = crcTable (c ^^^ b) := by
  have hx := crcStep_xor.iterate_right 8 (c, b)
  have hb : (crcStep^[8] (c, b)).2 = 0#8 := by
    rw [crcStep_iterate_snd, BitVec.ushiftRight_eq_zero (Nat.le_refl 8)]
  rw [hb, BitVec.xor_zero] at hx
  rw [hx, crcTable_eq_iterate]

/-- The top bit after a shift is the bit shifted out, for 0x8C has its top bit set. -/
theorem msb_crcBit (x : Byte) : (crcBit x).msb = x.getLsbD 0 := by
  unfold crcBit
  split
  · next h => simp [h, BitVec.msb_eq_getLsbD_last]
  · next h => simpa [BitVec.msb_eq_getLsbD_last] using h

theorem crcBit_injective : Function.Injective crcBit := by
  intro x y h
  have hlow : x.getLsbD 0 = y.getLsbD 0 := by rw [← msb_crcBit, h, msb_crcBit]
  have hhigh : x >>> 1 = y >>> 1 := by
    unfold crcBit at h
    rw [hlow] at h
    split at h
    · exact BitVec.xor_left_inj _ |>.mp h
    · exact h
  refine BitVec.eq_of_getLsbD_eq fun i _ => ?_
  cases i with
  | zero => exact hlow
  | succ i => simpa [Nat.add_comm] using congrArg (BitVec.getLsbD · i) hhigh

/-- `TABLE` is one-to-one (R150, R154). -/
theorem crcTable_injective : Function.Injective crcTable := by
  rw [funext crcTable_eq_iterate]
  exact crcBit_injective.iterate 8

theorem crcTable_eq_zero_iff (x : Byte) : crcTable x = 0x00#8 ↔ x = 0x00#8 :=
  crcTable_injective.eq_iff' rfl

theorem crc8_concat (bs : List Byte) (x : Byte) : crc8 (bs ++ [x]) = crcTable (crc8 bs ^^^ x) :=
  List.foldl_concat ..

theorem execCrc8_of_len_le {s : State} (h : s.len ≤ 9) : execCrc8 s = .next
    ({ s.withPhy { s.phy with crc := crc8 (s.spbuf.toList.take s.len) } with
      result := zextByte (crc8 (s.spbuf.toList.take s.len)) }.finish .ok) := by
  rw [execCrc8, if_neg (Nat.not_lt.mpr h)]

theorem execCrc8_of_lt_len {s : State} (h : 9 < s.len) : execCrc8 s = .next (s.finish .invalidArg) := by
  rw [execCrc8, if_pos h]

end Sys2Proof.Machine
end

section
open Sys2Proof.Machine

/-- Settles O12: both sides are the bit-serial shifts of c ^ b. -/
theorem tableIsTheBitwiseCrc : Obligations.TableIsTheBitwiseCrc := by
  intro c b
  exact (crcStep_iterate_eight c b).symm.trans (congrArg Prod.fst (List.foldl_const crcStep (c, b) (List.range 8)).symm)

/-- Settles O13: the last byte takes the register to 0 only where the two are equal, by the one-to-one table. -/
theorem crcRoundTrip : Obligations.CrcRoundTrip := by
  intro bs x
  rw [crc8_concat, crcTable_eq_zero_iff, BitVec.xor_eq_zero_iff, eq_comm]

/-- Settles O14: the two branches of R156's test of LEN. -/
theorem crc8Command : Obligations.Crc8Command :=
  fun _ _ => ⟨execCrc8_of_len_le, execCrc8_of_lt_len⟩

end

section
/-! One pass of the search along its events, whole or aborted, as an equation (R172 to R179). -/

namespace Sys2Proof.Machine

variable {p : Phy} {f : Search} {a c : Nat → Bool} {r old sr : BitVec 64} {k m n lz : Nat}

/-- The events of a pass with presence up to position m, with what each position reads and sends (R172, R177). -/
def passEvents (k : Nat) (a c : Nat → Bool) (r : BitVec 64) (m : Nat) : List Event :=
  resetEvents k ++ writeEvents [0xF0#8]
    ++ positionEvents ((List.range m).map fun j => (a (j + 1), c (j + 1), r.getLsbD j))

/-- Positions 1 to m read no (1, 1) pair, and r has there the bits that the rule sends (R174, R175). -/
def SendsRule (f : Search) (a c : Nat → Bool) (r : BitVec 64) (m : Nat) : Prop :=
  ∀ n, 1 ≤ n → n ≤ m →
    ¬(a n = true ∧ c n = true) ∧ r.getLsbD (n - 1) = ruleBit f.ld.toNat f.sr n (a n) (c n)

theorem passEvents_eq (k : Nat) (a c : Nat → Bool) (r : BitVec 64) (m : Nat) :
    passEvents k a c r m = resetEvents k ++ writeEvents [0xF0#8] ++ walkEvents a c r 0 m := by
  rw [passEvents, walkEvents, List.range_eq_range']

/-- With `SHIFT` and `BITCNT` out of view only the events count. -/
theorem Phy.masked_after_withRegs (p : Phy) (es : List Event) (sh : Byte) (n : BitVec 4) :
    ((p.after es).withRegs p.crc sh n).masked = (p.after es).masked := by
  simp [Phy.masked, Phy.withRegs]

/-- A walk that built r below n has all of r when r keeps the old bits from n on. -/
theorem WalkState.sr_eq (w : WalkState a c r old n lz sr)
    (hold : ∀ i, n ≤ i → i < 64 → r.getLsbD i = old.getLsbD i) : sr = r := by
  refine BitVec.eq_of_getLsbD_eq fun i hi => ?_
  rcases Nat.lt_or_ge i n with hlt | hge
  · exact w.below i hlt
  · exact (w.above i hge).trans (hold i hge hi).symm

/-- No discrepancy, no position to remember (R178). -/
theorem WalkState.lz_eq_zero (w : WalkState a c r old n lz sr) (h : ∀ i, a i = false → c i ≠ false) : lz = 0 := by
  by_contra hlz
  obtain ⟨ha, hc, -⟩ := w.isZero hlz
  exact h lz ha hc

/-- A pass with presence up to position m: the positions left go on from the walk's state (R172 to R177). -/
theorem findNext_walk (hldf : f.ldf = false) (hk : k < 24) (hm : m ≤ 64) (hr : SendsRule f a c r m)
    (h : p.follows (passEvents k a c r m)) :
    ∃ lz sr, WalkState a c r f.sr m lz sr ∧ findNext p f
      = positions (64 - m) lz ((p.after (passEvents k a c r m)).withRegs p.crc 0#8 8#4) { f with sr := sr } := by
  rw [passEvents_eq, Phy.follows_append] at h
  obtain ⟨hopen, hwalk⟩ := h
  obtain ⟨lz, sr, w, e⟩ := positions_walk (ld := f.ld) (ldf := f.ldf) m 0 (by omega)
    (fun i h1 h2 => hr i h1 (by omega)) (WalkState.start a c r f.sr)
    ((Phy.follows_withRegs _ p.crc 0#8 8#4 _).mpr hwalk)
  rw [Nat.zero_add] at w e
  rw [Phy.after_withRegs, ← Phy.after_append, ← passEvents_eq] at e
  exact ⟨lz, sr, w, (findNext_present hldf hk hopen.left).trans e⟩

/-- A whole pass finds the address of the bits it sent (R178, R179). -/
theorem findNext_whole (hldf : f.ldf = false) (hk : k < 24) (hr : SendsRule f a c r 64)
    (h : p.follows (passEvents k a c r 64)) :
    ∃ lz, WalkState a c r f.sr 64 lz r ∧ findNext p f
      = { found := some (romOf r), phy := (p.after (passEvents k a c r 64)).withRegs p.crc 0#8 8#4,
          search := { f with sr := r }.close lz } := by
  obtain ⟨lz, sr, w, e⟩ := findNext_walk hldf hk (Nat.le_refl 64) hr h
  obtain rfl : sr = r := w.sr_eq fun i h1 h2 => by omega
  exact ⟨lz, w, e⟩

/-- A pass that reads (1, 1) at position m + 1 stops there, with the bits sent below it in `SR` (R174). -/
theorem findNext_abort (hldf : f.ldf = false) (hk : k < 24) (hm : m < 64) (hr : SendsRule f a c r m)
    (hold : ∀ i, m ≤ i → i < 64 → r.getLsbD i = f.sr.getLsbD i)
    (h : p.follows (passEvents k a c r m ++ readBitEvents true ++ readBitEvents true)) :
    findNext p f
      = { found := none,
          phy := (p.after (passEvents k a c r m ++ readBitEvents true ++ readBitEvents true)).withRegs p.crc 0#8 8#4,
          search := { ld := 0#7, ldf := false, sr := r } } := by
  rw [List.append_assoc, Phy.follows_append] at h
  obtain ⟨hpass, hpair⟩ := h
  obtain ⟨lz, sr, w, e⟩ := findNext_walk hldf hk hm.le hr hpass
  obtain rfl : sr = r := w.sr_eq hold
  obtain ⟨j, hj⟩ : ∃ j, 64 - m = j + 1 := ⟨63 - m, by omega⟩
  rw [e, hj, positions_abort ((Phy.follows_withRegs ..).mpr hpair), Phy.after_withRegs, ← Phy.after_append,
    List.append_assoc]
  rfl

end Sys2Proof.Machine
end

section
open Sys2Proof.Machine

/-- Settles O31: the walk over all 64 positions, with its highest 0 at a discrepancy in `LD`. -/
theorem passFollowsTheDiscrepancyRule : Obligations.PassFollowsTheDiscrepancyRule := by
  rintro p f k a c r es hldf hk hr rfl hes
  obtain ⟨lz, w, e⟩ := findNext_whole hldf hk hr hes
  have hld (g : Search) : (g.close lz).ld.toNat = lz := Search.close_ld_toNat w.bound g
  rw [e]
  simp only [hld]
  exact ⟨trivial, Phy.masked_after_withRegs .., rfl, beq_iff_eq, w.bound, w.highest,
    fun hne => w.isZero fun h0 => hne (BitVec.eq_of_toNat_eq ((hld _).trans h0))⟩

/-- Settles O32: the two branches of a pass's opening that send nothing after it. -/
theorem passEndsBeforeAnyBit : Obligations.PassEndsBeforeAnyBit :=
  fun _ _ => ⟨findNext_of_ldf, findNext_absent⟩

/-- Settles O33: the walk over the positions below m, and the pair that ends it. -/
theorem passAbortsOnAContradiction : Obligations.PassAbortsOnAContradiction := by
  rintro p f k m a c r es hldf hk h1 h64 hr hold rfl hes
  have e := findNext_abort (m := m - 1) hldf hk (by omega) (fun n hn hnm => hr n hn (by omega))
    (fun i hmi hi => hold (i + 1) (by omega) hi) hes
  rw [e]
  exact ⟨rfl, Phy.masked_after_withRegs .., rfl⟩

end

section
/-! SEARCH_ROM from a cleared search whose first pass decides it (R174, R180). -/

namespace Sys2Proof.Machine

variable {s : State} {x : BitVec 24} {es : List Event} {a c : Nat → Bool} {r : BitVec 64}
  {k m fuel count : Nat}

/-- In a first pass the rule sends the bit that the devices agree on, and 0 at a discrepancy: the bit read first. -/
theorem sendsRule_of_ld_zero {f : Search} (hld : f.ld = 0#7)
    (h : ∀ n, 1 ≤ n → n ≤ m → ¬(a n = true ∧ c n = true) ∧ r.getLsbD (n - 1) = a n) : SendsRule f a c r m := by
  intro n h1 hm
  obtain ⟨hac, hbit⟩ := h n h1 hm
  refine ⟨hac, hbit.trans ?_⟩
  rw [ruleBit, hld, BitVec.toNat_zero]
  by_cases hne : a n = c n
  · have ha : a n = false := by
      by_contra ht
      rw [Bool.not_eq_false] at ht
      exact hac ⟨ht, hne ▸ ht⟩
    rw [if_neg (not_not.mpr hne), if_neg (Nat.ne_of_gt h1), if_pos (show 0 < n from h1), ha]
  · rw [if_pos hne]

/-- The events of a first pass when the address r of an only device is read: each bit and its complement (R171). -/
def onlyPassEvents (k : Nat) (r : BitVec 64) : List Event :=
  passEvents k (fun n => r.getLsbD (n - 1)) (fun n => !r.getLsbD (n - 1)) r 64

/-- The pass of an only device's address r: no discrepancy, so the search is complete after it (R178). -/
theorem findNext_only {p : Phy} {f : Search} (hldf : f.ldf = false) (hld : f.ld = 0#7) (hk : k < 24)
    (h : p.follows (onlyPassEvents k r)) :
    findNext p f
      = { found := some (romOf r),
          phy := (p.after (onlyPassEvents k r)).withRegs p.crc 0#8 8#4,
          search := { ld := 0#7, ldf := true, sr := r } } := by
  obtain ⟨lz, w, e⟩ := findNext_whole hldf hk (sendsRule_of_ld_zero hld fun n _ _ => ⟨by simp, rfl⟩) h
  obtain rfl : lz = 0 := w.lz_eq_zero fun i hi => by simp [hi]
  exact e

section Loop

variable {p : Phy} {f : Search} {rom : Rom}

theorem searchLoop_of_nothing (h : findNext s.phy s.search = { found := none, phy := p, search := f }) :
    searchLoop (fuel + 1) count s
      = { s with phy := p, search := f, result := BitVec.ofNat 32 count }.finish
          (if count = 0 then .noDevice else .ok) := by
  rw [searchLoop_none (by rw [h]), h]
  rfl

/-- The pass after the last device ends the loop without an event (R173, R180). -/
theorem searchLoop_of_ldf (h : s.search.ldf = true) :
    searchLoop (fuel + 1) count s
      = { s with search := s.search.clear, result := BitVec.ofNat 32 count }.finish
          (if count = 0 then .noDevice else .ok) :=
  searchLoop_of_nothing (findNext_of_ldf h)

variable (h : findNext s.phy s.search = { found := some rom, phy := p, search := f })
include h

/-- A last device with a wrong CRC is skipped (R180, R276). -/
theorem searchLoop_last_wrongCrc (hldf : f.ldf = true) (hv : romValid rom = false) :
    searchLoop (fuel + 2) 0 s = { s with phy := p, search := f.clear, result := 0#32 }.finish .noDevice := by
  have hfound : (findNext s.phy s.search).found = some rom := by rw [h]
  rw [searchLoop_wrongCrc hfound hv, h, searchLoop_of_ldf hldf]
  rfl

/-- A last device with a right CRC is stored where CAP allows it (R180). -/
theorem searchLoop_last_stored (hldf : f.ldf = true) (hv : romValid rom = true) (hroom : 1 ≤ s.cap) :
    searchLoop (fuel + 2) 0 s
      = { s with phy := p, search := f.clear, addrlist := s.addrlist.set 0 rom, result := 1#32 }.finish .ok := by
  have hfound : (findNext s.phy s.search).found = some rom := by rw [h]
  rw [searchLoop_store hfound hv (Nat.ne_of_lt hroom), h, searchLoop_of_ldf hldf]
  rfl

/-- An address with a right CRC is too many where CAP is 0 (R180). -/
theorem searchLoop_first_tooMany (hv : romValid rom = true) (hfull : s.cap = 0) :
    searchLoop (fuel + 1) 0 s = { s with phy := p, search := f, result := 0#32 }.finish .tooMany := by
  have hfound : (findNext s.phy s.search).found = some rom := by rw [h]
  rw [searchLoop_full hfound hv hfull.symm, h]
  rfl

end Loop

/-- SEARCH_ROM runs to what a pass loop of at most two passes leaves (R180); `passBound` allows them. -/
theorem runsTo_searchRom {p : Phy} {f : Search} {list : List Rom} {v : Word} {st : Status}
    (hs : s.session = true) (hcap : s.cap ≤ s.params.addrlistDepth) (hp : p.masked = (s.phy.after es).masked)
    (hloop : ∀ fuel, searchLoop (fuel + 2) 0 { s with search := s.search.clear }
      = { s with phy := p, search := f, addrlist := list, result := v }.finish st) :
    RunsTo (.searchRom x) s
      { (s.ended es (statusCode st)) with search := f, addrlist := list, result := v } := by
  obtain ⟨fuel, hfuel⟩ := Nat.exists_eq_add_of_le' (show 2 ≤ passBound from Nat.succ_le_succ Nat.one_le_two_pow)
  refine ⟨_, execSearchRom_loop hs hcap, ?_⟩
  rw [hfuel, hloop]
  simp only [State.masked, State.finish, State.ended, hp]

/-- A first pass that finds nothing: NO_DEVICE and the count 0 (R180). -/
theorem runsTo_searchRom_nothing {p : Phy} {f : Search} (hs : s.session = true)
    (hcap : s.cap ≤ s.params.addrlistDepth) (hp : p.masked = (s.phy.after es).masked)
    (h : findNext s.phy s.search.clear = { found := none, phy := p, search := f }) :
    RunsTo (.searchRom x) s { (s.ended es 0x02#8) with search := f, result := 0#32 } :=
  runsTo_searchRom (st := .noDevice) hs hcap hp fun _ => searchLoop_of_nothing h

theorem execSearchRom_of_depth_lt_cap (hs : s.session = true) (hcap : s.params.addrlistDepth < s.cap) :
    execSearchRom s = .next (s.finish .invalidArg) := by
  rw [execSearchRom, State.inSession_true hs, if_pos hcap]

end Sys2Proof.Machine
end

section
open Sys2Proof.Machine

/-- Settles O34: the first pass finds nothing, or the only device's address and the search complete. -/
theorem searchRomFindsTheOnlyDevice : Obligations.SearchRomFindsTheOnlyDevice := by
  rintro x s cap hs rfl
  refine ⟨execSearchRom_of_depth_lt_cap hs, fun hcap => ⟨fun habs => ?absent, ?aborted, ?only⟩⟩
  case absent => exact runsTo_searchRom_nothing hs hcap rfl (findNext_absent rfl habs)
  case aborted =>
    rintro k m a c r es hk h1 h64 hr hold rfl hes
    exact runsTo_searchRom_nothing hs hcap (Phy.masked_after_withRegs ..)
      (findNext_abort (m := m - 1) rfl hk (by omega)
        (sendsRule_of_ld_zero rfl fun n hn hnm => hr n hn (by omega))
        (fun i hmi hi => hold (i + 1) (by omega) hi) hes)
  case only =>
    rintro k r rom es hk rfl rfl hes
    have hfind := findNext_only (f := s.search.clear) rfl rfl hk hes
    have hphy := Phy.masked_after_withRegs s.phy (onlyPassEvents k r) 0#8 8#4
    refine ⟨fun hcrc => ?wrongCrc, fun hcrc hroom => ?stored, fun hcrc hfull => ?tooMany⟩
    case wrongCrc =>
      exact runsTo_searchRom (st := .noDevice) hs hcap hphy fun _ =>
        searchLoop_last_wrongCrc (s := { s with search := s.search.clear }) hfind rfl (beq_eq_false_iff_ne.mpr hcrc)
    case stored =>
      exact runsTo_searchRom (st := .ok) hs hcap hphy fun _ =>
        searchLoop_last_stored (s := { s with search := s.search.clear }) hfind rfl (beq_iff_eq.mpr hcrc) hroom
    case tooMany =>
      exact runsTo_searchRom (st := .tooMany) hs hcap hphy fun _ =>
        searchLoop_first_tooMany (s := { s with search := s.search.clear }) hfind (beq_iff_eq.mpr hcrc) hfull

end

section
/-! The session and ROM commands along the events that the bus allows (43_rom_commands.md), as equations. -/

namespace Sys2Proof.Machine

variable {s : State} {k : Nat} {b : Bool} {d : Rom} {es : List Event}

/-- What a command answers stands for the same state with another bus side, where only the framer's registers differ. -/
theorem runsTo_withPhy {i : Instr} {u : State} {p : Phy} (h : exec i s = .next u) (hp : u.phy.masked = p.masked) :
    RunsTo i s (u.withPhy p) :=
  ⟨u, h, by simp only [State.masked, State.withPhy, hp]⟩

/-- A command that ends with a status after events, and writes no other register. -/
theorem State.finish_after (s : State) (es : List Event) (st : Status) :
    (s.withPhy (s.phy.after es)).finish st = s.ended es (statusCode st) := rfl

/-! ## INIT (R203) -/

/-- The probe addresses every device with Skip ROM (R200, R203). -/
theorem selectEvents_sentinel : selectEvents sentinel = writeEvents [0xCC#8] := if_pos rfl

theorem execInit_active (hs : s.session = true) : execInit s = .next (s.finish .invalidArg) := by
  rw [execInit, if_pos hs]

theorem execInit_probe (hs : s.session = false) :
    execInit s = .next ((s.initSetup.powerQuery sentinel).2.finish .ok) := by
  rw [execInit, if_neg (by simp [hs])]

theorem execInit_absent (hs : s.session = false) (h : s.initSetup.phy.follows (resetEvents 24)) :
    execInit s = .next ((s.initSetup.withPhy (s.initSetup.phy.after (resetEvents 24))).finish .ok) := by
  rw [execInit_probe hs, State.powerQuery_absent h]

theorem execInit_present (hs : s.session = false) (hk : k < 24)
    (hes : es = resetEvents k ++ writeEvents [0xCC#8, 0xB4#8] ++ readBitEvents b)
    (h : s.initSetup.phy.follows es) :
    execInit s = .next ({ s.initSetup.ran es s.phy.crc 0#8 8#4 with pwr := b }.finish .ok) := by
  rw [writeEvents_cons 0xCC#8 [0xB4#8], ← List.append_assoc (resetEvents k), ← selectEvents_sentinel] at hes
  subst hes
  rw [execInit_probe hs, State.powerQuery_present hk h]
  rfl

/-! ## DESTROY and RESET_BUS (R205, R206) -/

theorem execDestroy_active (hs : s.session = true) :
    execDestroy s = .next ({ s.withPhy (s.phy.act .release) with session := false }.finish .ok) := by
  rw [execDestroy, State.inSession_true hs]

theorem execResetBus_of_follows (hs : s.session = true) (hk : k ≤ 24) (h : s.phy.follows (resetEvents k)) :
    execResetBus s
      = .next ({ s.withPhy (s.phy.after (resetEvents k)) with result := zextBit (decide (k < 24)) }.finish .ok) := by
  rw [execResetBus, State.inSession_true hs, Phy.resetPresence_of_follows hk h]

theorem zextBit_decide (P : Prop) [Decidable P] : zextBit (decide P) = if P then 1#32 else 0#32 := by
  simp only [zextBit, decide_eq_true_eq]

/-! ## READ_ROM (R208) -/

theorem execReadRom_absent (hs : s.session = true) (h : s.phy.follows (resetEvents 24)) :
    execReadRom s = .next (s.ended (resetEvents 24) (statusCode .noDevice)) := by
  rw [execReadRom, State.inSession_true hs, Phy.resetPresence_of_follows (Nat.le_refl 24) h]
  simp only [Nat.lt_irrefl, decide_false, State.finish_after]

theorem execReadRom_present (hs : s.session = true) (hk : k < 24)
    (hes : es = resetEvents k ++ writeEvents [0x33#8] ++ readEvents d.toList) (h : s.phy.follows es) :
    execReadRom s = .next
      ({ s.ran es (crc8 (d.toList.take 7)) d[7] 8#4 with romid := d }.finish
        (if crc8 (d.toList.take 7) = d[7] then .ok else .crcError)) := by
  subst hes
  rw [Phy.follows_append, Phy.follows_append] at h
  obtain ⟨⟨hreset, -⟩, hread⟩ := h
  have hframed := Phy.readFramed_rom
    ((Phy.follows_withRegs (s.phy.after (resetEvents k ++ writeEvents [0x33#8])) s.phy.crc 0#8 8#4 _).mpr hread)
  rw [execReadRom, State.inSession_true hs, Phy.resetPresence_of_follows (Nat.le_of_lt hk) hreset]
  simp only [hk, decide_true, Phy.sendWire_eq, WireCmd.byte, ← Phy.after_append, Phy.after_crc, hframed,
    Phy.after_withRegs, Phy.withRegs_withRegs, romOfBytes_toList, beq_iff_eq]
  rfl

/-- The framer's registers are out of view, the CRC generator's is not (R31, R33). -/
theorem Phy.masked_withRegs_crc (p : Phy) (c sh : Byte) (n : BitVec 4) :
    (p.withRegs c sh n).masked = Phy.masked { p with crc := c } := rfl

theorem statusCode_crcVerdict (P : Prop) [Decidable P] :
    statusCode (if P then .ok else .crcError) = if P then 0x00#8 else 0x03#8 := apply_ite ..

/-! ## READ_POWER_SUPPLY (R212) -/

theorem execReadPowerSupply_absent (hs : s.session = true) (h : s.phy.follows (resetEvents 24)) :
    execReadPowerSupply s = .next (s.ended (resetEvents 24) (statusCode .noDevice)) := by
  rw [execReadPowerSupply, State.inSession_true hs, State.powerQuery_absent h]
  simp only [State.finish_after]

theorem execReadPowerSupply_present (hs : s.session = true) (hk : k < 24)
    (hes : es = resetEvents k ++ selectEvents s.addr ++ writeEvents [0xB4#8] ++ readBitEvents b)
    (h : s.phy.follows es) :
    execReadPowerSupply s
      = .next ({ s.ran es s.phy.crc 0#8 8#4 with pwr := b, result := zextBit b }.finish .ok) := by
  subst hes
  rw [execReadPowerSupply, State.inSession_true hs, State.powerQuery_present hk h]
  rfl

end Sys2Proof.Machine
end

section
open Sys2Proof.Machine

/-- Settles O15: the setup's own pin writes, and its probe with and without presence. -/
theorem initStartsTheSession : Obligations.InitStartsTheSession := by
  rintro x s p rfl
  refine ⟨execInit_active, fun hs habs => ?absent, fun k b hs hk hfollows => ?present⟩
  case absent => exact ⟨_, execInit_absent hs habs, rfl⟩
  case present =>
    exact runsTo_withPhy (i := .init x) (execInit_present hs hk rfl hfollows) (Phy.masked_after_withRegs ..)

/-- Settles O17: the answer of the one reset is the bit written to RESULT. -/
theorem resetBusReportsPresence : Obligations.ResetBusReportsPresence := by
  intro x s k hs hk hes
  rw [← zextBit_decide]
  exact execResetBus_of_follows hs hk hes

/-- Settles O18: a reset that fails, or the framed read of 8 bytes, whose check is the status. -/
theorem readRomStoresTheBytesReceived : Obligations.ReadRomStoresTheBytesReceived := by
  refine fun x s hs => ⟨fun habs => ⟨_, execReadRom_absent hs habs, rfl⟩, ?present⟩
  case present =>
    intro k d es hk hes hfollows
    rw [← statusCode_crcVerdict]
    exact runsTo_withPhy (i := .readRom x) (execReadRom_present hs hk hes hfollows) (Phy.masked_withRegs_crc ..)

/-- Settles O19: PowerQuery of ADDR, with and without presence. -/
theorem readPowerSupplyCachesTheBit : Obligations.ReadPowerSupplyCachesTheBit := by
  refine fun x s hs => ⟨fun habs => ⟨_, execReadPowerSupply_absent hs habs, rfl⟩, ?present⟩
  case present =>
    intro k b es hk hes hfollows
    exact runsTo_withPhy (i := .readPowerSupply x) (execReadPowerSupply_present hs hk hes hfollows)
      (Phy.masked_after_withRegs ..)

/-- Settles O11: the meaning of the row is the refusal (R201, U21). -/
theorem alarmSearchIsRefused : Obligations.AlarmSearchIsRefused := fun _ => rfl

/-- Settles O16: the body of R205 with a session, the prologue's check without one. -/
theorem destroyEndsTheSession : Obligations.DestroyEndsTheSession :=
  fun _ _ => ⟨execDestroy_active, fun hs => exec_no_session hs rfl nofun nofun⟩

end

section
/-! The function commands along the events that the bus allows (44_function_commands.md), as equations. -/

namespace Sys2Proof.Machine

variable {s : State} {k : Nat} {d : Scratchpad}

/-- The state after a scratchpad read that receives d: the framed read's registers, and `SPBUF` (R230). -/
def State.readInto (s : State) (k : Nat) (d : Scratchpad) : State :=
  { s.ran (readSpEvents k s.addr d) (crc8 (d.toList.take 8)) d[8] 8#4 with spbuf := d }

@[simp] theorem State.readInto_family (s : State) (k : Nat) (d : Scratchpad) : (s.readInto k d).family = s.family := rfl

theorem State.readSp_received (hk : k < 24) (h : s.phy.follows (readSpEvents k s.addr d)) :
    s.readSp = (if crc8 (d.toList.take 8) = d[8] then .ok else .crcError, s.readInto k d) := by
  rw [State.readSp_present hk h]
  simp only [beq_iff_eq]
  rfl

theorem State.readSp_right (hk : k < 24) (h : s.phy.follows (readSpEvents k s.addr d))
    (hcrc : crc8 (d.toList.take 8) = d[8]) : s.readSp = (.ok, s.readInto k d) := by
  rw [State.readSp_received hk h, if_pos hcrc]

theorem State.readSp_wrong (hk : k < 24) (h : s.phy.follows (readSpEvents k s.addr d))
    (hcrc : crc8 (d.toList.take 8) ≠ d[8]) : s.readSp = (.crcError, s.readInto k d) := by
  rw [State.readSp_received hk h, if_neg hcrc]

/-! ## READ_SCRATCHPAD and WRITE_SCRATCHPAD (R231, R232) -/

theorem execReadScratchpad_absent (hs : s.session = true) (h : s.phy.follows (resetEvents 24)) :
    execReadScratchpad s = .next (s.ended (resetEvents 24) (statusCode .noDevice)) := by
  rw [execReadScratchpad, State.inSession_true hs, State.readSp_absent h]
  simp only [State.finish_after]

theorem execReadScratchpad_present (hs : s.session = true) (hk : k < 24)
    (h : s.phy.follows (readSpEvents k s.addr d)) : execReadScratchpad s
      = .next ((s.readInto k d).finish (if crc8 (d.toList.take 8) = d[8] then .ok else .crcError)) := by
  rw [execReadScratchpad, State.inSession_true hs, State.readSp_received hk h]

theorem execWriteScratchpad_absent (hs : s.session = true) (h : s.phy.follows (resetEvents 24)) :
    execWriteScratchpad s = .next (s.ended (resetEvents 24) (statusCode .noDevice)) := by
  rw [execWriteScratchpad, State.inSession_true hs, Phy.selectTarget_absent h]
  simp only [State.finish_after]

/-- A wire command byte and bytes after it, sent to an addressed target (R200, R232, R246). -/
theorem Phy.sendWire_addressed (p : Phy) (A : Rom) (k : Nat) (w : WireCmd) (bs : List Byte) (c : Byte) :
    (((p.after (resetEvents k ++ selectEvents A)).withRegs c 0#8 8#4).sendWire w).writeBytes bs
      = (p.after (resetEvents k ++ selectEvents A ++ writeEvents (w.byte :: bs))).withRegs c 0#8 8#4 := by
  simp only [Phy.sendWire_writeBytes, Phy.after_withRegs, Phy.withRegs_withRegs, Phy.withRegs_crc,
    Phy.after_append _ (_ ++ _) (writeEvents _)]

theorem execWriteScratchpad_present (hs : s.session = true) (hk : k < 24) (h : s.phy.follows (resetEvents k)) :
    execWriteScratchpad s = .next
      ((s.ran (resetEvents k ++ selectEvents s.addr ++ writeEvents (0x4E#8 :: s.spOperands)) s.phy.crc 0#8 8#4).finish
        .ok) := by
  rw [execWriteScratchpad, State.inSession_true hs, Phy.selectTarget_present hk h]
  simp only [Phy.sendWire_addressed]
  rfl

/-- The bytes of a scratchpad write, as R232 lists them. -/
theorem State.spOperands_eq (s : State) : 0x4E#8 :: s.spOperands
    = if familyClass s.params s.addr[0] = .modern then [0x4E#8, s.spbuf[2], s.spbuf[3], s.spbuf[4]]
      else [0x4E#8, s.spbuf[2], s.spbuf[3]] := by
  rw [State.spOperands, State.family]
  split <;> rfl

/-! ## CONVERT_DURATION (R234) -/

theorem execConvertDuration_quick (hs : s.session = true) (hf : s.family ≠ .modern) :
    execConvertDuration s = .next ({ s with result := 750#32 }.finish .ok) := by
  rw [execConvertDuration, State.inSession_true hs, if_neg hf]
  rfl

theorem execConvertDuration_absent (hs : s.session = true) (hf : s.family = .modern)
    (h : s.phy.follows (resetEvents 24)) : execConvertDuration s
      = .next { s.ended (resetEvents 24) (statusCode .ok) with result := 750#32 } := by
  rw [execConvertDuration, State.inSession_true hs, if_pos hf, State.readSp_absent h]
  simp only [reduceCtorEq, if_false, State.finish, State.withPhy, State.ended]
  rfl

/-- The estimate for a configuration byte's two bits (R233, R245). -/
theorem convEst_field (r : BitVec 2) :
    BitVec.ofNat 32 (convEst (r.toNat + 9)) = [95#32, 190#32, 375#32, 750#32].getD r.toNat 0#32 := by
  revert r
  decide

theorem execConvertDuration_present (hs : s.session = true) (hf : s.family = .modern) (hk : k < 24)
    (h : s.phy.follows (readSpEvents k s.addr d)) : execConvertDuration s = .next
      ({ s.readInto k d with
          result := if crc8 (d.toList.take 8) = d[8] then
              [95#32, 190#32, 375#32, 750#32].getD (d[4].extractLsb' 5 2).toNat 0#32 else 750#32 }.finish .ok) := by
  rw [execConvertDuration, State.inSession_true hs, if_pos hf, ← convEst_field]
  by_cases hcrc : crc8 (d.toList.take 8) = d[8]
  · rw [State.readSp_right hk h hcrc, if_pos hcrc]
    rfl
  · rw [State.readSp_wrong hk h hcrc, if_neg hcrc]
    rfl

/-! ## CONVERT_TEMPERATURE (R235, R236) -/

theorem execConvertTemperature_absent (hs : s.session = true) (h : s.phy.follows (resetEvents 24)) :
    execConvertTemperature s = .next (s.ended (resetEvents 24) (statusCode .noDevice)) := by
  rw [execConvertTemperature, State.inSession_true hs, Phy.selectTarget_absent h]
  simp only [State.finish_after]

theorem execConvertTemperature_present (hs : s.session = true) (hk : k < 24) (h : s.phy.follows (resetEvents k)) :
    execConvertTemperature s = .next
      ((s.ran (resetEvents k ++ selectEvents s.addr ++ writeEvents [0x44#8] ++ s.convertActs.map .act)
          s.phy.crc 0#8 8#4).finish .ok) := by
  rw [execConvertTemperature, State.inSession_true hs, Phy.selectTarget_present hk h]
  simp only [Phy.sendWire_eq, Phy.acts_eq, Phy.after_withRegs, Phy.withRegs_withRegs, Phy.withRegs_crc, WireCmd.byte,
    ← Phy.after_append]
  rfl

/-- What follows the command byte, as events (R236). -/
theorem State.convertActs_events (s : State) : s.convertActs.map Event.act
    = (if s.pwr then [] else [.act .spuOn])
      ++ (if s.cfg.getLsbD 2 then [.act (.waitMs 750), .act .spuOff] else []) := by
  rw [State.convertActs, State.blocking, List.map_append, apply_ite (List.map Event.act),
    apply_ite (List.map Event.act)]
  rfl

/-! ## GET_TEMPERATURE (R240) -/

theorem execGetTemperature_absent (hs : s.session = true) (h : s.phy.follows (resetEvents 24)) :
    execGetTemperature s = .next (s.ended (resetEvents 24) (statusCode .noDevice)) := by
  rw [execGetTemperature, State.inSession_true hs, State.readSp_absent h]
  simp only [reduceCtorEq, if_false, State.finish_after]

theorem execGetTemperature_wrong (hs : s.session = true) (hk : k < 24)
    (h : s.phy.follows (readSpEvents k s.addr d)) (hcrc : crc8 (d.toList.take 8) ≠ d[8]) :
    execGetTemperature s = .next ((s.readInto k d).finish .crcError) := by
  rw [execGetTemperature, State.inSession_true hs, State.readSp_wrong hk h hcrc]
  rfl

theorem execGetTemperature_right (hs : s.session = true) (hk : k < 24)
    (h : s.phy.follows (readSpEvents k s.addr d)) (hcrc : crc8 (d.toList.take 8) = d[8]) :
    execGetTemperature s = .next
      ((s.readInto k d).writeTemp.finish (if s.family = .unknown then .unsupported else .ok)) := by
  rw [execGetTemperature, State.inSession_true hs, State.readSp_right hk h hcrc]
  rfl

/-! ## GET_RESOLUTION and SET_RESOLUTION (R244, R246) -/

theorem execGetResolution_unknown (hs : s.session = true) (hf : s.family = .unknown) :
    execGetResolution s = .next (s.finish .unsupported) := by
  rw [execGetResolution, State.inSession_true hs, hf]

theorem execGetResolution_legacy (hs : s.session = true) (hf : s.family = .legacy) :
    execGetResolution s = .next ({ s with result := 9#32 }.finish .ok) := by
  rw [execGetResolution, State.inSession_true hs, hf]

theorem execGetResolution_absent (hs : s.session = true) (hf : s.family = .modern)
    (h : s.phy.follows (resetEvents 24)) :
    execGetResolution s = .next (s.ended (resetEvents 24) (statusCode .noDevice)) := by
  rw [execGetResolution, State.inSession_true hs, hf, State.readSp_absent h]
  simp only [reduceCtorEq, if_false, State.finish_after]

theorem execGetResolution_wrong (hs : s.session = true) (hf : s.family = .modern) (hk : k < 24)
    (h : s.phy.follows (readSpEvents k s.addr d)) (hcrc : crc8 (d.toList.take 8) ≠ d[8]) :
    execGetResolution s = .next ((s.readInto k d).finish .crcError) := by
  rw [execGetResolution, State.inSession_true hs, hf, State.readSp_wrong hk h hcrc]
  rfl

theorem execGetResolution_right (hs : s.session = true) (hf : s.family = .modern) (hk : k < 24)
    (h : s.phy.follows (readSpEvents k s.addr d)) (hcrc : crc8 (d.toList.take 8) = d[8]) :
    execGetResolution s = .next ({ s.readInto k d with
      result := BitVec.ofNat 32 ((d[4].extractLsb' 5 2).toNat + 9) }.finish .ok) := by
  rw [execGetResolution, State.inSession_true hs, hf, State.readSp_right hk h hcrc]
  rfl

theorem execSetResolution_unsupported (hs : s.session = true) (hf : s.family ≠ .modern) :
    execSetResolution s = .next (s.finish .unsupported) := by
  rw [execSetResolution, State.inSession_true hs, if_pos hf]

theorem execSetResolution_invalidArg (hs : s.session = true) (hf : s.family = .modern)
    (hr : s.res < 9 ∨ 12 < s.res) : execSetResolution s = .next (s.finish .invalidArg) := by
  rw [execSetResolution, State.inSession_true hs, if_neg (not_not.mpr hf), if_pos hr]

theorem execSetResolution_absent (hs : s.session = true) (hf : s.family = .modern) (hr : ¬(s.res < 9 ∨ 12 < s.res))
    (h : s.phy.follows (resetEvents 24)) :
    execSetResolution s = .next (s.ended (resetEvents 24) (statusCode .noDevice)) := by
  rw [execSetResolution, State.inSession_true hs, if_neg (not_not.mpr hf), if_neg hr, State.readSp_absent h]
  simp only [ne_eq, reduceCtorEq, not_false_eq_true, if_true, State.finish_after]

theorem execSetResolution_wrong (hs : s.session = true) (hf : s.family = .modern) (hr : ¬(s.res < 9 ∨ 12 < s.res))
    (hk : k < 24) (h : s.phy.follows (readSpEvents k s.addr d)) (hcrc : crc8 (d.toList.take 8) ≠ d[8]) :
    execSetResolution s = .next ((s.readInto k d).finish .crcError) := by
  rw [execSetResolution, State.inSession_true hs, if_neg (not_not.mpr hf), if_neg hr, State.readSp_wrong hk h hcrc]
  rfl

theorem execSetResolution_vanished (hs : s.session = true) (hf : s.family = .modern) (hr : ¬(s.res < 9 ∨ 12 < s.res))
    (hk : k < 24) (h : s.phy.follows (readSpEvents k s.addr d ++ resetEvents 24))
    (hcrc : crc8 (d.toList.take 8) = d[8]) : execSetResolution s = .next
      ({ s.ran (readSpEvents k s.addr d ++ resetEvents 24) (crc8 (d.toList.take 8)) d[8] 8#4 with
          spbuf := d.set 4 (withResolution d[4] s.res) }.finish .noDevice) := by
  obtain ⟨hread, hreset⟩ := (Phy.follows_append ..).mp h
  have hsel := Phy.selectTarget_absent (A := s.addr)
    ((Phy.follows_withRegs _ (crc8 (d.toList.take 8)) d[8] 8#4 _).mpr hreset)
  rw [execSetResolution, State.inSession_true hs, if_neg (not_not.mpr hf), if_neg hr, State.readSp_right hk hread hcrc]
  simp only [ne_eq, not_true, if_false, State.readInto, State.ran, hsel, Phy.after_withRegs, Phy.after_append]
  rfl

theorem execSetResolution_written {j : Nat} (hs : s.session = true) (hf : s.family = .modern)
    (hr : ¬(s.res < 9 ∨ 12 < s.res)) (hk : k < 24) (hj : j < 24)
    (h : s.phy.follows (readSpEvents k s.addr d ++ resetEvents j)) (hcrc : crc8 (d.toList.take 8) = d[8]) :
    execSetResolution s = .next
      ({ s.ran (readSpEvents k s.addr d ++ (resetEvents j ++ selectEvents s.addr
            ++ writeEvents [0x4E#8, d[2], d[3], withResolution d[4] s.res])) (crc8 (d.toList.take 8)) 0#8 8#4 with
          spbuf := d.set 4 (withResolution d[4] s.res) }.finish .ok) := by
  obtain ⟨hread, hreset⟩ := (Phy.follows_append ..).mp h
  have hsel := Phy.selectTarget_present (A := s.addr) hj
    ((Phy.follows_withRegs _ (crc8 (d.toList.take 8)) d[8] 8#4 _).mpr hreset)
  rw [execSetResolution, State.inSession_true hs, if_neg (not_not.mpr hf), if_neg hr, State.readSp_right hk hread hcrc]
  simp only [ne_eq, not_true, if_false, State.readInto, State.ran, hsel, Phy.sendWire_addressed, Phy.after_withRegs,
    Phy.withRegs_withRegs, Phy.withRegs_crc, Phy.after_append _ (readSpEvents _ _ _), WireCmd.byte,
    Vector.getElem_set_self, Vector.getElem_set_ne _ _ (show 4 ≠ 2 by decide),
    Vector.getElem_set_ne _ _ (show 4 ≠ 3 by decide)]
  rfl

end Sys2Proof.Machine
end

section
open Sys2Proof.Machine

/-- Settles O20: ReadSp without presence, or its 9 bytes, whose check is the status. -/
theorem readScratchpadStoresTheBytesReceived : Obligations.ReadScratchpadStoresTheBytesReceived := by
  refine fun x s hs => ⟨fun habs => ⟨_, execReadScratchpad_absent hs habs, rfl⟩, fun k d hk hfollows => ?_⟩
  rw [← statusCode_crcVerdict]
  exact runsTo_withPhy (i := .readScratchpad x) (execReadScratchpad_present hs hk hfollows)
    (Phy.masked_withRegs_crc ..)

/-- Settles O21: the bytes sent are the command byte and `spOperands`. -/
theorem writeScratchpadSendsItsBytes : Obligations.WriteScratchpadSendsItsBytes := by
  refine fun x s hs => ⟨fun habs => ⟨_, execWriteScratchpad_absent hs habs, rfl⟩, fun k es hk hes hfollows => ?_⟩
  rw [← State.spOperands_eq] at hes
  subst hes
  exact runsTo_withPhy (i := .writeScratchpad x) (execWriteScratchpad_present hs hk hfollows.left.left)
    (Phy.masked_after_withRegs ..)

/-- Settles O22: only a MODERN target is read, and only a right read gives another estimate than the default. -/
theorem convertDurationEstimates : Obligations.ConvertDurationEstimates := by
  refine fun x s hs => ⟨execConvertDuration_quick hs,
    fun hf habs => ⟨_, execConvertDuration_absent hs hf habs, rfl⟩, fun k d hf hk hfollows => ?_⟩
  exact runsTo_withPhy (i := .convertDuration x) (execConvertDuration_present hs hf hk hfollows)
    (Phy.masked_withRegs_crc ..)

/-- Settles O23: after the command byte come the events of `convertActs`. -/
theorem convertTemperatureDrivesThePullUp : Obligations.ConvertTemperatureDrivesThePullUp := by
  refine fun x s hs => ⟨fun habs => ⟨_, execConvertTemperature_absent hs habs, rfl⟩, fun k es hk hes hfollows => ?_⟩
  rw [List.append_assoc, ← State.convertActs_events] at hes
  subst hes
  exact runsTo_withPhy (i := .convertTemperature x) (execConvertTemperature_present hs hk hfollows.left.left.left)
    (Phy.masked_after_withRegs ..)

/-- Settles O25: a failed read ends the command, and a right one leaves the class of the target to `writeTemp`. -/
theorem getTemperatureDecodes : Obligations.GetTemperatureDecodes := by
  refine fun x s hs => ⟨fun habs => ⟨_, execGetTemperature_absent hs habs, rfl⟩, ?present⟩
  rintro k d _ hk hfollows rfl
  refine ⟨fun hwrong => ?_, fun hright => ?_⟩
  · exact runsTo_withPhy (i := .getTemperature x) (execGetTemperature_wrong hs hk hfollows hwrong)
      (Phy.masked_withRegs_crc ..)
  have hexec := execGetTemperature_right hs hk hfollows hright
  refine ⟨fun (hf : s.family = .modern) => ?modern, fun (hf : s.family = .unknown) => ?unknown,
    fun (hf : s.family = .legacy) => ⟨fun v hv => ?legacy, fun hzero => ⟨Sys2Proof.Config.anyTemp s.free, ?noDivisor⟩⟩⟩
  case modern =>
    rw [State.writeTemp_modern (by simp [hf]), if_neg (by simp [hf])] at hexec
    exact runsTo_withPhy (i := .getTemperature x) hexec (Phy.masked_withRegs_crc ..)
  case unknown =>
    rw [State.writeTemp_modern (by simp [hf]), if_pos hf] at hexec
    exact runsTo_withPhy (i := .getTemperature x) hexec (Phy.masked_withRegs_crc ..)
  case legacy =>
    rw [State.writeTemp_legacy (s := s.readInto k d) hf hv, if_neg (by simp [hf])] at hexec
    exact runsTo_withPhy (i := .getTemperature x) hexec (Phy.masked_withRegs_crc ..)
  case noDivisor =>
    rw [State.writeTemp_free (s := s.readInto k d) hf hzero, if_neg (by simp [hf])] at hexec
    exact runsTo_withPhy (i := .getTemperature x) hexec (Phy.masked_withRegs_crc ..)

/-- Settles O26: the family decides before the bus, then the read. -/
theorem getResolutionReadsTheField : Obligations.GetResolutionReadsTheField := by
  refine fun x s hs => ⟨execGetResolution_unknown hs, execGetResolution_legacy hs,
    fun hf habs => ⟨_, execGetResolution_absent hs hf habs, rfl⟩, ?present⟩
  rintro k d _ hf hk hfollows rfl
  refine ⟨fun hwrong => ?_, fun hright => ?_⟩
  · exact runsTo_withPhy (i := .getResolution x) (execGetResolution_wrong hs hf hk hfollows hwrong)
      (Phy.masked_withRegs_crc ..)
  · exact runsTo_withPhy (i := .getResolution x) (execGetResolution_right hs hf hk hfollows hright)
      (Phy.masked_withRegs_crc ..)

/-- Settles O27: the two refusals before the bus, the read, and the second reset with and without presence. -/
theorem setResolutionReadsModifiesWrites : Obligations.SetResolutionReadsModifiesWrites := by
  rintro x s _ hs rfl
  refine ⟨execSetResolution_unsupported hs, fun hf => ⟨execSetResolution_invalidArg hs hf, fun h9 h12 => ?_⟩⟩
  have hr : ¬(s.res < 9 ∨ 12 < s.res) := not_or.mpr ⟨Nat.not_lt.mpr h9, Nat.not_lt.mpr h12⟩
  refine ⟨fun habs => ⟨_, execSetResolution_absent hs hf hr habs, rfl⟩, fun k d hk hfollows hwrong => ?wrong, ?right⟩
  case wrong =>
    exact runsTo_withPhy (i := .setResolution x) (execSetResolution_wrong hs hf hr hk hfollows hwrong)
      (Phy.masked_withRegs_crc ..)
  case right =>
    rintro k j d _ _ hk hj rfl rfl hfollows hright
    rcases Nat.lt_or_eq_of_le hj with hlt | rfl
    · simp only [hlt, if_true, List.append_assoc]
      have hexec := execSetResolution_written hs hf hr hk hlt hfollows.left hright
      rw [List.append_assoc (resetEvents j)] at hexec
      exact runsTo_withPhy (i := .setResolution x) hexec (Phy.masked_withRegs_crc ..)
    · simp only [Nat.lt_irrefl, if_false, List.append_nil] at hfollows ⊢
      exact runsTo_withPhy (i := .setResolution x) (execSetResolution_vanished hs hf hr hk hfollows hright)
        (Phy.masked_withRegs_crc ..)

end

section
/-! The strong pull-up along a command's events: a reset ends it, a conversion sets it, and nothing else touches it
(R22, R130, R236, R237, R310). -/

namespace Sys2Proof.Machine

variable {s t : State} {i : Instr} {c : HostOp} {A : Rom} {es fs : List Event}

/-- Events with a reset among them, 480 us low, that leave the pull-up off where there is one (R130). -/
structure EndsPullUp (es : List Event) : Prop where
  resets : .act (.waitUs 480) ∈ es
  off : ∀ p : Phy, (p.after es).spuAct = (p.spuAct && !p.spuAvail)

theorem waitUs_mem_resetEvents (k : Nat) : .act (.waitUs 480) ∈ resetEvents k := by simp [resetEvents]

theorem EndsPullUp.reset (k : Nat) : EndsPullUp (resetEvents k) :=
  ⟨waitUs_mem_resetEvents k, fun p => p.after_quiet (noSpu_reset_tail k)⟩

/-- Events that leave the pull-up alone may come after. -/
theorem EndsPullUp.quiet (h : EndsPullUp es) (hfs : fs.all noSpu = true) : EndsPullUp (es ++ fs) where
  resets := List.mem_append_left _ h.resets
  off p := by rw [Phy.after_append, Phy.after_spuAct _ _ hfs, h.off]

theorem EndsPullUp.append (h : EndsPullUp es) (h' : EndsPullUp fs) : EndsPullUp (es ++ fs) where
  resets := List.mem_append_left _ h.resets
  off p := by rw [Phy.after_append, h'.off, h.off, Phy.after_spuAvail, Bool.and_assoc, Bool.and_self]

theorem EndsPullUp.addressed (k : Nat) (A : Rom) (bs : List Byte) :
    EndsPullUp (resetEvents k ++ selectEvents A ++ writeEvents bs) :=
  ((reset k).quiet (noSpu_select A)).quiet (noSpu_write bs)

theorem EndsPullUp.readSp (k : Nat) (A : Rom) (d : Scratchpad) : EndsPullUp (readSpEvents k A d) :=
  (addressed k A _).quiet (noSpu_read _)

/-- Every transaction begins with a reset (R97). -/
theorem Transaction.waitUs_mem (h : Transaction A es) : .act (.waitUs 480) ∈ es := by
  cases h with
  | noPresence => exact waitUs_mem_resetEvents 24
  | _ k => simp only [readSpEvents, List.mem_append, waitUs_mem_resetEvents k, true_or]

/-- The transactions of a search: at least one, and no conversion among them. -/
theorem EndsPullUp.flatten {txs : List (List Event)} (hne : txs ≠ [])
    (h : ∀ tx ∈ txs, Transaction A tx ∧ quietOpening tx = true) : EndsPullUp txs.flatten := by
  induction txs with
  | nil => exact absurd rfl hne
  | cons tx txs ih =>
    obtain ⟨⟨htx, hquiet⟩, htxs⟩ := List.forall_mem_cons.mp h
    have hends : EndsPullUp tx := ⟨htx.waitUs_mem, fun p => p.after_quiet hquiet⟩
    rw [List.flatten_cons]
    rcases eq_or_ne txs [] with rfl | hne'
    · exact hends.quiet rfl
    · exact hends.append (ih hne' htxs)

/-- After a conversion's command byte only its own actions touch the pull-up (R236). -/
theorem Phy.after_convert_spuAct (p : Phy) (s : State) (k : Nat) (A : Rom) (hp : p.spuAvail = true) :
    (p.after (resetEvents k ++ selectEvents A ++ writeEvents [0x44#8] ++ s.convertActs.map .act)).spuAct
      = (!s.pwr && !s.blocking) := by
  have hoff := (EndsPullUp.addressed k A [0x44#8]).off p
  rw [hp, Bool.not_true, Bool.and_false] at hoff
  rw [Phy.after_append _ _ (s.convertActs.map .act), State.convertActs]
  have havail := p.after_spuAvail (resetEvents k ++ selectEvents A ++ writeEvents [0x44#8])
  generalize p.after (resetEvents k ++ selectEvents A ++ writeEvents [0x44#8]) = q at hoff havail
  cases s.pwr <;> cases s.blocking <;> simp [hoff, hp, havail]

/-- What a host command does with the pull-up: it makes no reset and leaves it, its resets end it, or it is a
conversion. -/
inductive PullUp (s t : State) (c : HostOp) : Prop where
  | kept (ho : s.opensWithReset c = false) (hact : t.phy.spuAct = s.phy.spuAct)
      (htrace : t.phy.trace = s.phy.trace ∨ t.phy.trace = .act .release :: s.phy.trace)
  | ended (es : List Event) (ho : s.opensWithReset c = true) (hes : EndsPullUp es)
      (hact : t.phy.spuAct = ((s.resetPhy c).after es).spuAct)
      (htrace : t.phy.trace = es.reverse ++ (s.resetPhy c).trace)
  | converted (es : List Event) (ho : s.opensWithReset c = true) (hc : c = .convertTemperature)
      (hes : .act (.waitUs 480) ∈ es) (hact : s.phy.spuAvail = true → t.phy.spuAct = (!s.pwr && !s.blocking))
      (htrace : t.phy.trace = es.reverse ++ s.phy.trace)

/-- A command other than INIT that is a run of events. -/
theorem PullUp.of_ran (hc : c ≠ .init) (ho : s.opensWithReset c = true) (hes : EndsPullUp es) {cr sh : Byte}
    {n : BitVec 4} (hphy : t.phy = (s.phy.after es).withRegs cr sh n) : PullUp s t c := by
  have hreset : s.resetPhy c = s.phy := if_neg hc
  exact .ended es ho hes (by rw [hphy, hreset]; rfl) (by rw [hphy, hreset]; exact Phy.after_trace ..)

theorem Outcome.pullUp (h : Outcome s i t) (hi : i.hostOp = some c) : PullUp s t c := by
  cases h with
  | wire _ _ _ _ _ _ _ _ hop | wireElsewhere _ hop => cases hop.symm.trans hi
  -- no reset
  | early _ _ _ hop ho => cases hop.symm.trans hi; exact .kept ho rfl (.inl rfl)
  | crc => cases hi; exact .kept rfl rfl (.inl rfl)
  | destroy => cases hi; exact .kept rfl rfl (.inr rfl)
  | durQuick x hf => cases hi; exact .kept (by simp [State.opensWithReset, hf]) rfl (.inl rfl)
  | resQuick x hf => cases hi; exact .kept (by simp [State.opensWithReset, hf]) rfl (.inl rfl)
  -- a reset, after INIT's own writes
  | initF x _ _ _ hs =>
    cases hi; exact .ended _ (by simp [State.opensWithReset, hs]) (.reset 24) rfl (Phy.after_trace ..)
  | initT x k b _ _ _ hs =>
    cases hi
    exact .ended _ (by simp [State.opensWithReset, hs]) ((EndsPullUp.addressed k _ _).quiet (noSpu_readBit b)) rfl
      (Phy.after_trace ..)
  -- a reset
  | reset x k _ _ _ hk hs => cases hi; exact .of_ran nofun hs (.reset k) rfl
  | noDev _ cm _ _ _ hop hcm hs ho =>
    cases hop.symm.trans hi
    exact .of_ran (by rintro rfl; simp at hcm) ho (.reset 24) rfl
  | durNone x _ _ _ hf hs => cases hi; exact .of_ran nofun (by simp [State.opensWithReset, hs, hf]) (.reset 24) rfl
  | readRom x k d _ _ _ _ hk hs =>
    cases hi; exact .of_ran nofun hs (((EndsPullUp.reset k).quiet (noSpu_write _)).quiet (noSpu_read _)) rfl
  | search x txs _ _ _ _ _ _ _ _ hs hcap hne htx =>
    cases hi; exact .of_ran nofun (by simp [State.opensWithReset, hs, hcap]) (.flatten hne htx) rfl
  | power x k b _ _ _ hk hs =>
    cases hi; exact .of_ran nofun hs ((EndsPullUp.addressed k _ _).quiet (noSpu_readBit b)) rfl
  | readSp _ cm k d _ _ _ _ _ _ _ _ hop hcm _ _ hk _ ho =>
    cases hop.symm.trans hi
    exact .of_ran (by rintro rfl; simp at hcm) ho (.readSp k _ d) rfl
  | writeSp x k _ _ _ hk hs => cases hi; exact .of_ran nofun hs (.addressed k _ _) rfl
  | setRes x k j d new _ _ _ _ hk hj hs ho =>
    cases hi
    exact .of_ran nofun ho ((EndsPullUp.readSp k _ d).append ((EndsPullUp.reset j).quiet (by split <;> simp))) rfl
  -- a reset, and then the conversion's actions
  | convert x k _ _ _ hk hs =>
    cases hi
    exact .converted _ hs rfl (by simp only [List.mem_append, waitUs_mem_resetEvents k, true_or])
      (Phy.after_convert_spuAct s.phy s k s.addr) (Phy.after_trace ..)

/-- INIT's own writes leave the pull-up on only where they leave it unused (R203). -/
theorem State.initSetup_spuAct (s : State) : s.initSetup.phy.spuAct = (s.phy.spuAct && !s.initSpu) := rfl
theorem State.initSetup_spuAvail (s : State) : s.initSetup.phy.spuAvail = s.initSpu := rfl

/-- Whatever a command does, a pull-up in use that is on at its end was set by a conversion, or was on before. -/
theorem PullUp.on_cases (h : PullUp s t c) (havail : s.phy.spuAvail = true) (hon : t.phy.spuAct = true) :
    (c = .convertTemperature ∧ s.pwr = false ∧ s.blocking = false)
    ∨ (s.phy.spuAct = true
      ∧ (t.phy.trace = s.phy.trace ∨ t.phy.trace = .act .release :: s.phy.trace
        ∨ (c = .init ∧ s.initSpu = false))) := by
  cases h with
  | kept ho hact htrace => exact .inr ⟨hact.symm.trans hon, htrace.imp_right .inl⟩
  | converted es ho hc hes hact htrace =>
    rw [hact havail, Bool.and_eq_true, Bool.not_eq_true', Bool.not_eq_true'] at hon
    exact .inl ⟨hc, hon⟩
  | ended es ho hes hact htrace =>
    rw [hact, hes.off, Bool.and_eq_true, Bool.not_eq_true'] at hon
    obtain ⟨hon, hunused⟩ := hon
    by_cases hc : c = .init
    · rw [State.resetPhy, if_pos hc] at hon hunused
      rw [State.initSetup_spuAct, Bool.and_eq_true] at hon
      exact .inr ⟨hon.1, .inr (.inr ⟨hc, hunused⟩)⟩
    · rw [State.resetPhy, if_neg hc, havail] at hunused
      cases hunused

/-- A command's events hold a reset exactly when `opensWithReset` says so. -/
theorem PullUp.resets_iff (h : PullUp s t c) :
    ∃ es, t.phy.trace = es ++ s.phy.trace ∧ (s.opensWithReset c = true ↔ .act (.waitUs 480) ∈ es) := by
  cases h with
  | kept ho hact htrace =>
    rcases htrace with htrace | htrace
    · exact ⟨[], htrace, by simp [ho]⟩
    · exact ⟨[.act .release], htrace, by simp [ho]⟩
  | converted es ho hc hes hact htrace => exact ⟨es.reverse, htrace, by simp [ho, hes]⟩
  | ended es ho hes hact htrace =>
    by_cases hc : c = .init
    · rw [State.resetPhy, if_pos hc, State.initSetup_trace] at htrace
      exact ⟨es.reverse ++ [.act .spuOff, .act .release], by simp [htrace], by simp [ho, hes.resets]⟩
    · rw [State.resetPhy, if_neg hc] at htrace
      exact ⟨es.reverse, htrace, by simp [ho, hes.resets]⟩

theorem PullUp.kept_of_no_reset (h : PullUp s t c) (ho : s.opensWithReset c = false) :
    t.phy.spuAct = s.phy.spuAct := by
  cases h with
  | kept _ hact => exact hact
  | ended _ ho' | converted _ ho' => cases ho.symm.trans ho'

/-! ## A step of an idle block -/

theorem hostOp_instr (c : HostOp) (x : BitVec 24) : (c.instr x).hostOp = some c := by cases c <;> rfl

/-- A step of an idle block that is not RESET runs a command on a `CMD` word, or leaves the bus side alone. -/
theorem step_idle_cases (hq : s.seq = .idle) (hreset : s.inputs.head? ≠ some .reset) (e : step s = .next t) :
    t.phy = s.phy ∨ ∃ w rest c, s.inputs = .cmd w :: rest ∧ decodeOp (cmdOp w) = some c
      ∧ exec (c.instr 0) { s with inputs := rest } = .next t := by
  cases hin : s.inputs with
  | nil =>
    rw [step_nothing hin, coreStep_idle hq] at e
    cases e
    exact .inl rfl
  | cons x rest =>
    have hq' : ({ s with inputs := rest } : State).seq = .idle := hq
    cases x with
    | write offset width w =>
      rw [step_write hin] at e
      exact .inl (State.hostWrite_idle hq' e).1
    | read offset width =>
      rw [step_read hin] at e
      exact .inl (State.hostRead_idle hq' e).1
    | poll =>
      rw [step_poll_idle hq hin] at e
      cases e
      exact .inl rfl
    | cmd w =>
      rw [step_cmd_op hq hin] at e
      cases hop : decodeOp (cmdOp w) with
      | none =>
        rw [hop] at e
        cases e
        exact .inl rfl
      | some c =>
        rw [hop] at e
        exact .inr ⟨w, rest, c, rfl, hop, e⟩
    | tick =>
      rw [step_tick hin, coreStep_idle hq'] at e
      cases e
      exact .inl rfl
    | tickByte =>
      rw [step_tickByte_line (by rw [hq]; rfl) hin, coreStep_idle hq'] at e
      cases e
      exact .inl rfl
    | reset => exact absurd (by rw [hin]; rfl) hreset

theorem State.starting_cmd {w : Word} {rest : List Input} (hq : s.seq = .idle) (hin : s.inputs = .cmd w :: rest) :
    s.starting = decodeOp (cmdOp w) := by
  simp [State.starting, State.busy_idle hq, hin]

/-- While R310 (a) binds the HOST, no command that it may start makes a reset. -/
theorem State.no_reset_of_mayStart {waited : Nat} {estimate : Option Word} (hon : s.phy.spuAct = true)
    (htime : waited < conversionTime estimate) (h : s.hostMayStart c waited estimate = true) :
    s.opensWithReset c = false := by
  simpa [State.hostMayStart, hon, Nat.not_le.mpr htime] using h

/-- A HOST that obeys R310 (a) keeps a pull-up on until the conversion time has passed. -/
theorem step_keeps_pullUp {waited : Nat} {estimate : Option Word} (hq : s.seq = .idle) (hon : s.phy.spuAct = true)
    (htime : waited < conversionTime estimate) (hobeys : s.hostObeys waited estimate = true)
    (hreset : s.inputs.head? ≠ some .reset) (e : step s = .next t) : t.phy.spuAct = true := by
  rcases step_idle_cases hq hreset e with hphy | ⟨w, rest, c, hin, hop, he⟩
  · rw [hphy, hon]
  · rw [State.hostObeys, State.starting_cmd hq hin, hop] at hobeys
    have ho := State.no_reset_of_mayStart hon htime hobeys
    exact ((exec_outcome he).pullUp (hostOp_instr c 0) |>.kept_of_no_reset ho).trans hon

end Sys2Proof.Machine
end

section
open Sys2Proof.Machine

/-- Settles O24: the five clauses follow from what each end of a command does with the pull-up. -/
theorem pullUpStaysOnOnlyWithoutAReset : Obligations.PullUpStaysOnOnlyWithoutAReset := by
  refine ⟨?converts, fun i c s t hi e => ((exec_outcome e).pullUp hi).on_cases,
    fun i c s t hi e => ((exec_outcome e).pullUp hi).resets_iff, ?keeps, ?ends⟩
  case converts =>
    intro x s t k hs hk hpres hpwr hblocking havail e
    obtain rfl := Host.Outcome.next.inj ((execConvertTemperature_present hs hk hpres).symm.trans e)
    have hact := Phy.after_convert_spuAct s.phy s k s.addr havail
    rwa [hpwr, State.blocking, hblocking] at hact
  case keeps =>
    intro s t waited estimate hq hon htime hobeys hreset e
    exact step_keeps_pullUp hq hon htime hobeys hreset e
  case ends =>
    intro x s t waited estimate hend
    obtain ⟨-, htime⟩ := Bool.and_eq_true_iff.mp hend
    refine ⟨by rw [State.hostMayStart, htime, Bool.or_true], fun hs havail e => ?_⟩
    obtain ⟨k, hk, hes⟩ := Phy.follows_reset_exists s.phy
    obtain rfl := Host.Outcome.next.inj ((execResetBus_of_follows hs hk hes).symm.trans e)
    have hoff := (EndsPullUp.reset k).off s.phy
    rwa [havail, Bool.not_true, Bool.and_false] at hoff

end

section
/-! Rounding to binary32 (R106, R242): the fields of the word it gives, the grid of the finite words, and the nearest of
them. -/

namespace Sys2Proof.Machine

/-! ## Rounding to an integer -/

/-- No integer is nearer to p / q, and where another is as near the one given is even (R106). -/
theorem roundNearestEven_nearest {p q : Nat} (hq : 0 < q) (j : ℤ) :
    |(roundNearestEven p q : ℤ) * q - p| ≤ |j * q - p|
    ∧ (|(roundNearestEven p q : ℤ) * q - p| = |j * q - p| → j ≠ roundNearestEven p q →
      roundNearestEven p q % 2 = 0) := by
  have hdiv : (q : ℤ) * (p / q : ℕ) + (p % q : ℕ) = p := by exact_mod_cast Nat.div_add_mod p q
  have hrem := Nat.mod_lt p hq
  simp only [roundNearestEven]
  generalize p / q = n at hdiv
  generalize p % q = r at hdiv hrem
  -- the distances of the integers up to n and from n + 1 on
  have below (d : ℕ) : |((n : ℤ) - d) * q - p| = r + (d * q : ℕ) := by
    rw [show ((n : ℤ) - d) * q - p = -(r + (d * q : ℕ)) by rw [← hdiv]; push_cast; ring, abs_neg, abs_of_nonneg]
    positivity
  have above (d : ℕ) : |((n : ℤ) + 1 + d) * q - p| = (q - r) + (d * q : ℕ) := by
    rw [show ((n : ℤ) + 1 + d) * q - p = (q - r) + (d * q : ℕ) by rw [← hdiv]; push_cast; ring, abs_of_nonneg]
    omega
  have hself : |(n : ℤ) * q - p| = r := by simpa using below 0
  have hnext : |((n + 1 : ℕ) : ℤ) * q - p| = q - r := by simpa using above 0
  obtain ⟨d, rfl | rfl⟩ : ∃ d : ℕ, j = (n : ℤ) - d ∨ j = (n : ℤ) + 1 + d := by
    rcases le_or_gt j n with hj | hj
    · exact ⟨(n - j).toNat, .inl (by omega)⟩
    · exact ⟨(j - n - 1).toNat, .inr (by omega)⟩
  all_goals
    have hgap : d = 0 ∨ q ≤ d * q := d.eq_zero_or_pos.imp_right (Nat.le_mul_of_pos_left q)
    split_ifs <;> simp only [below, above, hself, hnext] <;> omega

/-- The same over the rationals. -/
theorem roundNearestEven_nearest_rat {p q : Nat} (hq : 0 < q) (j : ℤ) :
    |(roundNearestEven p q : ℚ) - p / q| ≤ |j - (p : ℚ) / q|
    ∧ (|(roundNearestEven p q : ℚ) - p / q| = |j - (p : ℚ) / q| → j ≠ roundNearestEven p q →
      roundNearestEven p q % 2 = 0) := by
  have hq' : (0 : ℚ) < q := by exact_mod_cast hq
  have hscale (i : ℤ) : |(i : ℚ) - p / q| = (|i * q - p| : ℤ) / q := by
    push_cast
    rw [← abs_of_pos hq', ← abs_div, abs_of_pos hq', sub_div, mul_div_cancel_right₀ _ hq'.ne']
  obtain ⟨hle, htie⟩ := roundNearestEven_nearest (p := p) hq j
  rw [← Int.cast_natCast (roundNearestEven p q), hscale, hscale, div_le_div_iff_of_pos_right hq',
    div_left_inj' hq'.ne', Int.cast_le, Int.cast_inj]
  exact ⟨hle, htie⟩

/-! ## The exponent -/

/-- A power of two as a fraction, as the rounding computes it. -/
theorem zpow_eq_div_toNat (e : ℤ) : (2 : ℚ) ^ e = 2 ^ e.toNat / 2 ^ (-e).toNat := by
  rw [← zpow_natCast, ← zpow_natCast, ← zpow_sub₀ two_ne_zero, Int.toNat_sub_toNat_neg]

theorem zpow_le_div_iff {p q : Nat} (hq : 0 < q) (e : ℤ) :
    (2 : ℚ) ^ e ≤ (p : ℚ) / q ↔ q * 2 ^ e.toNat ≤ p * 2 ^ (-e).toNat := by
  rw [zpow_eq_div_toNat, div_le_div_iff₀ (by positivity) (by positivity), mul_comm]
  exact_mod_cast Iff.rfl

theorem floorLog2_bounds {p q : Nat} (hp : 0 < p) (hq : 0 < q) :
    (2 : ℚ) ^ floorLog2 p q ≤ (p : ℚ) / q ∧ (p : ℚ) / q < 2 ^ (floorLog2 p q + 1) := by
  have hplo : (2 : ℚ) ^ (p.log2 : ℤ) ≤ p := by exact_mod_cast Nat.log2_self_le hp.ne'
  have hphi : (p : ℚ) < 2 ^ ((p.log2 : ℤ) + 1) := by exact_mod_cast Nat.lt_log2_self
  have hqlo : (2 : ℚ) ^ (q.log2 : ℤ) ≤ q := by exact_mod_cast Nat.log2_self_le hq.ne'
  have hqhi : (q : ℚ) < 2 ^ ((q.log2 : ℤ) + 1) := by exact_mod_cast Nat.lt_log2_self
  have hq' : (0 : ℚ) < q := by exact_mod_cast hq
  have hlo : (2 : ℚ) ^ ((p.log2 : ℤ) - q.log2 - 1) ≤ (p : ℚ) / q := by
    rw [le_div_iff₀ hq']
    calc (2 : ℚ) ^ ((p.log2 : ℤ) - q.log2 - 1) * q
      _ ≤ 2 ^ ((p.log2 : ℤ) - q.log2 - 1) * 2 ^ ((q.log2 : ℤ) + 1) := by gcongr
      _ = 2 ^ (p.log2 : ℤ) := by rw [← zpow_add₀ two_ne_zero]; congr 1; ring
      _ ≤ p := hplo
  have hhi : (p : ℚ) / q < 2 ^ ((p.log2 : ℤ) - q.log2 + 1) := by
    rw [div_lt_iff₀ hq']
    calc (p : ℚ) < 2 ^ ((p.log2 : ℤ) + 1) := hphi
      _ = 2 ^ ((p.log2 : ℤ) - q.log2 + 1) * 2 ^ (q.log2 : ℤ) := by rw [← zpow_add₀ two_ne_zero]; congr 1; ring
      _ ≤ 2 ^ ((p.log2 : ℤ) - q.log2 + 1) * q := by gcongr
  simp only [floorLog2]
  split_ifs with h
  · exact ⟨(zpow_le_div_iff hq _).mpr h, hhi⟩
  · rw [sub_add_cancel]
    exact ⟨hlo, not_le.mp (mt (zpow_le_div_iff hq _).mp h)⟩

/-! ## The fields of a word -/

/-- The word with these fields, as ToBinary32 puts it together: sign, exponent and fraction (R106). -/
def binary32Word (neg : Prop) [Decidable neg] (e f : Nat) : Word :=
  BitVec.ofNat 32 ((if neg then 2 ^ 31 else 0) + (e * 2 ^ 23 + f))

section
variable (neg : Prop) [Decidable neg] {e f : Nat} (he : e < 256) (hf : f < 2 ^ 23)
include he hf

theorem binary32Word_toNat :
    (binary32Word neg e f).toNat = (if neg then 2 ^ 31 else 0) + (e * 2 ^ 23 + f) := by
  rw [binary32Word, BitVec.toNat_ofNat, Nat.mod_eq_of_lt]
  split_ifs <;> omega

theorem binary32Word_sign : (binary32Word neg e f).getLsbD 31 = decide neg := by
  rw [BitVec.getLsbD, binary32Word_toNat neg he hf, Nat.testBit_eq_decide_div_mod_eq]
  split_ifs with h <;> simp [h] <;> omega

theorem binary32Word_exponent : ((binary32Word neg e f).extractLsb' 23 8).toNat = e := by
  rw [BitVec.extractLsb'_toNat, binary32Word_toNat neg he hf, Nat.shiftRight_eq_div_pow]
  split_ifs <;> omega

theorem binary32Word_fraction : ((binary32Word neg e f).extractLsb' 0 23).toNat = f := by
  rw [BitVec.extractLsb'_toNat, binary32Word_toNat neg he hf, Nat.shiftRight_eq_div_pow]
  split_ifs <;> omega

theorem binary32Word_even : (binary32Word neg e f).getLsbD 0 = decide (f % 2 = 1) := by
  rw [BitVec.getLsbD, binary32Word_toNat neg he hf, Nat.testBit_eq_decide_div_mod_eq]
  congr 1
  split_ifs <;> simp only [eq_iff_iff] <;> omega

theorem binary32Value_word (he0 : e ≠ 0) : binary32Value (binary32Word neg e f)
    = (if neg then -1 else 1) * (((2 ^ 23 + f : ℕ) : ℚ) * 2 ^ ((e : ℤ) - 150)) := by
  simp only [binary32Value, binary32Word_sign neg he hf, binary32Word_exponent neg he hf,
    binary32Word_fraction neg he hf, he0, if_false, decide_eq_true_eq, mul_assoc]

end

/-! ## The grid of the finite words -/

/-- The values beside which a value from 2^e to 2^(e+1) is rounded: the multiples of 2^(e-23), and smaller ones. -/
def OnGrid (e : ℤ) (v : ℚ) : Prop := |v| < 2 ^ e ∨ ∃ j : ℤ, v = j * 2 ^ (e - 23)

theorem OnGrid.neg {e : ℤ} {v : ℚ} (h : OnGrid e v) : OnGrid e (-v) := by
  rcases h with h | ⟨j, rfl⟩
  · exact .inl (by rwa [abs_neg])
  · exact .inr ⟨-j, by push_cast; ring⟩

theorem OnGrid.signed {e : ℤ} {v : ℚ} (h : OnGrid e v) (neg : Prop) [Decidable neg] :
    OnGrid e ((if neg then -1 else 1) * v) := by
  split_ifs
  · rw [neg_one_mul]
    exact h.neg
  · rwa [one_mul]

/-- A significand below 2^m at a small enough exponent is below 2^e. -/
theorem OnGrid.small {e k : ℤ} {F m : ℕ} (hF : F < 2 ^ m) (hk : m + k ≤ e) : OnGrid e ((F : ℚ) * 2 ^ k) := by
  left
  have hF' : (F : ℚ) < 2 ^ (m : ℤ) := by exact_mod_cast hF
  calc |(F : ℚ) * 2 ^ k| = F * 2 ^ k := abs_of_nonneg (by positivity)
    _ < 2 ^ (m : ℤ) * 2 ^ k := by gcongr
    _ = 2 ^ (m + k) := (zpow_add₀ two_ne_zero ..).symm
    _ ≤ 2 ^ e := zpow_le_zpow_right₀ one_le_two hk

/-- A significand at an exponent that is large enough is a multiple of 2^(e-23). -/
theorem OnGrid.multiple {e k : ℤ} (F : ℕ) (hk : e - 23 ≤ k) : OnGrid e ((F : ℚ) * 2 ^ k) := by
  obtain ⟨d, rfl⟩ := Int.le.dest hk
  refine .inr ⟨F * 2 ^ d, ?_⟩
  rw [zpow_add₀ two_ne_zero, zpow_natCast]
  push_cast
  ring

/-- Every finite word's value lies on the grid (R106). -/
theorem binary32Value_onGrid {e : ℤ} (he : -126 ≤ e) (w : Word) : OnGrid e (binary32Value w) := by
  have hF : (w.extractLsb' 0 23).toNat < 2 ^ 23 := (w.extractLsb' 0 23).isLt
  simp only [binary32Value, mul_assoc]
  generalize (w.extractLsb' 23 8).toNat = E
  generalize (w.extractLsb' 0 23).toNat = F at hF
  by_cases hE : E = 0
  · rw [if_pos hE]
    exact (OnGrid.small (m := 23) hF (by omega)).signed _
  · rw [if_neg hE]
    rcases lt_or_ge (E : ℤ) (e + 127) with hlt | hge
    · exact (OnGrid.small (m := 24) (by omega) (by omega)).signed _
    · exact (OnGrid.multiple _ (by omega)).signed _

/-! ## Rounding a value -/

/-- A positive value x rounds to the significand n at the exponent e (R106). -/
structure Rounded (x : ℚ) (e : ℤ) (n : ℕ) : Prop where
  exp_le : (2 : ℚ) ^ e ≤ x
  lt_exp : x < 2 ^ (e + 1)
  nearest : ∀ j : ℤ, |(n : ℚ) - x * 2 ^ (23 - e)| ≤ |j - x * 2 ^ (23 - e)|
    ∧ (|(n : ℚ) - x * 2 ^ (23 - e)| = |j - x * 2 ^ (23 - e)| → j ≠ n → n % 2 = 0)

namespace Rounded

variable {x : ℚ} {e : ℤ} {n : ℕ}

/-- The distances in units of the grid. -/
theorem scaled_sub (v : ℚ) : |v * 2 ^ (e - 23) - x| = |v - x * 2 ^ (23 - e)| * 2 ^ (e - 23) := by
  have hpos : (0 : ℚ) < 2 ^ (e - 23) := by positivity
  rw [← abs_of_pos hpos, ← abs_mul, abs_of_pos hpos, sub_mul, mul_assoc, ← zpow_add₀ two_ne_zero]
  simp

variable (h : Rounded x e n)
include h

/-- The value in units of the grid. -/
theorem scaled_bounds : 2 ^ 23 ≤ x * 2 ^ (23 - e) ∧ x * 2 ^ (23 - e) < 2 ^ 24 := by
  have hpos : (0 : ℚ) < 2 ^ (23 - e) := by positivity
  constructor
  · calc (2 : ℚ) ^ 23 = 2 ^ e * 2 ^ (23 - e) := by rw [← zpow_add₀ two_ne_zero, add_sub_cancel]; rfl
      _ ≤ x * 2 ^ (23 - e) := by gcongr; exact h.exp_le
  · calc x * 2 ^ (23 - e) < 2 ^ (e + 1) * 2 ^ (23 - e) := by gcongr; exact h.lt_exp
      _ = 2 ^ 24 := by rw [← zpow_add₀ two_ne_zero, show e + 1 + (23 - e) = (24 : ℕ) by ring]; rfl

theorem significand_ge : 2 ^ 23 ≤ n := by
  by_contra hlt
  have hn : (n : ℚ) < 2 ^ 23 := by exact_mod_cast not_le.mp hlt
  have hy := h.scaled_bounds.1
  have hj := (h.nearest (2 ^ 23)).1
  push_cast at hj
  rw [abs_of_nonpos (by linarith), abs_of_nonpos (by linarith)] at hj
  linarith

theorem significand_le : n ≤ 2 ^ 24 := by
  by_contra hlt
  have hn : (2 : ℚ) ^ 24 < n := by exact_mod_cast not_le.mp hlt
  have hy := h.scaled_bounds.2
  have hj := (h.nearest (2 ^ 24)).1
  push_cast at hj
  rw [abs_of_nonneg (by linarith), abs_of_nonneg (by linarith)] at hj
  linarith

theorem exp_ge (hx : (2 : ℚ) ^ (-126 : ℤ) ≤ x) : -126 ≤ e := by
  have := (zpow_lt_zpow_iff_right₀ one_lt_two).mp (hx.trans_lt h.lt_exp)
  omega

theorem exp_le_of_le {m : ℤ} (hx : x ≤ 2 ^ m) : e ≤ m :=
  (zpow_le_zpow_iff_right₀ one_lt_two).mp (h.exp_le.trans hx)

/-- No value on the grid is nearer than the one rounded to. -/
theorem nearest_onGrid {v : ℚ} (hv : OnGrid e v) :
    |n * 2 ^ (e - 23) - x| ≤ |v - x|
    ∧ (|n * 2 ^ (e - 23) - x| = |v - x| → v ≠ n * 2 ^ (e - 23) → n % 2 = 0) := by
  have hpos : (0 : ℚ) < 2 ^ (e - 23) := by positivity
  rcases hv with hv | ⟨j, rfl⟩
  · -- 2^e lies between v and x
    have hj := (h.nearest (2 ^ 23)).1
    have hgrid : ((2 ^ 23 : ℤ) : ℚ) * 2 ^ (e - 23) = 2 ^ e := by
      rw [show ((2 ^ 23 : ℤ) : ℚ) = 2 ^ (23 : ℤ) by norm_num, ← zpow_add₀ two_ne_zero, add_sub_cancel]
    have hlt : |n * 2 ^ (e - 23) - x| < |v - x| := by
      calc |n * 2 ^ (e - 23) - x| ≤ |((2 ^ 23 : ℤ) : ℚ) * 2 ^ (e - 23) - x| := by
            rw [scaled_sub, scaled_sub]; gcongr
        _ = x - 2 ^ e := by rw [hgrid, abs_of_nonpos (by linarith [h.exp_le])]; ring
        _ < x - v := by linarith [lt_of_abs_lt hv]
        _ ≤ |v - x| := by rw [abs_sub_comm]; exact le_abs_self _
    exact ⟨hlt.le, fun heq => absurd heq hlt.ne⟩
  · obtain ⟨hle, htie⟩ := h.nearest j
    rw [scaled_sub, scaled_sub, mul_le_mul_iff_left₀ hpos, mul_left_inj' hpos.ne']
    refine ⟨hle, fun heq hne => htie heq ?_⟩
    rintro rfl
    exact hne rfl

/-- A value on the grid is rounded to itself. -/
theorem exact {j : ℤ} (hx : x = j * 2 ^ (e - 23)) : n * 2 ^ (e - 23) = x := by
  have := (h.nearest_onGrid (.inr ⟨j, hx⟩)).1
  rwa [sub_self, abs_zero, abs_nonpos_iff, sub_eq_zero] at this

/-- A power of two is its own significand's least. -/
theorem significand_eq (hx : x ≤ 2 ^ e) : n = 2 ^ 23 := by
  have hpow : x = ((2 ^ 23 : ℕ) : ℤ) * 2 ^ (e - 23) := by
    rw [le_antisymm hx h.exp_le, Nat.cast_pow, Int.cast_pow, Nat.cast_ofNat, Int.cast_ofNat, ← zpow_natCast,
      ← zpow_add₀ two_ne_zero, Nat.cast_ofNat, add_sub_cancel]
  have hn := (h.exact hpow).trans hpow
  rw [mul_left_inj' (by positivity)] at hn
  exact_mod_cast hn

end Rounded

/-! ## ToBinary32 (R242) -/

theorem binary32Magnitude_rounded {p q : ℕ} (hp : 0 < p) (hq : 0 < q) (hlo : (2 : ℚ) ^ (-126 : ℤ) ≤ (p : ℚ) / q)
    (hhi : (p : ℚ) / q ≤ 2 ^ 127) : ∃ e n, Rounded ((p : ℚ) / q) e n
      ∧ binary32Magnitude p q = (e + 126).toNat * 2 ^ 23 + n ∧ (e + 126).toNat * 2 ^ 23 + n < 255 * 2 ^ 23 := by
  obtain ⟨e, he⟩ : ∃ e, floorLog2 p q = e := ⟨_, rfl⟩
  obtain ⟨hexp, hlt⟩ := floorLog2_bounds hp hq
  rw [he] at hexp hlt
  have hscale : (p : ℚ) / q * 2 ^ (23 - e) = (p * 2 ^ (23 - e).toNat : ℕ) / (q * 2 ^ (-(23 - e)).toNat : ℕ) := by
    rw [zpow_eq_div_toNat (23 - e), div_mul_div_comm]
    push_cast
    rfl
  have hround : Rounded ((p : ℚ) / q) e
      (roundNearestEven (p * 2 ^ (23 - e).toNat) (q * 2 ^ (-(23 - e)).toNat)) :=
    ⟨hexp, hlt, fun j => by rw [hscale]; exact roundNearestEven_nearest_rat (by positivity) j⟩
  have hge := hround.exp_ge hlo
  have hmag : (e + 126).toNat * 2 ^ 23 + roundNearestEven (p * 2 ^ (23 - e).toNat) (q * 2 ^ (-(23 - e)).toNat)
      < 255 * 2 ^ 23 := by
    have hle := hround.significand_le
    rcases (hround.exp_le_of_le (m := 127) hhi).lt_or_eq with h127 | rfl
    · omega
    · have hn := hround.significand_eq hhi
      omega
  refine ⟨e, _, hround, ?_, hmag⟩
  simp only [binary32Magnitude, he, max_eq_left hge]
  exact min_eq_left (by omega)

/-- A significand and its exponent as the fields of a word: one of 2^24 carries into the exponent (R106). -/
theorem exists_fields {e : ℤ} {n : ℕ} (he : -126 ≤ e) (hge : 2 ^ 23 ≤ n) (hle : n ≤ 2 ^ 24)
    (hfin : (e + 126).toNat * 2 ^ 23 + n < 255 * 2 ^ 23) : ∃ E f : ℕ, E ≠ 0 ∧ E < 255 ∧ f < 2 ^ 23
      ∧ (e + 126).toNat * 2 ^ 23 + n = E * 2 ^ 23 + f ∧ f % 2 = n % 2
      ∧ ((2 ^ 23 + f : ℕ) : ℚ) * 2 ^ ((E : ℤ) - 150) = n * 2 ^ (e - 23) := by
  rcases hle.lt_or_eq with hlt | rfl
  · refine ⟨(e + 127).toNat, n - 2 ^ 23, by omega, by omega, by omega, by omega, by omega, ?_⟩
    rw [Nat.add_sub_cancel' hge, show ((e + 127).toNat : ℤ) - 150 = e - 23 by omega]
  · refine ⟨(e + 128).toNat, 0, by omega, by omega, by omega, by omega, by omega, ?_⟩
    rw [show ((e + 128).toNat : ℤ) - 150 = 1 + (e - 23) by omega, zpow_add₀ two_ne_zero]
    norm_num
    ring

theorem Frac.abs_value (v : Frac) : |v.value| = (v.num.natAbs : ℚ) / v.den := by
  rw [Frac.value, abs_div, Nat.abs_cast, Nat.cast_natAbs, Int.cast_abs]

theorem Frac.value_eq_signed (v : Frac) : v.value = (if v.num < 0 then -1 else 1) * |v.value| := by
  split_ifs with h
  · have hneg : v.value ≤ 0 := div_nonpos_of_nonpos_of_nonneg (by exact_mod_cast h.le) (Nat.cast_nonneg _)
    rw [abs_of_nonpos hneg, neg_one_mul, neg_neg]
  · rw [abs_of_nonneg (div_nonneg (by exact_mod_cast not_lt.mp h) (Nat.cast_nonneg _)), one_mul]

theorem sign_mul_sign_mul (neg : Prop) [Decidable neg] (a : ℚ) :
    (if neg then -1 else 1) * ((if neg then -1 else 1) * a) = a := by
  split_ifs <;> ring

theorem Frac.signed_value (v : Frac) : (if v.num < 0 then -1 else 1) * v.value = |v.value| := by
  conv_lhs => rw [v.value_eq_signed, sign_mul_sign_mul]

/-- What ToBinary32 gives of a value in the range of the normal numbers. -/
theorem toBinary32_rounded {v : Frac} (hden : 0 < v.den) (hlo : (2 : ℚ) ^ (-126 : ℤ) ≤ |v.value|)
    (hhi : |v.value| ≤ 2 ^ 127) : ∃ e n, Rounded |v.value| e n ∧ -126 ≤ e ∧ binary32Finite (toBinary32 v) = true
      ∧ binary32Value (toBinary32 v) = (if v.num < 0 then -1 else 1) * (n * 2 ^ (e - 23))
      ∧ (n % 2 = 0 → (toBinary32 v).getLsbD 0 = false) := by
  have hnum : v.num ≠ 0 := by
    intro h
    rw [Frac.value, h, Int.cast_zero, zero_div, abs_zero] at hlo
    exact absurd hlo (not_le.mpr (by positivity))
  rw [Frac.abs_value] at hlo hhi
  obtain ⟨e, n, hround, hmag, hfin⟩ := binary32Magnitude_rounded (Int.natAbs_pos.mpr hnum) hden hlo hhi
  have he := hround.exp_ge hlo
  obtain ⟨E, f, hE0, hE, hf, hbits, heven, hval⟩ := exists_fields he hround.significand_ge hround.significand_le hfin
  have hE' : E < 256 := hE.trans (by decide)
  have hword : toBinary32 v = binary32Word (v.num < 0) E f := by
    rw [toBinary32, if_neg hnum, hmag, hbits, binary32Word]
  refine ⟨e, n, by rwa [Frac.abs_value], he, ?_, ?_, fun hn => ?_⟩
  · rw [hword, binary32Finite, binary32Word_exponent _ hE' hf, decide_eq_true hE]
  · rw [hword, binary32Value_word _ hE' hf hE0, hval]
  · rw [hword, binary32Word_even _ hE' hf, heven, hn]
    rfl

/-- A value on the grid of its own exponent is given exactly. -/
theorem toBinary32_exact {v : Frac} (hden : 0 < v.den) (hlo : (2 : ℚ) ^ (-126 : ℤ) ≤ |v.value|)
    (hhi : |v.value| ≤ 2 ^ 127) (hgrid : ∀ e : ℤ, (2 : ℚ) ^ e ≤ |v.value| → ∃ j : ℤ, |v.value| = j * 2 ^ (e - 23)) :
    binary32Value (toBinary32 v) = v.value ∧ binary32Finite (toBinary32 v) = true := by
  obtain ⟨e, n, hround, -, hfin, hval, -⟩ := toBinary32_rounded hden hlo hhi
  obtain ⟨j, hj⟩ := hgrid e hround.exp_le
  exact ⟨by rw [hval, hround.exact hj, ← Frac.value_eq_signed], hfin⟩

theorem toBinary32_zero {v : Frac} (h : v.num = 0) : toBinary32 v = 0x00000000#32 := if_pos h

/-- Taking a sign off both ends of a distance. -/
theorem abs_signed_sub (neg : Prop) [Decidable neg] (a b : ℚ) :
    |(if neg then -1 else 1) * a - b| = |a - (if neg then -1 else 1) * b| := by
  split_ifs
  · rw [neg_one_mul, neg_one_mul, ← abs_neg]
    congr 1
    ring
  · rw [one_mul, one_mul]

/-- No finite word is nearer than the one ToBinary32 gives, and where another is as near it is even (R242). -/
theorem toBinary32_nearest {v : Frac} (hden : 0 < v.den) (hlo : (2 : ℚ) ^ (-126 : ℤ) ≤ |v.value|)
    (hhi : |v.value| ≤ 2 ^ 127) : binary32Finite (toBinary32 v) = true ∧ ∀ w : Word,
      |binary32Value (toBinary32 v) - v.value| ≤ |binary32Value w - v.value|
      ∧ (|binary32Value (toBinary32 v) - v.value| = |binary32Value w - v.value| →
        binary32Value w ≠ binary32Value (toBinary32 v) → (toBinary32 v).getLsbD 0 = false) := by
  obtain ⟨e, n, hround, he, hfin, hval, heven⟩ := toBinary32_rounded hden hlo hhi
  refine ⟨hfin, fun w => ?_⟩
  obtain ⟨hle, htie⟩ := hround.nearest_onGrid ((binary32Value_onGrid he w).signed (v.num < 0))
  have hself : |binary32Value (toBinary32 v) - v.value| = |n * 2 ^ (e - 23) - (|v.value|)| := by
    rw [hval, abs_signed_sub, v.signed_value]
  have hother : |binary32Value w - v.value|
      = |(if v.num < 0 then -1 else 1) * binary32Value w - (|v.value|)| := by
    rw [abs_signed_sub, ← v.value_eq_signed]
  rw [hself, hother]
  refine ⟨hle, fun heq hne => heven (htie heq fun h => hne ?_)⟩
  rw [hval, ← h, sign_mul_sign_mul]

end Sys2Proof.Machine
end

section
/-! The temperatures as fractions: their values, and the range they lie in (R238, R239, R243). -/

namespace Sys2Proof.Machine

/-- A fraction that is not 0, with a small numerator and a small denominator, is in the range of the normal numbers. -/
theorem Frac.value_in_range {v : Frac} (hden : 0 < v.den) (hsmall : v.den ≤ 2 ^ 126) (hnum : v.num ≠ 0)
    (hbound : v.num.natAbs ≤ 2 ^ 127) : (2 : ℚ) ^ (-126 : ℤ) ≤ |v.value| ∧ |v.value| ≤ 2 ^ 127 := by
  have hden' : (0 : ℚ) < v.den := by exact_mod_cast hden
  have hone : (1 : ℚ) ≤ v.num.natAbs := by exact_mod_cast Int.natAbs_pos.mpr hnum
  rw [v.abs_value, le_div_iff₀ hden', div_le_iff₀ hden']
  constructor
  · calc (2 : ℚ) ^ (-126 : ℤ) * v.den ≤ 2 ^ (-126 : ℤ) * 2 ^ 126 := by gcongr; exact_mod_cast hsmall
      _ = 1 := by rw [← zpow_natCast, ← zpow_add₀ two_ne_zero]; rfl
      _ ≤ v.num.natAbs := hone
  · calc (v.num.natAbs : ℚ) ≤ 2 ^ 127 * 1 := by rw [mul_one]; exact_mod_cast hbound
      _ ≤ 2 ^ 127 * v.den := by gcongr; exact_mod_cast hden

/-! ## Modern (R239) -/

theorem rawTemp_natAbs_le (raw : BitVec 16) : raw.toInt.natAbs ≤ 2 ^ 15 := by
  have hlo := BitVec.le_toInt raw
  have hhi := BitVec.toInt_lt (x := raw)
  omega

theorem modernTemp_value (raw : ℤ) : (modernTemp raw).value = (raw : ℚ) / 16 := rfl

theorem modernTemp_den_pos (raw : ℤ) : 0 < (modernTemp raw).den := Nat.succ_pos 15

theorem modernTemp_in_range (raw : BitVec 16) : (modernTemp raw.toInt).num = 0
    ∨ ((2 : ℚ) ^ (-126 : ℤ) ≤ |(modernTemp raw.toInt).value| ∧ |(modernTemp raw.toInt).value| ≤ 2 ^ 127) :=
  or_iff_not_imp_left.mpr fun hnum => Frac.value_in_range (modernTemp_den_pos _) (show 16 ≤ 2 ^ 126 by decide) hnum
    ((rawTemp_natAbs_le raw).trans (by decide))

/-- A sixteenth is on the grid of every exponent that a modern temperature reaches. -/
theorem modernTemp_on_grid (raw : BitVec 16) {e : ℤ} (he : (2 : ℚ) ^ e ≤ |(modernTemp raw.toInt).value|) :
    ∃ j : ℤ, |(modernTemp raw.toInt).value| = j * 2 ^ (e - 23) := by
  rw [Frac.abs_value] at he ⊢
  simp only [modernTemp] at he ⊢
  have hraw : (raw.toInt.natAbs : ℚ) ≤ 2 ^ 15 := by exact_mod_cast rawTemp_natAbs_le raw
  have he11 : e ≤ 11 := by
    refine (zpow_le_zpow_iff_right₀ (one_lt_two (α := ℚ))).mp (he.trans ?_)
    push_cast
    linarith
  obtain ⟨d, hd⟩ := Int.le.dest (show e ≤ 19 by omega)
  refine ⟨raw.toInt.natAbs * 2 ^ d, ?_⟩
  rw [show e - 23 = -4 - d by omega, zpow_sub₀ two_ne_zero, zpow_natCast]
  push_cast
  field_simp
  norm_num [mul_comm]

/-- A modern temperature is exact in binary32 (R239, R242). -/
theorem toBinary32_modernTemp (raw : BitVec 16) :
    binary32Value (toBinary32 (modernTemp raw.toInt)) = (modernTemp raw.toInt).value
    ∧ binary32Finite (toBinary32 (modernTemp raw.toInt)) = true := by
  rcases modernTemp_in_range raw with hzero | ⟨hlo, hhi⟩
  · rw [toBinary32_zero hzero]
    exact ⟨by rw [Frac.value, hzero]; norm_num [binary32Value], rfl⟩
  · exact toBinary32_exact (modernTemp_den_pos _) hlo hhi fun e => modernTemp_on_grid raw

/-! ## Legacy (R243) -/

theorem legacyTemp_of_ne_zero (m : HalfMode) (raw : ℤ) (cr : Byte) {cpd : Byte} (hcpd : cpd ≠ 0x00#8) :
    legacyTemp m raw cr cpd = some
      { num := 2 * twiceHalf m raw * cpd.toNat - cpd.toNat + 4 * ((cpd.toNat : ℤ) - cr.toNat), den := 4 * cpd.toNat } :=
  if_neg hcpd

theorem toNat_pos_of_ne_zero {b : Byte} (h : b ≠ 0x00#8) : 0 < b.toNat :=
  Nat.pos_of_ne_zero fun hz => h (BitVec.eq_of_toNat_eq hz)

/-- The formula of R243, from twice its half. -/
theorem legacyTemp_value (m : HalfMode) (raw : ℤ) (cr : Byte) {cpd : Byte} (hcpd : cpd ≠ 0x00#8) {h : ℚ}
    (hh : (twiceHalf m raw : ℚ) = 2 * h) : ∃ v, legacyTemp m raw cr cpd = some v
      ∧ v.value = h - 1 / 4 + ((cpd.toNat : ℚ) - cr.toNat) / cpd.toNat := by
  have hpos : (0 : ℚ) < cpd.toNat := by exact_mod_cast toNat_pos_of_ne_zero hcpd
  refine ⟨_, legacyTemp_of_ne_zero m raw cr hcpd, ?_⟩
  rw [Frac.value]
  push_cast
  rw [hh]
  field_simp
  ring

theorem natAbs_twiceHalf_le (m : HalfMode) (raw : ℤ) : (twiceHalf m raw).natAbs ≤ raw.natAbs + 1 := by
  cases m with
  | exact => exact Nat.le_succ _
  | trunc =>
    rw [twiceHalf, Int.natAbs_mul, Int.natAbs_tdiv]
    exact (Nat.mul_div_le raw.natAbs 2).trans (Nat.le_succ _)
  | floor => rw [twiceHalf, Int.fdiv_eq_ediv_of_nonneg _ (by decide)]; omega

theorem legacyTemp_in_range {m : HalfMode} {raw : BitVec 16} {cr cpd : Byte} {v : Frac}
    (h : legacyTemp m raw.toInt cr cpd = some v) : 0 < v.den ∧ (v.num = 0
      ∨ ((2 : ℚ) ^ (-126 : ℤ) ≤ |v.value| ∧ |v.value| ≤ 2 ^ 127)) := by
  have hcpd : cpd ≠ 0x00#8 := by
    rintro rfl
    cases h
  obtain rfl := Option.some.inj ((legacyTemp_of_ne_zero m raw.toInt cr hcpd).symm.trans h)
  have hpos := toNat_pos_of_ne_zero hcpd
  have hcpd' := cpd.isLt
  have hcr := cr.isLt
  have hhalf : (twiceHalf m raw.toInt).natAbs ≤ 2 ^ 15 + 1 :=
    (natAbs_twiceHalf_le m _).trans (Nat.succ_le_succ (rawTemp_natAbs_le raw))
  have hprod : (twiceHalf m raw.toInt * cpd.toNat).natAbs ≤ (2 ^ 15 + 1) * 255 := by
    rw [Int.natAbs_mul, Int.natAbs_natCast]
    exact Nat.mul_le_mul hhalf (by omega)
  refine ⟨by simpa using hpos, or_iff_not_imp_left.mpr fun hnum => Frac.value_in_range (by simpa using hpos) ?_ hnum ?_⟩
  · show 4 * cpd.toNat ≤ 2 ^ 126
    omega
  · show (2 * twiceHalf m raw.toInt * cpd.toNat - cpd.toNat + 4 * ((cpd.toNat : ℤ) - cr.toNat)).natAbs ≤ 2 ^ 127
    rw [mul_assoc]
    omega

end Sys2Proof.Machine
end

section
open Sys2Proof.Machine

/-- Settles O28: sixteenths lie on the grid of the finite words. -/
theorem modernTemperatureIsExact : Obligations.ModernTemperatureIsExact := by
  intro raw
  obtain ⟨hvalue, hfin⟩ := toBinary32_modernTemp raw
  exact ⟨hvalue.trans (modernTemp_value _), hfin, fun h => toBinary32_zero (by rw [h]; rfl)⟩

/-- Settles O29: the fraction over `4 cpd` is the formula, with the half of each mode. -/
theorem legacyFormula : Obligations.LegacyFormula := by
  refine fun raw cr cpd => ⟨fun m => if_pos rfl, fun hcpd => ⟨?exact, ?trunc, ?floor⟩⟩
  case exact => exact legacyTemp_value .exact _ _ hcpd (by simp only [twiceHalf]; ring)
  case trunc => exact legacyTemp_value .trunc _ _ hcpd (by simp only [twiceHalf]; push_cast; rfl)
  case floor =>
    have hfloor : ⌊(raw.toInt : ℚ) / 2⌋ = raw.toInt.fdiv 2 := by
      rw [Int.fdiv_eq_ediv_of_nonneg _ (by decide)]
      exact_mod_cast Rat.floor_intCast_div_natCast raw.toInt 2
    rw [hfloor]
    exact legacyTemp_value .floor _ _ hcpd (by simp only [twiceHalf]; push_cast; rfl)

/-- Settles O30: `toBinary32` gives the nearest word, and each formula's fraction is in its range. -/
theorem toBinary32RoundsToNearestEven : Obligations.ToBinary32RoundsToNearestEven := by
  refine ⟨fun v hden => ⟨toBinary32_zero, fun hlo hhi => ?_⟩, fun raw v hv => ?_⟩
  · obtain ⟨hfin, hnearest⟩ := toBinary32_nearest hden hlo hhi
    exact ⟨hfin, fun w _ => hnearest w⟩
  · rcases hv with rfl | ⟨m, cr, cpd, hv⟩
    · exact ⟨modernTemp_den_pos _, modernTemp_in_range raw⟩
    · exact legacyTemp_in_range hv

end

section
/-! The causes of INVALID_ARG, and the status a command ends with where it has none of them (R271 to R273). -/

namespace Sys2Proof.Machine

variable {s t u : State} {i : Instr} {c : HostOp} {st : Status} {o : Host.Outcome State Fault Refusal}

theorem eq_instr_of_hostOp (hi : i.hostOp = some c) : ∃ x, i = c.instr x := by
  cases i <;> cases hi <;> exact ⟨_, rfl⟩

theorem eq_invalidArg_of_statusCode (h : statusCode st = statusCode .invalidArg) : st = .invalidArg := by
  revert h
  cases st <;> decide

/-! ## The causes of INVALID_ARG (R272) -/

/-- Causes (b) to (f) of R272, command by command; cause (a) is no command. -/
def State.BadArgument (s : State) : HostOp → Prop
  | .init => s.session = true
  | .crc8 => 9 < s.len
  | .searchRom => s.session = false ∨ s.params.addrlistDepth < s.cap
  | .setResolution => s.session = false ∨ (s.family = .modern ∧ (s.res < 9 ∨ 12 < s.res))
  | .destroy | .resetBus | .readRom | .readPowerSupply | .readScratchpad | .writeScratchpad | .convertDuration
  | .convertTemperature | .getTemperature | .getResolution => s.session = false

/-- R272 lists the causes the other way round, each with its commands. -/
theorem State.badArgument_iff (s : State) (c : HostOp) : s.BadArgument c ↔
    (s.session = false ∧ c ≠ .init ∧ c ≠ .crc8) ∨ (c = .init ∧ s.session = true)
    ∨ (c = .searchRom ∧ s.params.addrlistDepth < s.cap)
    ∨ (c = .setResolution ∧ s.family = .modern ∧ (s.res < 9 ∨ 12 < s.res)) ∨ (c = .crc8 ∧ 9 < s.len) := by
  cases c <;> simp [State.BadArgument]

theorem State.session_of_not_badArgument (hgood : ¬ s.BadArgument c) (hinit : c ≠ .init) (hcrc : c ≠ .crc8) :
    s.session = true :=
  Bool.of_not_eq_false fun hs => hgood ((s.badArgument_iff c).mpr (.inl ⟨hs, hinit, hcrc⟩))

/-- A bad argument ends the command, and nothing else happens (R272, R273). -/
theorem exec_badArgument (hi : i.hostOp = some c) (hbad : s.BadArgument c) :
    exec i s = .next (s.finish .invalidArg) := by
  by_cases hno : s.session = false ∧ c ≠ .init ∧ c ≠ .crc8
  case pos =>
    obtain ⟨hs, hinit, hcrc⟩ := hno
    exact exec_no_session hs (by rw [hi]; rfl) (by simpa [hi] using hinit) (by simpa [hi] using hcrc)
  case neg =>
    obtain ⟨x, rfl⟩ := eq_instr_of_hostOp hi
    rcases (s.badArgument_iff c).mp hbad with hcause | ⟨rfl, hs⟩ | ⟨rfl, hcap⟩ | ⟨rfl, hf, hr⟩ | ⟨rfl, hlen⟩
    · exact absurd hcause hno
    · exact execInit_active hs
    · exact execSearchRom_of_depth_lt_cap (by simpa using hno) hcap
    · exact execSetResolution_invalidArg (by simpa using hno) hf hr
    · exact execCrc8_of_lt_len hlen

/-! ## The other ends (R271) -/

/-- R271's table without INVALID_ARG: the statuses a command can end with where its arguments are good. -/
def goodStatuses : HostOp → List Status
  | .init | .destroy | .resetBus | .convertDuration | .crc8 => [.ok]
  | .readPowerSupply | .writeScratchpad | .convertTemperature => [.ok, .noDevice]
  | .searchRom => [.ok, .noDevice, .tooMany]
  | .readRom | .readScratchpad => [.ok, .noDevice, .crcError]
  | .getTemperature | .getResolution | .setResolution => [.ok, .noDevice, .crcError, .unsupported]

theorem invalidArg_notMem_goodStatuses (c : HostOp) : .invalidArg ∉ goodStatuses c := by
  cases c <;> decide

/-! R271's rows, read code by code. -/

theorem mem_of_noDevice (h : .noDevice ∈ goodStatuses c) : c ∈ [HostOp.readRom, .searchRom, .readPowerSupply,
    .readScratchpad, .writeScratchpad, .convertTemperature, .getTemperature, .getResolution, .setResolution] := by
  revert h
  cases c <;> decide

theorem mem_of_crcError (h : .crcError ∈ goodStatuses c) :
    c ∈ [HostOp.readRom, .readScratchpad, .getTemperature, .getResolution, .setResolution] := by
  revert h
  cases c <;> decide

theorem eq_of_tooMany (h : .tooMany ∈ goodStatuses c) : c = .searchRom := by
  revert h
  cases c <;> decide

theorem mem_of_unsupported (h : .unsupported ∈ goodStatuses c) :
    c ∈ [HostOp.getTemperature, .getResolution, .setResolution] := by
  revert h
  cases c <;> decide

/-- Where the command has ended, its status is one of R271's table other than INVALID_ARG. -/
def State.EndsWell (t : State) (c : HostOp) : Prop := t.seq = .idle → ∃ st ∈ goodStatuses c, t.status = statusCode st

theorem State.EndsWell.finish (ho : o = .next (u.finish st)) (e : o = .next t) (hst : st ∈ goodStatuses c) :
    t.EndsWell c := by
  cases ho.symm.trans e
  exact fun _ => ⟨st, hst, rfl⟩

/-- From good arguments a command ends with a status of R271's table other than INVALID_ARG. -/
theorem exec_endsWell (hi : i.hostOp = some c) (hgood : ¬ s.BadArgument c) (e : exec i s = .next t) : t.EndsWell c := by
  obtain ⟨x, rfl⟩ := eq_instr_of_hostOp hi
  have active : c ≠ .init → c ≠ .crc8 → s.session = true := s.session_of_not_badArgument hgood
  cases c with
  | init =>
    have hs : s.session = false := Bool.of_not_eq_true hgood
    rcases execInit_outcome hs rfl with ⟨_, _, _, _, h⟩ | ⟨_, _, _, _, _, _, _, _, _, h⟩ <;>
      exact .finish h e (by decide)
  | destroy => exact .finish (execDestroy_active (active nofun nofun)) e (by decide)
  | resetBus =>
    obtain ⟨_, _, _, _, _, _, h⟩ := execResetBus_outcome (active nofun nofun)
    exact .finish h e (by decide)
  | readRom =>
    rcases execReadRom_outcome (active nofun nofun) with ⟨_, _, _, _, h⟩ | ⟨_, _, _, _, _, _, _, _, _, h⟩
    · exact .finish h e (by decide)
    · exact .finish h e (by split <;> decide)
  | searchRom =>
    rcases execSearchRom_outcome (active nofun nofun) s.addr with
      ⟨hcap, -⟩ | ⟨-, _, _, _, _, _, _, _, status, seq, -, -, -, hstatus, h⟩
    · exact absurd (.inr hcap) hgood
    · cases h.symm.trans e
      intro hq
      rcases hstatus hq with h | h | h
      · exact ⟨.ok, by decide, h⟩
      · exact ⟨.noDevice, by decide, h⟩
      · exact ⟨.tooMany, by decide, h⟩
  | readPowerSupply =>
    rcases execReadPowerSupply_outcome (active nofun nofun) with ⟨_, _, _, _, h⟩ | ⟨_, _, _, _, _, _, _, _, _, h⟩ <;>
      exact .finish h e (by decide)
  | readScratchpad =>
    rcases execReadScratchpad_outcome (active nofun nofun) with ⟨_, _, _, _, h⟩ | ⟨_, _, _, _, _, _, _, h⟩
    · exact .finish h e (by decide)
    · exact .finish h e (by split <;> decide)
  | writeScratchpad =>
    rcases execWriteScratchpad_outcome (active nofun nofun) with ⟨_, _, _, _, h⟩ | ⟨_, _, _, _, _, _, _, _, h⟩ <;>
      exact .finish h e (by decide)
  | convertDuration =>
    rcases execConvertDuration_outcome (active nofun nofun) with
      ⟨-, h⟩ | ⟨_, _, _, -, -, h⟩ | ⟨_, _, _, _, _, _, -, -, -, h⟩ <;>
      exact .finish h e (by decide)
  | convertTemperature =>
    rcases execConvertTemperature_outcome (active nofun nofun) with ⟨_, _, _, _, h⟩ | ⟨_, _, _, _, _, _, _, _, h⟩ <;>
      exact .finish h e (by decide)
  | getTemperature =>
    rcases execGetTemperature_outcome (active nofun nofun) with
      ⟨_, _, _, -, h⟩ | ⟨_, _, _, _, _, _, _, -, -, h | h⟩
    · exact .finish h e (by decide)
    · exact .finish h e (by decide)
    · exact .finish h e (by split <;> decide)
  | getResolution =>
    rcases execGetResolution_outcome (active nofun nofun) with
      ⟨-, h⟩ | ⟨-, h⟩ | ⟨_, _, _, -, -, h⟩ | ⟨_, _, _, _, _, _, -, -, -, h | h⟩ <;>
      exact .finish h e (by decide)
  | setResolution =>
    rcases execSetResolution_outcome (active nofun nofun) with
      ⟨-, h⟩ | ⟨hf, hr, -⟩ | ⟨-, -, -, ⟨_, _, _, -, h⟩ | ⟨_, _, _, _, _, -, -, h⟩
        | ⟨_, _, _, _, _, _, _, _, -, -, -, -, -, h⟩⟩
    · exact .finish h e (by decide)
    · exact absurd (.inr ⟨hf, hr⟩) hgood
    · exact .finish h e (by decide)
    · exact .finish h e (by decide)
    · exact .finish h e (by split <;> decide)
  | crc8 => exact .finish (execCrc8_of_len_le (Nat.le_of_not_lt hgood)) e (by decide)

/-- The two ways a host command can end. -/
theorem exec_badArgument_or_endsWell (hi : i.hostOp = some c) (e : exec i s = .next t) :
    (s.BadArgument c ∧ t = s.finish .invalidArg) ∨ (¬ s.BadArgument c ∧ t.EndsWell c) := by
  by_cases hbad : s.BadArgument c
  · exact .inl ⟨hbad, Host.Outcome.next.inj (e.symm.trans (exec_badArgument hi hbad))⟩
  · exact .inr ⟨hbad, exec_endsWell hi hbad e⟩

theorem State.EndsWell.status_ne_invalidArg (h : t.EndsWell c) (hq : t.seq = .idle) :
    t.status ≠ statusCode .invalidArg := by
  obtain ⟨st, hst, hstatus⟩ := h hq
  intro heq
  obtain rfl := eq_invalidArg_of_statusCode (hstatus.symm.trans heq)
  exact invalidArg_notMem_goodStatuses c hst

/-! ## CRC8 and INIT without a session (R273) -/

/-- CRC8 neither reads nor writes the session (R156). -/
theorem execCrc8_withSession (s : State) (b : Bool) : ∃ t, execCrc8 { s with session := b } = .next t
    ∧ execCrc8 s = .next { t with session := s.session } := by
  by_cases hlen : 9 < s.len
  · exact ⟨_, execCrc8_of_lt_len (s := { s with session := b }) hlen, execCrc8_of_lt_len hlen⟩
  · have hle := Nat.le_of_not_lt hlen
    exact ⟨_, execCrc8_of_len_le (s := { s with session := b }) hle, execCrc8_of_len_le hle⟩

/-- INIT's probe does not end the session that its setup starts (R203). -/
theorem execInit_session (hs : s.session = false) : ∃ t, execInit s = .next t ∧ t.session = true := by
  rcases execInit_outcome hs rfl with ⟨_, _, _, -, h⟩ | ⟨_, _, _, _, _, _, -, -, -, h⟩
  · exact ⟨_, h, rfl⟩
  · exact ⟨_, h, rfl⟩

end Sys2Proof.Machine
end

section
open Sys2Proof.Machine

/-- Settles O39: a bad argument ends the command at once, and from good ones none of R271's other statuses is
INVALID_ARG. -/
theorem invalidArgHasExactlyItsCauses : Obligations.InvalidArgHasExactlyItsCauses := by
  intro i c s t hi e hq
  have hcauses : t.status = 0x01#8 ↔ s.BadArgument c := by
    rcases exec_badArgument_or_endsWell hi e with ⟨hbad, rfl⟩ | ⟨hgood, hends⟩
    · exact iff_of_true rfl hbad
    · exact iff_of_false (hends.status_ne_invalidArg hq) hgood
  refine ⟨hcauses.trans (s.badArgument_iff c), fun hstatus => ?_⟩
  exact Host.Outcome.next.inj (e.symm.trans (exec_badArgument hi (hcauses.mp hstatus)))

/-- Settles O41: INVALID_ARG from a bad argument, else a status that `goodStatuses` lists for the command. -/
theorem statusCodesByCommand : Obligations.StatusCodesByCommand := by
  intro i c s t hi e hq
  rcases exec_badArgument_or_endsWell hi e with ⟨-, rfl⟩ | ⟨-, hends⟩
  · exact .inr (.inl rfl)
  · obtain ⟨st, hst, hstatus⟩ := hends hq
    rw [hstatus]
    cases st with
    | ok => exact .inl rfl
    | invalidArg => exact absurd hst (invalidArg_notMem_goodStatuses c)
    | noDevice => exact .inr (.inr (.inl ⟨rfl, mem_of_noDevice hst⟩))
    | crcError => exact .inr (.inr (.inr (.inl ⟨rfl, mem_of_crcError hst⟩)))
    | tooMany => exact .inr (.inr (.inr (.inr (.inl ⟨rfl, eq_of_tooMany hst⟩))))
    | unsupported => exact .inr (.inr (.inr (.inr (.inr ⟨rfl, mem_of_unsupported hst⟩))))

/-- Settles O38: the prologue's check, which CRC8 and INIT do not have. -/
theorem noSessionIsInvalidArg : Obligations.NoSessionIsInvalidArg := by
  refine fun s hs => ⟨fun i c hi hinit hcrc => ?others, fun x => ?crcAndInit⟩
  case others => exact exec_badArgument hi ((s.badArgument_iff c).mpr (.inl ⟨hs, hinit, hcrc⟩))
  case crcAndInit =>
    obtain ⟨t, hactive, hnone⟩ := execCrc8_withSession s true
    rw [hs] at hnone
    obtain ⟨u, hnext, hu⟩ := execInit_session hs
    exact ⟨t, u, hactive, hnone, hnext, hu⟩

end
